-- ==== Sys2Proof/Word.lean ====
section
/-! DEFINITION. The words of the block. Bit 0 is the least significant bit and every value is unsigned (R7). -/

namespace Sys2Proof

/-- A byte of memory or of the chunk buffer (R7). -/
abbrev Byte := BitVec 8

/-- A hash-state word, working variable, schedule word, round constant or host register half:
the parameter `WORD` of R6. -/
abbrev Word := BitVec 32

/-- A host operand (`SRC`, `LEN`, `DST`) or a running copy of one (R6, R27 to R30, R36 to R38). -/
abbrev Dword := BitVec 64

end Sys2Proof
end

