-- ==== Sys2Proof/Config.lean ====
section
/-! DEFINITION. What the spec leaves to the platform (R6, U8), and the values it leaves unspecified (R44, U6). -/

namespace Sys2Proof

/-- A stretch of the address space with what the platform memory admits there (R51, R52, R61).
DESIGN CHOICE (log 8): the domain of `Mem` is a list of these, plain data. -/
structure Region where
  base : Nat
  size : Nat
  read : Bool
  write : Bool
  deriving DecidableEq, Repr

/-- The parameters a platform supplies (R6, U8): the address width `AW`, and where `Mem` admits
accesses. They are held in State (log 8) and no step writes them. -/
structure Platform where
  aw : Nat
  regions : List Region
  deriving DecidableEq, Repr

/-- The default of R6 for `AW`, and a memory that admits every access (DESIGN CHOICE, log 8). -/
def Platform.standard : Platform where
  aw := 64
  regions := [{ base := 0, size := 2 ^ 64, read := true, write := true }]

namespace Config

/-- Names for the places whose value the spec leaves unspecified: the hidden registers of R44, and an
index beyond the table `K`, which no run reaches (log 7). -/
inductive Hidden where
  | hash (i : Nat)
  | work (i : Nat)
  | w (i : Nat)
  | buf (i : Nat)
  | k (i : Nat)
  | fill
  | t
  | sidx
  | ptr
  | rem
  | total
  | dptr
  | padded
  | final
  deriving DecidableEq, Repr

/-- FREE VALUE (R44, U6; log 6 and log 7). What an unspecified place holds at a given draw.
It has no body: nothing can be proved of its value. -/
opaque unspecified : Nat → Hidden → Dword

end Config

end Sys2Proof
end

