-- ==== Sys2Proof/Syntax.lean ====
section
/-! DEFINITION. The 30 rows of the opcode table (R83), the phases (R72), the host registers (R73) and the
notation for host programs (R81, R82). -/

namespace Sys2Proof

/-- The values of the `phase` register (R31, R72). Codes 14 and 15 are no phase (R78). -/
inductive Phase where
  | idle
  | init
  | fetch
  | pad80
  | padz
  | padlen
  | wload
  | wexp
  | seed
  | round
  | addbk
  | next
  | ser
  | finish
  deriving DecidableEq, Repr

/-- The eight host registers, by their index of R73. -/
inductive HostReg where
  | ctrl
  | status
  | srcLo
  | srcHi
  | lenLo
  | lenHi
  | dstLo
  | dstHi
  deriving DecidableEq, Repr

/-- One constructor per row of the opcode table: sixteen host accesses, then fourteen phase codes (R83).
A read has no operand, since its `wdata` is ignored (R71); a micro-operation has none (R80). -/
inductive Instr where
  | rdCtrl
  | rdStatus
  | rdSrcLo
  | rdSrcHi
  | rdLenLo
  | rdLenHi
  | rdDstLo
  | rdDstHi
  | wrCtrl (wdata : Word)
  | wrStatus (wdata : Word)
  | wrSrcLo (wdata : Word)
  | wrSrcHi (wdata : Word)
  | wrLenLo (wdata : Word)
  | wrLenHi (wdata : Word)
  | wrDstLo (wdata : Word)
  | wrDstHi (wdata : Word)
  | idle
  | init
  | fetch
  | pad80
  | padz
  | padlen
  | wload
  | wexp
  | seed
  | round
  | addbk
  | next
  | ser
  | finish
  deriving DecidableEq, Repr

/-- The two formats of R70. -/
inductive Format where
  | host
  | sequencer
  deriving DecidableEq, Repr

/-- One line of a host program (R81): `RD <reg>` or `WR <reg>, <value>`. -/
inductive HostLine where
  | rd (reg : HostReg)
  | wr (reg : HostReg) (value : Word)
  deriving DecidableEq, Repr

/-- The pseudo-instructions of R82. `POLL` repeats a read until it sees `DONE`; the number of reads it
takes depends on the interleaving, so it is an operand here (log 21). -/
inductive Pseudo where
  | setSrc (a : Dword)
  | setLen (n : Dword)
  | setDst (a : Dword)
  | start
  | poll (reads : Nat)
  | compute (src len dst : Dword) (reads : Nat)
  deriving DecidableEq, Repr

end Sys2Proof
end

