-- ==== Sys2Proof/Machine/State.lean ====
section
/-! DEFINITION. The state of the block, its environment as plain data, the reasons a step can stop, and the state
after reset (R20 to R47, R250). -/

namespace Sys2Proof.Machine

/-- Why a step answers a fault. The block itself has none (R16, R220). -/
inductive Fault where
  /-- Raised by `step` for another master's store at an address at or above `2^AW`, which does not exist
  (R50; log 11). Safe: the machine stops where the platform would go on. -/
  | storeOutsideSpace
  deriving DecidableEq, Repr

/-- Why a step answers a refusal. -/
inductive Refusal where
  /-- Raised by `exec` for an instruction that has no meaning yet. Safe. No arm raises it. -/
  | notModelled (mnemonic : String)
  /-- Raised by `WR_CTRL` for a START with `LEN ≥ 2^61` (R221 V1, U1). Safe: the spec refuses it. -/
  | startLengthTooLarge
  /-- Raised by `WR_CTRL` for a START whose message range wraps (R60, R221 V4, U3). Safe: the spec refuses it. -/
  | startMessageWraps
  /-- Raised by `WR_CTRL` for a START whose digest range wraps (R60, R221 V4, U3). Safe: the spec refuses it. -/
  | startDigestWraps
  /-- Raised by `WR_CTRL` for a START whose ranges overlap (R62, R221 V5, U4). Safe: the spec refuses it. -/
  | startRangesOverlap
  /-- Raised by `step` when its fetched bytes decode to nothing. Safe. No state raises it, since every access
  and every phase decodes (R71, R78). -/
  | undecodable
  deriving DecidableEq, Repr

/-- The working variables `a..h` (R21). -/
structure Work where
  a : Word
  b : Word
  c : Word
  d : Word
  e : Word
  f : Word
  g : Word
  h : Word
  deriving DecidableEq, Repr

/-- The contents of the platform memory `Mem` (R6, R50): addresses strictly rising.
An address that is not listed holds no byte a read could return (log 9). -/
abbrev Memory := List Host.Cell

/-- The canonical form of a memory. No entry can equal what an unlisted address reads as, since that is no byte. -/
abbrev Memory.wf (m : Memory) : Prop :=
  m.Pairwise fun x y => x.1 < y.1

/-- What happens next, beside the sequencer's own moves (R13). The list of these in State is the interleaving of
the execution (DESIGN CHOICE, log 1). -/
inductive Event where
  /-- The host performs the access of these 36 bits (R71, R90). -/
  | access (word : BitVec 36)
  /-- The sequencer takes its step, if it has one (R120). -/
  | sequencer
  /-- The reset input is asserted (R250). -/
  | reset
  /-- Another master writes a byte of `Mem` (R13, R65, R67; log 11). -/
  | store (addr : Nat) (value : Byte)
  deriving DecidableEq, Repr

/-- What the block shows on its ports (R15, R43). -/
inductive Observation where
  /-- A host read of the register with this index returned this value (R71). -/
  | hostRead (idx : BitVec 3) (rdata : Word)
  /-- `MemRead(addr, 1)` returned this byte (R51). -/
  | memRead (addr : Nat) (value : Byte)
  /-- `MemWrite(addr, 1, value)` (R52). -/
  | memWrite (addr : Nat) (value : Byte)
  deriving DecidableEq, Repr

/-- The state. The first group is the block's own (R20 to R38); the second is the platform's (R6);
the third is the model's. -/
structure State where
  /-- `H[0..7]`, the hash state (R20). -/
  hash : Vector Word 8
  /-- `a..h`, the working variables (R21). -/
  work : Work
  /-- `W[0..63]`, the message schedule (R22). -/
  w : Vector Word 64
  /-- `BUF[0..63]`, the chunk buffer (R23). -/
  buf : Vector Byte 64
  /-- Bytes of `buf` that hold data, legal 0 to 64 (R24). -/
  fill : BitVec 7
  /-- Index of the schedule word or round, legal 0 to 64 (R25). -/
  t : BitVec 7
  /-- Index of the next digest byte, legal 0 to 32 (R26). -/
  sidx : BitVec 6
  /-- Address of the next message byte, below `2^AW` (R27; log 19). -/
  ptr : Dword
  /-- Message bytes not yet read (R28). -/
  rem : Dword
  /-- Message length captured at START (R29). -/
  total : Dword
  /-- Address of the first digest byte, below `2^AW` (R30; log 19). -/
  dptr : Dword
  /-- The sequencer's position (R31). -/
  phase : Phase
  /-- The `0x80` byte has been appended (R32). -/
  padded : Bool
  /-- The length field has been written (R33). -/
  final : Bool
  /-- `STATUS[0]` (R34). -/
  busy : Bool
  /-- `STATUS[1]` (R35). -/
  done : Bool
  /-- `{SRC_HI, SRC_LO}` (R36, R74). -/
  src : Dword
  /-- `{LEN_HI, LEN_LO}` (R37, R74). -/
  len : Dword
  /-- `{DST_HI, DST_LO}` (R38, R74). -/
  dst : Dword
  /-- The contents of `Mem` (R6, R50). -/
  mem : Memory
  /-- `AW` and the domain of `Mem` (R6; log 8). No step writes it. -/
  platform : Platform
  /-- The interleaving still to come (R13; log 1). -/
  agenda : List Event
  /-- What the block has shown so far, newest first (R15; log 12). -/
  trace : List Observation
  /-- The draw the next free values are taken at (log 6). -/
  draws : Nat
  deriving DecidableEq, Repr

/-- The state right after reset (R44, R250). The hidden registers, which the spec leaves unspecified, hold the pattern
`A5`, the counters 5 and the bits 1 (DESIGN CHOICE, unsafe, log 5: U6 forbids zero and the IV). -/
def State.reset : State where
  hash := Vector.replicate 8 0xA5A5A5A5
  work := ⟨0xA5A5A5A5, 0xA5A5A5A5, 0xA5A5A5A5, 0xA5A5A5A5, 0xA5A5A5A5, 0xA5A5A5A5, 0xA5A5A5A5, 0xA5A5A5A5⟩
  w := Vector.replicate 64 0xA5A5A5A5
  buf := Vector.replicate 64 0xA5
  fill := 5
  t := 5
  sidx := 5
  ptr := 0xA5A5A5A5A5A5A5A5
  rem := 0xA5A5A5A5A5A5A5A5
  total := 0xA5A5A5A5A5A5A5A5
  dptr := 0xA5A5A5A5A5A5A5A5
  phase := .idle
  padded := true
  final := true
  busy := false
  done := false
  src := 0
  len := 0
  dst := 0
  mem := []
  platform := Platform.standard
  agenda := []
  trace := []
  draws := 0

end Sys2Proof.Machine
end

