-- ==== Sys2Proof/Machine/Functions.lean ====
section
/-! DEFINITION. The arithmetic the micro-operations share (R9 to R12, R150, R151, R171 to R174, R176). -/

namespace Sys2Proof.Machine

/-- Addition modulo `2^32`; no carry, no flag (R9). -/
def add32 (x y : Word) : Word := x + y

/-- Right rotation by a constant `0 < n < 32` (R10, G3; log 15). -/
def rotr (x : Word) (n : Nat) : Word := (x >>> n) ||| (x <<< (32 - n))

/-- Logical right shift (R11). -/
def shr (x : Word) (n : Nat) : Word := x >>> n

/-- The exclusive or of three words, of which every sigma function and the majority are made (R12). -/
def xor3 (p q r : Word) : Word := p ^^^ (q ^^^ r)

/-- UTIL's `s0` of the message schedule: two rotations and a shift (R150). -/
def ssig0 (x : Word) : Word := xor3 (rotr x 7) (rotr x 18) (shr x 3)

/-- UTIL's `s1` of the message schedule: two rotations and a shift (R151). -/
def ssig1 (x : Word) : Word := xor3 (rotr x 17) (rotr x 19) (shr x 10)

/-- UTIL's `S0` of a round: three rotations (R171). -/
def bsig0 (x : Word) : Word := xor3 (rotr x 2) (rotr x 13) (rotr x 22)

/-- UTIL's `S1` of a round: three rotations (R172). -/
def bsig1 (x : Word) : Word := xor3 (rotr x 6) (rotr x 11) (rotr x 25)

/-- Choice: the first operand's ones select from the second, its zeros from the third (R173). -/
def ch (sel one zero : Word) : Word :=
  let taken := sel &&& one
  let other := ~~~sel &&& zero
  taken ^^^ other

/-- Majority: the exclusive or of the three pairwise conjunctions (R174). -/
def maj (p q r : Word) : Word := xor3 (p &&& q) (p &&& r) (q &&& r)

/-- A schedule word from the four it depends on: `W[t-16]`, `W[t-15]`, `W[t-7]`, `W[t-2]` (R153, R154). -/
def scheduleWord (w16 w15 w7 w2 : Word) : Word :=
  add32 (add32 (add32 w16 (ssig0 w15)) w7) (ssig1 w2)

/-- `T1` of a round (R176). -/
def roundT1 (v : Work) (k w : Word) : Word :=
  add32 (add32 (add32 (add32 v.h (bsig1 v.e)) (ch v.e v.f v.g)) k) w

/-- `T2` of a round (R176). -/
def roundT2 (v : Work) : Word :=
  add32 (bsig0 v.a) (maj v.a v.b v.c)

/-- The eight simultaneous assignments of a round (R176). -/
def roundWork (v : Work) (k w : Word) : Work where
  a := add32 (roundT1 v k w) (roundT2 v)
  b := v.a
  c := v.b
  d := v.c
  e := add32 v.d (roundT1 v k w)
  f := v.e
  g := v.f
  h := v.g

/-- `a..h` from eight words in order (R175). -/
def workOfHash (x : Vector Word 8) : Work :=
  ⟨x[0], x[1], x[2], x[3], x[4], x[5], x[6], x[7]⟩

/-- The working variables added into eight words, in order (R177). -/
def addWork (x : Vector Word 8) (v : Work) : Vector Word 8 :=
  #v[add32 x[0] v.a, add32 x[1] v.b, add32 x[2] v.c, add32 x[3] v.d,
    add32 x[4] v.e, add32 x[5] v.f, add32 x[6] v.g, add32 x[7] v.h]

end Sys2Proof.Machine
end

