-- ==== Sys2Proof/Machine/Flags.lean ====
section
/-! DEFINITION. The flags. There are four and arithmetic sets none of them (R9, R33): `padded` and `final` are internal
(R32, R33); `BUSY` and `DONE` are what `STATUS` shows (R34, R35, R76). -/

namespace Sys2Proof.Machine

/-- `{zext_30(0), DONE, BUSY}` (R76, R92). -/
def statusWord (busy done : Bool) : Word :=
  (0 : BitVec 30) ++ BitVec.ofBool done ++ BitVec.ofBool busy

/-- The `START` field of a value written to `CTRL`: bit 0; bits 31:1 are ignored (R75). -/
def startBit (wdata : Word) : Bool := wdata.getLsbD 0

end Sys2Proof.Machine
end

