-- ==== Sys2Proof/Machine/Operands.lean ====
section
/-! DEFINITION. How words are taken apart and put together: the halves of an operand (R74), the truncation of an address
(R27, R74), the big-endian packings (R53, R54, R55), the runs of zero bytes (R124, R126). -/

namespace Sys2Proof.Machine

/-- `X_LO`: bits 31:0 of an operand (R74). -/
def loHalf (x : Dword) : Word := x.extractLsb' 0 32

/-- `X_HI`: bits 63:32 of an operand (R74). -/
def hiHalf (x : Dword) : Word := x.extractLsb' 32 32

/-- An operand whose low half is written (R102, R104, R106). -/
def withLoHalf (x : Dword) (v : Word) : Dword := hiHalf x ++ v

/-- An operand whose high half is written (R103, R105, R107). -/
def withHiHalf (x : Dword) (v : Word) : Dword := v ++ loHalf x

/-- `x[AW-1:0]`, held in 64 bits (R27, R74; log 19). -/
def truncAddr (aw : Nat) (x : Dword) : Dword := BitVec.ofNat 64 (x.toNat % 2 ^ aw)

/-- Four bytes as a word, the first most significant (R53, R152). -/
def wordOfBytes (b0 b1 b2 b3 : Byte) : Word := b0 ++ b1 ++ b2 ++ b3

/-- Byte `k` of a word, byte 0 the most significant: `x[31-8k : 24-8k]` (R55, R200). -/
def byteOfWord (x : Word) (k : Nat) : Byte := x.extractLsb' (24 - 8 * k) 8

/-- Byte `k` of the length field, byte 0 the most significant: `x[63-8k : 56-8k]` (R54, R125). -/
def byteOfDword (x : Dword) (k : Nat) : Byte := x.extractLsb' (56 - 8 * k) 8

/-- The bit length: `(total << 3) mod 2^64` (R125). -/
def bitLength (total : Dword) : Dword := total <<< 3

/-- The chunk buffer with zero bytes at positions `lo` to `hi - 1` (R124, R126). -/
def zeroRun (buf : Vector Byte 64) (lo hi : Nat) : Vector Byte 64 :=
  Vector.ofFn fun j => if lo ≤ j.val ∧ j.val < hi then 0 else buf[j]

/-- The chunk buffer with the length field in its last eight bytes (R125). -/
def lengthField (buf : Vector Byte 64) (bits : Dword) : Vector Byte 64 :=
  Vector.ofFn fun j => if 56 ≤ j.val then byteOfDword bits (j.val - 56) else buf[j]

end Sys2Proof.Machine
end

