-- ==== Sys2Proof/Machine/Ops.lean ====
section
/-! DEFINITION. The operations the meanings share: the platform memory (R51, R52, R61), the register files by index, what
the block shows on its ports (R15), and the reset event (R250). The block takes no exception and returns from none
(R220, R224, R225), so there is no such operation here. -/

namespace Sys2Proof.Machine

/-! ### Memory -/

/-- The byte at an address, if one is listed. -/
def Memory.lookup : Memory → Nat → Option Byte
  | [], _ => none
  | (a, v) :: rest, k => if a = k then some v else Memory.lookup rest k

/-- The memory with a byte stored; the canonical form is kept. -/
def Memory.store : Memory → Nat → Byte → Memory
  | [], k, v => [(k, v)]
  | (a, x) :: rest, k, v =>
    if k < a then (k, v) :: (a, x) :: rest
    else if k = a then (k, v) :: rest
    else (a, x) :: Memory.store rest k v

/-- A region holds an address. -/
def Region.holds (r : Region) (a : Nat) : Bool :=
  decide (r.base ≤ a) && decide (a < r.base + r.size)

/-- The platform lets the block read at an address (R51). -/
def readable (p : Platform) (a : Nat) : Bool :=
  decide (a < 2 ^ p.aw) && p.regions.any fun r => r.read && Region.holds r a

/-- The platform lets the block write at an address (R52). -/
def writable (p : Platform) (a : Nat) : Bool :=
  decide (a < 2 ^ p.aw) && p.regions.any fun r => r.write && Region.holds r a

/-- What `Mem` gives a read at an address: its byte where `Mem` admits the read, nothing where it does not
(R51, R61). The platform must let the block read there and a byte must be listed (log 8, log 9). -/
def State.readByte (s : State) (a : Nat) : Option Byte :=
  if readable s.platform a then s.mem.lookup a else none

/-- `MemRead(a, 1)` that returned `v`: memory is unchanged and the port has shown the access (R51, R58). -/
def State.showRead (s : State) (a : Nat) (v : Byte) : State :=
  { s with trace := .memRead a v :: s.trace }

/-- `MemWrite(a, 1, v)`: the byte is stored and the port has shown the access (R52, R58). -/
def State.writeByte (s : State) (a : Nat) (v : Byte) : State :=
  { s with mem := s.mem.store a v, trace := .memWrite a v :: s.trace }

/-- A step that is not enabled: the sequencer is stuck, the state stays, nothing is reported (R16, R61; log 4). -/
def notEnabled (s : State) : Host.Outcome State Fault Refusal := .next s

/-! ### The host port -/

/-- A host read that returns `v`; no state of the block changes (R71, R90; log 12). -/
def State.returns (s : State) (idx : BitVec 3) (v : Word) : State :=
  { s with trace := .hostRead idx v :: s.trace }

/-! ### The register files by index. An index beyond a file, which no run reaches, reads a free value, and a write
there writes no register (log 7). -/

/-- `H[i]` (R20). -/
def State.hashAt (s : State) (i : Nat) : Word :=
  s.hash[i]?.getD ((Config.unspecified s.draws (.hash i)).setWidth 32)

/-- `W[i]` (R22). -/
def State.wAt (s : State) (i : Nat) : Word :=
  s.w[i]?.getD ((Config.unspecified s.draws (.w i)).setWidth 32)

/-- `BUF[i]` (R23). -/
def State.bufAt (s : State) (i : Nat) : Byte :=
  s.buf[i]?.getD ((Config.unspecified s.draws (.buf i)).setWidth 8)

/-- `K[i]` (R41, R170). -/
def State.kAt (s : State) (i : Nat) : Word :=
  kTable[i]?.getD ((Config.unspecified s.draws (.k i)).setWidth 32)

/-! ### Reset -/

/-- The value an unspecified register of at most 64 bits takes at a draw (R44; log 6). -/
def freeBits (n draw : Nat) (r : Config.Hidden) : BitVec n :=
  (Config.unspecified draw r).setWidth n

/-- The value an unspecified counter takes at a draw, inside its legal values (R24, R25, R26; log 6). -/
def freeCounter (n legal draw : Nat) (r : Config.Hidden) : BitVec n :=
  BitVec.ofNat n ((Config.unspecified draw r).toNat % (legal + 1))

/-- The reset event (R250): control state and operands at their reset values, every hidden register unspecified
(R44; log 6), `Mem` untouched. -/
def State.resetEvent (s : State) : State :=
  { s with
    phase := .idle
    busy := false
    done := false
    src := 0
    len := 0
    dst := 0
    hash := Vector.ofFn fun i => freeBits 32 s.draws (.hash i.val)
    work := ⟨freeBits 32 s.draws (.work 0), freeBits 32 s.draws (.work 1), freeBits 32 s.draws (.work 2),
      freeBits 32 s.draws (.work 3), freeBits 32 s.draws (.work 4), freeBits 32 s.draws (.work 5),
      freeBits 32 s.draws (.work 6), freeBits 32 s.draws (.work 7)⟩
    w := Vector.ofFn fun i => freeBits 32 s.draws (.w i.val)
    buf := Vector.ofFn fun i => freeBits 8 s.draws (.buf i.val)
    fill := freeCounter 7 64 s.draws .fill
    t := freeCounter 7 64 s.draws .t
    sidx := freeCounter 6 32 s.draws .sidx
    ptr := truncAddr s.platform.aw (freeBits 64 s.draws .ptr)
    rem := freeBits 64 s.draws .rem
    total := freeBits 64 s.draws .total
    dptr := truncAddr s.platform.aw (freeBits 64 s.draws .dptr)
    padded := (freeBits 64 s.draws .padded).getLsbD 0
    final := (freeBits 64 s.draws .final).getLsbD 0
    draws := s.draws + 1 }

/-! ### Another master -/

/-- Another master's store: the byte is in `Mem` at once (R64, R65, R67; log 11). An address at or above `2^AW` does
not exist. -/
def State.masterStore (s : State) (a : Nat) (v : Byte) : Host.Outcome State Fault Refusal :=
  if a < 2 ^ s.platform.aw then .next { s with mem := s.mem.store a v } else .fault .storeOutsideSpace

end Sys2Proof.Machine
end

