-- ==== Sys2Proof/Machine/Compression.lean ====
section
/-! DEFINITION. The compression engine: SEED, ROUND, ADDBK (R175, R176, R177). -/

namespace Sys2Proof.Machine

/-- `SEED` (R175). -/
def execSeed (s : State) : Host.Outcome State Fault Refusal :=
  .next { s with work := workOfHash s.hash, t := 0, phase := .round }

/-- `ROUND` (R176). -/
def execRound (s : State) : Host.Outcome State Fault Refusal :=
  .next { s with
    work := roundWork s.work (s.kAt s.t.toNat) (s.wAt s.t.toNat)
    t := s.t + 1
    phase := if s.t = 63 then .addbk else .round }

/-- `ADDBK` (R177). -/
def execAddbk (s : State) : Host.Outcome State Fault Refusal :=
  .next { s with hash := addWork s.hash s.work, phase := .next }

end Sys2Proof.Machine
end

