-- ==== Sys2Proof/Machine/HostReads.lean ====
section
/-! DEFINITION. The eight host reads (R91 to R98). Each returns a value, whether the block is busy or idle, and changes no
state of the block (R90). -/

namespace Sys2Proof.Machine

/-- `RD_CTRL` returns 0 (R91). -/
def execRdCtrl (s : State) : Host.Outcome State Fault Refusal :=
  .next (s.returns 0 0)

/-- `RD_STATUS` returns `{zext_30(0), DONE, BUSY}` and does not clear `DONE` (R92). -/
def execRdStatus (s : State) : Host.Outcome State Fault Refusal :=
  .next (s.returns 1 (statusWord s.busy s.done))

/-- `RD_SRC_LO` returns the stored register, not `ptr` (R93). -/
def execRdSrcLo (s : State) : Host.Outcome State Fault Refusal :=
  .next (s.returns 2 (loHalf s.src))

/-- `RD_SRC_HI` (R94). -/
def execRdSrcHi (s : State) : Host.Outcome State Fault Refusal :=
  .next (s.returns 3 (hiHalf s.src))

/-- `RD_LEN_LO` returns the stored register, not `rem` (R95). -/
def execRdLenLo (s : State) : Host.Outcome State Fault Refusal :=
  .next (s.returns 4 (loHalf s.len))

/-- `RD_LEN_HI` (R96). -/
def execRdLenHi (s : State) : Host.Outcome State Fault Refusal :=
  .next (s.returns 5 (hiHalf s.len))

/-- `RD_DST_LO` (R97). -/
def execRdDstLo (s : State) : Host.Outcome State Fault Refusal :=
  .next (s.returns 6 (loHalf s.dst))

/-- `RD_DST_HI` (R98). -/
def execRdDstHi (s : State) : Host.Outcome State Fault Refusal :=
  .next (s.returns 7 (hiHalf s.dst))

end Sys2Proof.Machine
end

