-- ==== Sys2Proof/Machine/HostWrites.lean ====
section
/-! DEFINITION. The eight host writes (R99 to R107), START among them, and the valid domain of a command (R259). -/

namespace Sys2Proof.Machine

/-- A host write whose effect is performed only when `BUSY = 0`; while busy it changes nothing (R99). -/
def whenIdle (s t : State) : Host.Outcome State Fault Refusal :=
  .next (if s.busy then s else t)

/-- `S`, the address of the first message byte a START would use (R74, R108). -/
def State.startSrc (s : State) : Nat := (truncAddr s.platform.aw s.src).toNat

/-- `D`, the address of the first digest byte a START would use (R74, R108). -/
def State.startDst (s : State) : Nat := (truncAddr s.platform.aw s.dst).toNat

/-- V1 (R221): the length is beyond `LMAX = 2^61 - 1` (R6). -/
def State.lengthTooLarge (s : State) : Bool := decide (2 ^ 61 ≤ s.len.toNat)

/-- V4 (R221, R60): the message range wraps. -/
def State.messageWraps (s : State) : Bool := decide (2 ^ s.platform.aw < s.startSrc + s.len.toNat)

/-- V4 (R221, R60): the digest range wraps. -/
def State.digestWraps (s : State) : Bool := decide (2 ^ s.platform.aw < s.startDst + 32)

/-- V5 (R221, R62): the ranges share an address; an empty message overlaps nothing. -/
def State.rangesOverlap (s : State) : Bool :=
  decide (0 < s.len.toNat) && decide (s.startSrc < s.startDst + 32) && decide (s.startDst < s.startSrc + s.len.toNat)

/-- Why the model refuses a START in this state, if it does (R221; log 10). -/
def State.startRefusal (s : State) : Option Refusal :=
  if s.lengthTooLarge then some .startLengthTooLarge
  else if s.messageWraps then some .startMessageWraps
  else if s.digestWraps then some .startDigestWraps
  else if s.rangesOverlap then some .startRangesOverlap
  else none

/-- The state after an accepted START (R100). -/
def State.started (s : State) : State :=
  { s with
    ptr := truncAddr s.platform.aw s.src
    rem := s.len
    total := s.len
    dptr := truncAddr s.platform.aw s.dst
    busy := true
    done := false
    phase := .init }

/-- A START with `BUSY = 0`: accepted in the valid domain, refused outside it (R100, R221). -/
def start (s : State) : Host.Outcome State Fault Refusal :=
  match s.startRefusal with
  | some r => .refused r
  | none => .next s.started

/-- `WR_CTRL`: a START when bit 0 is set and `BUSY = 0`, otherwise no change (R99, R100). -/
def execWrCtrl (wdata : Word) (s : State) : Host.Outcome State Fault Refusal :=
  if s.busy then .next s
  else if startBit wdata then start s
  else .next s

/-- `WR_STATUS` changes nothing, busy or idle (R101). -/
def execWrStatus (_wdata : Word) (s : State) : Host.Outcome State Fault Refusal :=
  .next s

/-- `WR_SRC_LO` (R102). -/
def execWrSrcLo (wdata : Word) (s : State) : Host.Outcome State Fault Refusal :=
  whenIdle s { s with src := withLoHalf s.src wdata }

/-- `WR_SRC_HI` (R103). -/
def execWrSrcHi (wdata : Word) (s : State) : Host.Outcome State Fault Refusal :=
  whenIdle s { s with src := withHiHalf s.src wdata }

/-- `WR_LEN_LO` (R104). -/
def execWrLenLo (wdata : Word) (s : State) : Host.Outcome State Fault Refusal :=
  whenIdle s { s with len := withLoHalf s.len wdata }

/-- `WR_LEN_HI` (R105). -/
def execWrLenHi (wdata : Word) (s : State) : Host.Outcome State Fault Refusal :=
  whenIdle s { s with len := withHiHalf s.len wdata }

/-- `WR_DST_LO` (R106). -/
def execWrDstLo (wdata : Word) (s : State) : Host.Outcome State Fault Refusal :=
  whenIdle s { s with dst := withLoHalf s.dst wdata }

/-- `WR_DST_HI` (R107). -/
def execWrDstHi (wdata : Word) (s : State) : Host.Outcome State Fault Refusal :=
  whenIdle s { s with dst := withHiHalf s.dst wdata }

end Sys2Proof.Machine
end

