-- ==== Sys2Proof/Machine/Padding.lean ====
section
/-! DEFINITION. Padding and chunking control: IDLE, INIT, FETCH, PAD80, PADZ, PADLEN, NEXT (R120 to R126). -/

namespace Sys2Proof.Machine

/-- Entry to the schedule: `t <- 0; phase <- WLOAD` (R120). -/
def State.enterWload (s : State) : State := { s with t := 0, phase := .wload }

/-- `IDLE`: the sequencer has no step, so its turn changes nothing (R120, R228; log 3). -/
def execIdle (s : State) : Host.Outcome State Fault Refusal :=
  .next s

/-- `INIT` (R121). -/
def execInit (s : State) : Host.Outcome State Fault Refusal :=
  .next { s with hash := ivTable, fill := 0, padded := false, final := false, phase := .fetch }

/-- The state after a FETCH that read the byte `v` (R122): `MemRead` at `ptr`, then the four registers. -/
def State.fetched (s : State) (v : Byte) : State :=
  { s.showRead s.ptr.toNat v with
    buf := s.buf.setIfInBounds s.fill.toNat v
    ptr := truncAddr s.platform.aw (s.ptr + 1)
    rem := s.rem - 1
    fill := s.fill + 1 }

/-- `FETCH` (R122): the tests are made in this order. A read that `Mem` does not admit leaves the step not enabled
(R61). -/
def execFetch (s : State) : Host.Outcome State Fault Refusal :=
  if s.fill = 64 then .next s.enterWload
  else if s.rem = 0 then .next { s with phase := .pad80 }
  else
    match s.readByte s.ptr.toNat with
    | some v => .next (s.fetched v)
    | none => notEnabled s

/-- `PAD80` (R123). -/
def execPad80 (s : State) : Host.Outcome State Fault Refusal :=
  .next { s with
    buf := s.buf.setIfInBounds s.fill.toNat 0x80
    fill := s.fill + 1
    padded := true
    phase := .padz }

/-- `PADZ` (R124): the test is on `fill` after the `0x80` byte (C1; log 16). -/
def execPadz (s : State) : Host.Outcome State Fault Refusal :=
  .next (if s.fill.toNat ≤ 56 then
      { s with buf := zeroRun s.buf s.fill.toNat 56, fill := 56, phase := .padlen }
    else { s with buf := zeroRun s.buf s.fill.toNat 64, fill := 64 }.enterWload)

/-- `PADLEN` (R125; log 22). -/
def execPadlen (s : State) : Host.Outcome State Fault Refusal :=
  .next { s with buf := lengthField s.buf (bitLength s.total), fill := 64, final := true }.enterWload

/-- `NEXT` (R126): the test of `final` comes first. -/
def execNext (s : State) : Host.Outcome State Fault Refusal :=
  .next (if s.final then { s with sidx := 0, phase := .ser }
    else if s.padded then { s with buf := zeroRun s.buf 0 64, fill := 56, phase := .padlen }
    else { s with fill := 0, phase := .fetch })

end Sys2Proof.Machine
end

