-- ==== Sys2Proof/Machine/Schedule.lean ====
section
/-! DEFINITION. The message schedule expander: WLOAD, WEXP (R152, R153). -/

namespace Sys2Proof.Machine

/-- The word WLOAD forms: `{BUF[4t], BUF[4t+1], BUF[4t+2], BUF[4t+3]}` (R152). -/
def State.loadedWord (s : State) : Word :=
  wordOfBytes (s.bufAt (4 * s.t.toNat)) (s.bufAt (4 * s.t.toNat + 1)) (s.bufAt (4 * s.t.toNat + 2))
    (s.bufAt (4 * s.t.toNat + 3))

/-- An index `t - d`, as the 7-bit register gives it. -/
def State.tMinus (s : State) (d : Nat) : Nat := (s.t - BitVec.ofNat 7 d).toNat

/-- The word WEXP computes (R153). -/
def State.expandedWord (s : State) : Word :=
  scheduleWord (s.wAt (s.tMinus 16)) (s.wAt (s.tMinus 15)) (s.wAt (s.tMinus 7)) (s.wAt (s.tMinus 2))

/-- `WLOAD` (R152). -/
def execWload (s : State) : Host.Outcome State Fault Refusal :=
  .next { s with
    w := s.w.setIfInBounds s.t.toNat s.loadedWord
    t := s.t + 1
    phase := if s.t = 15 then .wexp else .wload }

/-- `WEXP` (R153). -/
def execWexp (s : State) : Host.Outcome State Fault Refusal :=
  .next { s with
    w := s.w.setIfInBounds s.t.toNat s.expandedWord
    t := s.t + 1
    phase := if s.t = 63 then .seed else .wexp }

end Sys2Proof.Machine
end

