-- ==== Sys2Proof/Machine/Serialize.lean ====
section
/-! DEFINITION. Digest serialisation and completion: SER, FINISH (R200, R201). -/

namespace Sys2Proof.Machine

/-- Where SER writes: `(dptr + sidx) mod 2^AW` (R200). -/
def State.serAddress (s : State) : Nat := (s.dptr.toNat + s.sidx.toNat) % 2 ^ s.platform.aw

/-- What SER writes: byte `sidx mod 4` of `H[sidx div 4]`, byte 0 the most significant (R55, R200). -/
def State.serByte (s : State) : Byte := byteOfWord (s.hashAt (s.sidx.toNat / 4)) (s.sidx.toNat % 4)

/-- The state after a SER that was admitted (R200). -/
def State.serialized (s : State) : State :=
  { s.writeByte s.serAddress s.serByte with
    sidx := s.sidx + 1
    phase := if s.sidx = 31 then .finish else .ser }

/-- `SER` (R200). A write that `Mem` does not admit leaves the step not enabled (R61). -/
def execSer (s : State) : Host.Outcome State Fault Refusal :=
  if writable s.platform s.serAddress then .next s.serialized else notEnabled s

/-- `FINISH` (R201): the hidden registers keep their values (R47; log 17). -/
def execFinish (s : State) : Host.Outcome State Fault Refusal :=
  .next { s with busy := false, done := true, phase := .idle }

end Sys2Proof.Machine
end

