-- ==== Sys2Proof/Machine/Dispatch.lean ====
section
/-! DEFINITION. One arm per row of the opcode table (R83). -/

namespace Sys2Proof.Machine

/-- What an instruction does in a state: one call of its meaning per row of the opcode table. -/
def exec (i : Instr) (s : State) : Host.Outcome State Fault Refusal :=
  match i with
  -- format H: the host's accesses
  | .rdCtrl => Sys2Proof.Machine.execRdCtrl s
  | .rdStatus => Sys2Proof.Machine.execRdStatus s
  | .rdSrcLo => Sys2Proof.Machine.execRdSrcLo s
  | .rdSrcHi => Sys2Proof.Machine.execRdSrcHi s
  | .rdLenLo => Sys2Proof.Machine.execRdLenLo s
  | .rdLenHi => Sys2Proof.Machine.execRdLenHi s
  | .rdDstLo => Sys2Proof.Machine.execRdDstLo s
  | .rdDstHi => Sys2Proof.Machine.execRdDstHi s
  | .wrCtrl wdata => Sys2Proof.Machine.execWrCtrl wdata s
  | .wrStatus wdata => Sys2Proof.Machine.execWrStatus wdata s
  | .wrSrcLo wdata => Sys2Proof.Machine.execWrSrcLo wdata s
  | .wrSrcHi wdata => Sys2Proof.Machine.execWrSrcHi wdata s
  | .wrLenLo wdata => Sys2Proof.Machine.execWrLenLo wdata s
  | .wrLenHi wdata => Sys2Proof.Machine.execWrLenHi wdata s
  | .wrDstLo wdata => Sys2Proof.Machine.execWrDstLo wdata s
  | .wrDstHi wdata => Sys2Proof.Machine.execWrDstHi wdata s
  -- format S: the sequencer's micro-operations
  | .idle => Sys2Proof.Machine.execIdle s
  | .init => Sys2Proof.Machine.execInit s
  | .fetch => Sys2Proof.Machine.execFetch s
  | .pad80 => Sys2Proof.Machine.execPad80 s
  | .padz => Sys2Proof.Machine.execPadz s
  | .padlen => Sys2Proof.Machine.execPadlen s
  | .wload => Sys2Proof.Machine.execWload s
  | .wexp => Sys2Proof.Machine.execWexp s
  | .seed => Sys2Proof.Machine.execSeed s
  | .round => Sys2Proof.Machine.execRound s
  | .addbk => Sys2Proof.Machine.execAddbk s
  | .next => Sys2Proof.Machine.execNext s
  | .ser => Sys2Proof.Machine.execSer s
  | .finish => Sys2Proof.Machine.execFinish s

end Sys2Proof.Machine
end

