-- ==== Sys2Proof/WellFormed.lean ====
section
/-! DEFINITION. Which terms stand for something of the spec. The operand of every host write is a 32-bit word by its
type and every `(we, idx)` pair is a defined access (R71), so every instruction is well formed; the checks are on the
parameters of the platform (R6) and on the notation of host programs (R82). -/

namespace Sys2Proof

/-- Every instruction is well formed: format H has no illegal encoding (R71, R79) and a phase is one of the
fourteen codes by its type (R78). -/
def Instr.wellFormed : Instr → Bool
  | .rdCtrl | .rdStatus | .rdSrcLo | .rdSrcHi | .rdLenLo | .rdLenHi | .rdDstLo | .rdDstHi => true
  | .wrCtrl _ | .wrStatus _ | .wrSrcLo _ | .wrSrcHi _ | .wrLenLo _ | .wrLenHi _ | .wrDstLo _ | .wrDstHi _ => true
  | .idle | .init | .fetch | .pad80 | .padz | .padlen | .wload | .wexp => true
  | .seed | .round | .addbk | .next | .ser | .finish => true

/-- A region lies inside the address space of `2^aw` addresses (R50). -/
def Region.wellFormed (aw : Nat) (r : Region) : Bool :=
  decide (r.base + r.size ≤ 2 ^ aw)

/-- `1 ≤ AW ≤ 64` (R6), and every region lies inside the space. -/
def Platform.wellFormed (p : Platform) : Bool :=
  decide (1 ≤ p.aw) && decide (p.aw ≤ 64) && p.regions.all (Region.wellFormed p.aw)

/-- A `POLL` reads at least once (R82). -/
def Pseudo.wellFormed : Pseudo → Bool
  | .setSrc _ | .setLen _ | .setDst _ | .start => true
  | .poll reads => decide (1 ≤ reads)
  | .compute _ _ _ reads => decide (1 ≤ reads)

end Sys2Proof
end

