-- ==== Sys2Proof/Decode.lean ====
section
/-! DEFINITION. The decoder, total on any bytes, and after it the encoder (R70 to R74, R83).
The spec stores neither format anywhere; as bytes, an access is five and a phase code is one, the least significant
byte first, with the bits above the format zero (DESIGN CHOICE, log 13). -/

namespace Sys2Proof

/-- Why the decoder refuses. -/
inductive DecodeRefusal where
  /-- Neither one byte (format S) nor five (format H): R70 gives no other length. -/
  | badLength
  /-- A bit above bit 35 of format H is set: no such bit exists (R71). -/
  | notAnAccess
  /-- A bit above bit 3 of format S is set: no such bit exists (R72). -/
  | notAPhaseCode
  /-- Codes 14 and 15 of format S (R78). -/
  | reservedPhase
  deriving DecidableEq, Repr

/-- What the decoder answers. -/
inductive Decoded where
  | instr (i : Instr)
  | refused (why : DecodeRefusal)
  deriving DecidableEq, Repr

/-- The micro-operation a phase selects (R31, R72). -/
def Phase.instr : Phase → Instr
  | .idle => .idle
  | .init => .init
  | .fetch => .fetch
  | .pad80 => .pad80
  | .padz => .padz
  | .padlen => .padlen
  | .wload => .wload
  | .wexp => .wexp
  | .seed => .seed
  | .round => .round
  | .addbk => .addbk
  | .next => .next
  | .ser => .ser
  | .finish => .finish

/-- The code of a phase (R72). -/
def Phase.code : Phase → BitVec 4
  | .idle => 0
  | .init => 1
  | .fetch => 2
  | .pad80 => 3
  | .padz => 4
  | .padlen => 5
  | .wload => 6
  | .wexp => 7
  | .seed => 8
  | .round => 9
  | .addbk => 10
  | .next => 11
  | .ser => 12
  | .finish => 13

/-- The phase of a code; codes 14 and 15 name none (R72, R78). -/
def decodePhase (code : BitVec 4) : Option Phase :=
  match code.toNat with
  | 0 => some .idle
  | 1 => some .init
  | 2 => some .fetch
  | 3 => some .pad80
  | 4 => some .padz
  | 5 => some .padlen
  | 6 => some .wload
  | 7 => some .wexp
  | 8 => some .seed
  | 9 => some .round
  | 10 => some .addbk
  | 11 => some .next
  | 12 => some .ser
  | 13 => some .finish
  | _ => none

/-- The host register of an index (R73). -/
def hostRegOfIndex (idx : BitVec 3) : HostReg :=
  match (idx.toFin : Fin 8) with
  | 0 => .ctrl
  | 1 => .status
  | 2 => .srcLo
  | 3 => .srcHi
  | 4 => .lenLo
  | 5 => .lenHi
  | 6 => .dstLo
  | 7 => .dstHi

/-- The read of a host register (R91 to R98). -/
def HostReg.readInstr : HostReg → Instr
  | .ctrl => .rdCtrl
  | .status => .rdStatus
  | .srcLo => .rdSrcLo
  | .srcHi => .rdSrcHi
  | .lenLo => .rdLenLo
  | .lenHi => .rdLenHi
  | .dstLo => .rdDstLo
  | .dstHi => .rdDstHi

/-- The write of a host register (R100 to R107). -/
def HostReg.writeInstr (wdata : Word) : HostReg → Instr
  | .ctrl => .wrCtrl wdata
  | .status => .wrStatus wdata
  | .srcLo => .wrSrcLo wdata
  | .srcHi => .wrSrcHi wdata
  | .lenLo => .wrLenLo wdata
  | .lenHi => .wrLenHi wdata
  | .dstLo => .wrDstLo wdata
  | .dstHi => .wrDstHi wdata

/-- The access that the 36 bits of format H select: `we` is bit 35, `idx` bits 34:32, `wdata` bits 31:0 (R71). -/
def decodeAccess (x : BitVec 36) : Instr :=
  let reg := hostRegOfIndex (x.extractLsb' 32 3)
  if x.getLsbD 35 then reg.writeInstr (x.extractLsb' 0 32) else reg.readInstr

/-- One byte: format S (R72). -/
def decodeSequencer (b : Byte) : Decoded :=
  if b.toNat < 16 then
    match decodePhase (b.extractLsb' 0 4) with
    | some p => .instr p.instr
    | none => .refused .reservedPhase
  else .refused .notAPhaseCode

/-- Five bytes, the least significant first: format H (R71). -/
def decodeHost (b0 b1 b2 b3 b4 : Byte) : Decoded :=
  if b4.toNat < 16 then .instr (decodeAccess (b4.extractLsb' 0 4 ++ b3 ++ b2 ++ b1 ++ b0))
  else .refused .notAnAccess

/-- The decoder. The two formats never meet, since their lengths differ (R70). -/
def decode : List Byte → Decoded
  | [b] => decodeSequencer b
  | [b0, b1, b2, b3, b4] => decodeHost b0 b1 b2 b3 b4
  | _ => .refused .badLength

/-! ### The encoder -/

/-- The 36 bits of an access (R71). -/
def accessWord (we : BitVec 1) (idx : BitVec 3) (wdata : Word) : BitVec 36 :=
  we ++ idx ++ wdata

/-- The bytes of the 36 bits of an access, the least significant first (log 13). -/
def accessBytes (x : BitVec 36) : List Byte :=
  [x.extractLsb' 0 8, x.extractLsb' 8 8, x.extractLsb' 16 8, x.extractLsb' 24 8,
    (x.extractLsb' 32 4).setWidth 8]

/-- The byte of a phase code (log 13). -/
def phaseBytes (p : Phase) : List Byte :=
  [p.code.setWidth 8]

/-- The format of a row (R70, R83). -/
def Instr.format : Instr → Format
  | .rdCtrl | .rdStatus | .rdSrcLo | .rdSrcHi | .rdLenLo | .rdLenHi | .rdDstLo | .rdDstHi => .host
  | .wrCtrl _ | .wrStatus _ | .wrSrcLo _ | .wrSrcHi _ | .wrLenLo _ | .wrLenHi _ | .wrDstLo _ | .wrDstHi _ => .host
  | .idle | .init | .fetch | .pad80 | .padz | .padlen | .wload | .wexp => .sequencer
  | .seed | .round | .addbk | .next | .ser | .finish => .sequencer

/-- The bytes of an instruction. A read is written with `wdata = 0` (R81). -/
def encode : Instr → List Byte
  | .rdCtrl => accessBytes (accessWord 0 0 0)
  | .rdStatus => accessBytes (accessWord 0 1 0)
  | .rdSrcLo => accessBytes (accessWord 0 2 0)
  | .rdSrcHi => accessBytes (accessWord 0 3 0)
  | .rdLenLo => accessBytes (accessWord 0 4 0)
  | .rdLenHi => accessBytes (accessWord 0 5 0)
  | .rdDstLo => accessBytes (accessWord 0 6 0)
  | .rdDstHi => accessBytes (accessWord 0 7 0)
  | .wrCtrl d => accessBytes (accessWord 1 0 d)
  | .wrStatus d => accessBytes (accessWord 1 1 d)
  | .wrSrcLo d => accessBytes (accessWord 1 2 d)
  | .wrSrcHi d => accessBytes (accessWord 1 3 d)
  | .wrLenLo d => accessBytes (accessWord 1 4 d)
  | .wrLenHi d => accessBytes (accessWord 1 5 d)
  | .wrDstLo d => accessBytes (accessWord 1 6 d)
  | .wrDstHi d => accessBytes (accessWord 1 7 d)
  | .idle => phaseBytes .idle
  | .init => phaseBytes .init
  | .fetch => phaseBytes .fetch
  | .pad80 => phaseBytes .pad80
  | .padz => phaseBytes .padz
  | .padlen => phaseBytes .padlen
  | .wload => phaseBytes .wload
  | .wexp => phaseBytes .wexp
  | .seed => phaseBytes .seed
  | .round => phaseBytes .round
  | .addbk => phaseBytes .addbk
  | .next => phaseBytes .next
  | .ser => phaseBytes .ser
  | .finish => phaseBytes .finish

/-- The index of a host register (R73). -/
def HostReg.index : HostReg → BitVec 3
  | .ctrl => 0
  | .status => 1
  | .srcLo => 2
  | .srcHi => 3
  | .lenLo => 4
  | .lenHi => 5
  | .dstLo => 6
  | .dstHi => 7

/-- The 36 bits of a line of a host program (R81). -/
def HostLine.word : HostLine → BitVec 36
  | .rd r => accessWord 0 r.index 0
  | .wr r v => accessWord 1 r.index v

/-- The expansion of a pseudo-instruction (R82); `POLL` of `n` reads is `n` times `RD STATUS` (log 21). -/
def Pseudo.expand : Pseudo → List HostLine
  | .setSrc a => [.wr .srcLo (a.extractLsb' 0 32), .wr .srcHi (a.extractLsb' 32 32)]
  | .setLen n => [.wr .lenLo (n.extractLsb' 0 32), .wr .lenHi (n.extractLsb' 32 32)]
  | .setDst a => [.wr .dstLo (a.extractLsb' 0 32), .wr .dstHi (a.extractLsb' 32 32)]
  | .start => [.wr .ctrl 1]
  | .poll n => List.replicate n (.rd .status)
  | .compute s l d n =>
    [.wr .srcLo (s.extractLsb' 0 32), .wr .srcHi (s.extractLsb' 32 32),
      .wr .lenLo (l.extractLsb' 0 32), .wr .lenHi (l.extractLsb' 32 32),
      .wr .dstLo (d.extractLsb' 0 32), .wr .dstHi (d.extractLsb' 32 32), .wr .ctrl 1]
      ++ List.replicate n (.rd .status)

/-- The read that ends a `POLL` is the one whose value has bit 1, `DONE`, set (R82). -/
def pollEnds (value : Word) : Bool :=
  value.getLsbD 1

/-! ### The opcode table -/

/-- A row of spec/opcode_table.json: a word of its format is the row's when it agrees with `pattern` under
`mask` (R83). -/
structure OpcodeRow where
  mnemonic : String
  format : Format
  mask : Nat
  pattern : Nat
  deriving DecidableEq, Repr

/-- The sixteen rows of format H (R83). -/
def hostRows : List OpcodeRow :=
  [⟨"RD_CTRL", .host, 0xF00000000, 0x000000000⟩, ⟨"RD_STATUS", .host, 0xF00000000, 0x100000000⟩,
    ⟨"RD_SRC_LO", .host, 0xF00000000, 0x200000000⟩, ⟨"RD_SRC_HI", .host, 0xF00000000, 0x300000000⟩,
    ⟨"RD_LEN_LO", .host, 0xF00000000, 0x400000000⟩, ⟨"RD_LEN_HI", .host, 0xF00000000, 0x500000000⟩,
    ⟨"RD_DST_LO", .host, 0xF00000000, 0x600000000⟩, ⟨"RD_DST_HI", .host, 0xF00000000, 0x700000000⟩]
  ++ [⟨"WR_CTRL", .host, 0xF00000000, 0x800000000⟩, ⟨"WR_STATUS", .host, 0xF00000000, 0x900000000⟩,
    ⟨"WR_SRC_LO", .host, 0xF00000000, 0xA00000000⟩, ⟨"WR_SRC_HI", .host, 0xF00000000, 0xB00000000⟩,
    ⟨"WR_LEN_LO", .host, 0xF00000000, 0xC00000000⟩, ⟨"WR_LEN_HI", .host, 0xF00000000, 0xD00000000⟩,
    ⟨"WR_DST_LO", .host, 0xF00000000, 0xE00000000⟩, ⟨"WR_DST_HI", .host, 0xF00000000, 0xF00000000⟩]

/-- The fourteen rows of format S (R83). -/
def sequencerRows : List OpcodeRow :=
  [⟨"IDLE", .sequencer, 0xF, 0⟩, ⟨"INIT", .sequencer, 0xF, 1⟩, ⟨"FETCH", .sequencer, 0xF, 2⟩,
    ⟨"PAD80", .sequencer, 0xF, 3⟩, ⟨"PADZ", .sequencer, 0xF, 4⟩, ⟨"PADLEN", .sequencer, 0xF, 5⟩,
    ⟨"WLOAD", .sequencer, 0xF, 6⟩]
  ++ [⟨"WEXP", .sequencer, 0xF, 7⟩, ⟨"SEED", .sequencer, 0xF, 8⟩, ⟨"ROUND", .sequencer, 0xF, 9⟩,
    ⟨"ADDBK", .sequencer, 0xF, 10⟩, ⟨"NEXT", .sequencer, 0xF, 11⟩, ⟨"SER", .sequencer, 0xF, 12⟩,
    ⟨"FINISH", .sequencer, 0xF, 13⟩]

/-- The opcode table, 30 rows (R83). -/
def opcodeRows : List OpcodeRow := hostRows ++ sequencerRows

/-- The mnemonic of an instruction in the opcode table. -/
def Instr.mnemonic : Instr → String
  | .rdCtrl => "RD_CTRL"
  | .rdStatus => "RD_STATUS"
  | .rdSrcLo => "RD_SRC_LO"
  | .rdSrcHi => "RD_SRC_HI"
  | .rdLenLo => "RD_LEN_LO"
  | .rdLenHi => "RD_LEN_HI"
  | .rdDstLo => "RD_DST_LO"
  | .rdDstHi => "RD_DST_HI"
  | .wrCtrl _ => "WR_CTRL"
  | .wrStatus _ => "WR_STATUS"
  | .wrSrcLo _ => "WR_SRC_LO"
  | .wrSrcHi _ => "WR_SRC_HI"
  | .wrLenLo _ => "WR_LEN_LO"
  | .wrLenHi _ => "WR_LEN_HI"
  | .wrDstLo _ => "WR_DST_LO"
  | .wrDstHi _ => "WR_DST_HI"
  | .idle => "IDLE"
  | .init => "INIT"
  | .fetch => "FETCH"
  | .pad80 => "PAD80"
  | .padz => "PADZ"
  | .padlen => "PADLEN"
  | .wload => "WLOAD"
  | .wexp => "WEXP"
  | .seed => "SEED"
  | .round => "ROUND"
  | .addbk => "ADDBK"
  | .next => "NEXT"
  | .ser => "SER"
  | .finish => "FINISH"

/-- A word of a format is a row's. -/
def OpcodeRow.matches (r : OpcodeRow) (f : Format) (w : Nat) : Bool :=
  decide (r.format = f) && decide (w &&& r.mask = r.pattern)

/-- A list of bytes as a number, the least significant byte first. -/
def leValue : List Byte → Nat
  | [] => 0
  | b :: bs => b.toNat + 256 * leValue bs

/-- The low `n` bytes of a number, the least significant first. -/
def leBytes : Nat → Nat → List Byte
  | 0, _ => []
  | n + 1, w => BitVec.ofNat 8 w :: leBytes n (w / 256)

/-- How many bytes hold a table word of `nbits` bits: one for format S (4 bits), five for format H (36 bits). -/
def tableBytes (nbits : Nat) : Nat :=
  if nbits ≤ 8 then 1 else 5

/-- The instruction the decoder reads from a word of the opcode table, whose bit 0 is the least significant
bit of the format (R7, R83). -/
def decodeTableWord (nbits w : Nat) : Option Instr :=
  if w < 256 ^ tableBytes nbits then
    match decode (leBytes (tableBytes nbits) w) with
    | .instr i => some i
    | .refused _ => none
  else none

end Sys2Proof
end

