-- ==== Sys2Proof/Machine/Fetch.lean ====
section
/-! DEFINITION. What a step takes up next (R13, R31, R120): the head of the agenda, or the sequencer's own move when the
agenda is empty (log 1, log 2). Nothing is fetched from memory (R69). -/

namespace Sys2Proof.Machine

/-- The state with the head of the agenda taken off. -/
def State.turned (s : State) : State := { s with agenda := s.agenda.tail }

/-- The bytes of the instruction that the next step runs, in the state it runs them in, or nothing where the next
step runs no instruction (a reset or another master's store). An access is its 36 bits (R71); the sequencer's turn is
the code of `phase` (R72). -/
def State.fetchBytes (s : State) : Option (List Byte) :=
  match s.agenda with
  | [] => some (phaseBytes s.phase)
  | .sequencer :: _ => some (phaseBytes s.phase)
  | .access x :: _ => some (accessBytes x)
  | .reset :: _ => none
  | .store _ _ :: _ => none

/-- What the environment does where the next step runs no instruction: reset (R250) or another master's store. -/
def State.environmentMove (s : State) : Host.Outcome State Fault Refusal :=
  match s.agenda with
  | .reset :: _ => .next s.turned.resetEvent
  | .store a v :: _ => s.turned.masterStore a v
  | .access _ :: _ => .next s
  | .sequencer :: _ => .next s
  | [] => .next s

/-- The phase whose micro-operation an instruction is; a host access is none. -/
def phaseOfInstr : Instr → Option Phase
  | .rdCtrl | .rdStatus | .rdSrcLo | .rdSrcHi | .rdLenLo | .rdLenHi | .rdDstLo | .rdDstHi => none
  | .wrCtrl _ | .wrStatus _ | .wrSrcLo _ | .wrSrcHi _ | .wrLenLo _ | .wrLenHi _ | .wrDstLo _ | .wrDstHi _ => none
  | .idle => some .idle
  | .init => some .init
  | .fetch => some .fetch
  | .pad80 => some .pad80
  | .padz => some .padz
  | .padlen => some .padlen
  | .wload => some .wload
  | .wexp => some .wexp
  | .seed => some .seed
  | .round => some .round
  | .addbk => some .addbk
  | .next => some .next
  | .ser => some .ser
  | .finish => some .finish

/-- A table word placed where `step` takes up its next instruction (log 14). A phase code goes into `phase` and the
sequencer's turn comes first; an access is the first event. A word that is no phase code changes nothing, since
`phase` has no value for it (R78). -/
def State.placeTableWord (s : State) (nbits word : Nat) : State :=
  if nbits ≤ 8 then
    match (decodeTableWord nbits word).bind phaseOfInstr with
    | some p => { s with phase := p, agenda := .sequencer :: s.agenda }
    | none => s
  else { s with agenda := .access (BitVec.ofNat 36 word) :: s.agenda }

end Sys2Proof.Machine
end

