-- ==== Sys2Proof/Machine/Step.lean ====
section
/-! DEFINITION. One step of the machine: one atomic move of one agent (R13). -/

namespace Sys2Proof.Machine

/-- One step (R13). Where the next move is an instruction, its bytes are decoded and it runs; otherwise the
environment moves. -/
def step (s : State) : Host.Outcome State Fault Refusal :=
  match s.fetchBytes with
  | some bytes =>
    match decode bytes with
    | .instr i => exec i s.turned
    | .refused _ => .refused .undecodable
  | none => s.environmentMove

/-- The state with the instruction of a table word placed where `step` takes up its next one (log 14). -/
def State.withFetchWord (s : State) (nbits w : Nat) : State :=
  s.placeTableWord nbits w

end Sys2Proof.Machine
end

