-- ==== Sys2Proof/Machine/Reference.lean ====
section
/-! DEFINITION. The reference functions, which say what a computation computes without the sequencer
(R109, R127, R154, R178, R202). No step calls them. -/

namespace Sys2Proof.Machine

/-- A 64-byte chunk. -/
abbrev Chunk := Vector Byte 64

/-- `Z(n)`: `n` bytes 0 (R127). -/
def zeros (n : Nat) : List Byte := List.replicate n 0

/-- `BE64(x)`: the 8 bytes of a 64-bit value, most significant first (R127). -/
def be64 (x : Dword) : List Byte := (List.range 8).map (byteOfDword x)

/-- `q` full chunks of a message, in order (R127). -/
def fullChunks (m : List Byte) (q : Nat) : List (List Byte) :=
  (List.range q).map fun k => (m.drop (64 * k)).take 64

/-- The final one or two chunks: the trailing bytes `tail`, fewer than 64, of a message of `len` bytes, padded (R127). R127
speaks of `len ≤ 2^61 - 1` only; for a longer message the length field is `8 * len` modulo `2^64` (DESIGN CHOICE, log 24). -/
def lastChunks (tail : List Byte) (len : Nat) : List (List Byte) :=
  if tail.length < 56 then
    [tail ++ [0x80] ++ zeros (55 - tail.length) ++ be64 (BitVec.ofNat 64 (8 * len))]
  else
    [tail ++ [0x80] ++ zeros (63 - tail.length), zeros 56 ++ be64 (BitVec.ofNat 64 (8 * len))]

/-- `pad(M)` (R127): the full chunks, then the padded ones. Beyond `2^61 - 1` bytes it is the model's (DESIGN CHOICE,
log 24). -/
def pad (m : List Byte) : List (List Byte) :=
  let q := m.length / 64
  fullChunks m q ++ lastChunks (m.drop (64 * q)) m.length

/-- A list of 64 bytes as a chunk. A list of another length, which no chunk of `pad` is, is cut or filled up with zeros
(DESIGN CHOICE, log 24). -/
def chunkOfList (l : List Byte) : Chunk := Vector.ofFn fun j => l.getD j.val 0

/-- `w[0..15]` of a chunk, newest first (R154). -/
def firstWords (c : Chunk) : List Word :=
  ((List.range 16).map fun i =>
    wordOfBytes (c.toList.getD (4 * i) 0) (c.toList.getD (4 * i + 1) 0) (c.toList.getD (4 * i + 2) 0)
      (c.toList.getD (4 * i + 3) 0)).reverse

/-- `n` more schedule words in front of the words so far, newest first: the word `w[i]` takes `w[i-16]`, `w[i-15]`,
`w[i-7]` and `w[i-2]` (R154). It reads the sixteen newest words only (R155). -/
def moreWords (ws : List Word) : Nat → List Word
  | 0 => ws
  | n + 1 =>
    let l := moreWords ws n
    scheduleWord (l.getD 15 0) (l.getD 14 0) (l.getD 6 0) (l.getD 1 0) :: l

/-- `schedule(C)`: the 64 words of a chunk, in order (R154). -/
def schedule (c : Chunk) : List Word := (moreWords (firstWords c) 48).reverse

/-- The working variables after the first `n` rounds (R178). -/
def roundsOf (v : Work) (ws : List Word) : Nat → Work
  | 0 => v
  | n + 1 => roundWork (roundsOf v ws n) (kTable.getD n 0) (ws.getD n 0)

/-- `compress(X, C)` (R178). -/
def compress (x : Vector Word 8) (c : Chunk) : Vector Word 8 :=
  addWork x (roundsOf (workOfHash x) (schedule c) 64)

/-- `serialize(X)`: 32 bytes, each word big-endian, words in order (R202). -/
def serialize (x : Vector Word 8) : List Byte :=
  x.toList.flatMap fun w => (List.range 4).map (byteOfWord w)

/-- The hash state after the chunks of a message (R109). -/
def hashChunks (x : Vector Word 8) (chunks : List (List Byte)) : Vector Word 8 :=
  chunks.foldl (fun y c => compress y (chunkOfList c)) x

/-- `sha256(M)` (R109), which speaks of at most `2^61 - 1` bytes; beyond, it is the model's (DESIGN CHOICE, log 24). -/
def sha256 (m : List Byte) : List Byte :=
  serialize (hashChunks ivTable (pad m))

end Sys2Proof.Machine
end

