-- ==== Sys2Proof/Safety.lean ====
section
/-! DEFINITION. What counts as a good run, in the terms the statements use: runs of steps, the valid domain of a command
(R108, R259), the invariants of the machine, and what a host can see (R15, R43). -/

namespace Sys2Proof.Machine

/-! ### Runs -/

/-- `n` steps, stopping at the first fault or refusal. -/
def runSteps : Nat → State → Host.Outcome State Fault Refusal
  | 0, s => .next s
  | n + 1, s =>
    match step s with
    | .next t => runSteps n t
    | .fault r => .fault r
    | .refused r => .refused r

/-- The number of sequencer steps of a computation of `len` bytes (R129, R262). -/
def stepCount (len : Nat) : Nat := len + len / 64 + 131 * ((len + 8) / 64 + 1) + 38

/-! ### The valid domain -/

/-- `S`, the address of the first message byte (R108), as the spec writes it. -/
def srcAddr (s : State) : Nat := s.src.toNat % 2 ^ s.platform.aw

/-- `D`, the address of the first digest byte (R108). -/
def dstAddr (s : State) : Nat := s.dst.toNat % 2 ^ s.platform.aw

/-- The part of the valid domain that is about the operands (R259): length, no wrap, no overlap. -/
structure ValidOperands (s : State) : Prop where
  length : s.len.toNat ≤ 2 ^ 61 - 1
  messageFits : srcAddr s + s.len.toNat ≤ 2 ^ s.platform.aw
  digestFits : dstAddr s + 32 ≤ 2 ^ s.platform.aw
  disjoint : s.len.toNat = 0 ∨ srcAddr s + s.len.toNat ≤ dstAddr s ∨ dstAddr s + 32 ≤ srcAddr s

/-- A command in the valid domain (R108, R259): `Mem` admits every read and every write as well. `AW` is 1 to 64 (R6). -/
structure ValidCommand (s : State) : Prop where
  platform : s.platform.wellFormed = true
  operands : ValidOperands s
  readsAdmitted : ∀ n, n < s.len.toNat → (s.readByte (srcAddr s + n)).isSome = true
  writesAdmitted : ∀ j, j < 32 → writable s.platform (dstAddr s + j) = true

/-- `M`, the message a START would hash: the bytes `Mem[S .. S + L - 1]` (R108). A byte whose read `Mem` does not admit, which
no valid command has, stands as 0 (DESIGN CHOICE, log 24). -/
def message (s : State) : List Byte :=
  (List.range s.len.toNat).map fun n => (s.readByte (srcAddr s + n)).getD 0

/-! ### Invariants -/

/-- The memory keeps its canonical form, inside the address space (R50). -/
structure MemoryInv (s : State) : Prop where
  canonical : s.mem.wf
  inSpace : ∀ c ∈ s.mem, c.1 < 2 ^ s.platform.aw

/-- The control state: the flags and counters at every phase (R24 to R27, R30 to R35, R45, R120 to R126). -/
structure PhaseInv (s : State) : Prop where
  busy_iff : s.busy = true ↔ s.phase ≠ .idle
  not_busy_and_done : s.busy = true → s.done = false
  fill_le : s.fill.toNat ≤ 64
  t_le : s.t.toNat ≤ 64
  sidx_le : s.sidx.toNat ≤ 32
  ptr_lt : s.ptr.toNat < 2 ^ s.platform.aw
  dptr_lt : s.dptr.toNat < 2 ^ s.platform.aw
  at_fetch : s.phase = .fetch → s.padded = false ∧ s.final = false
  at_pad80 : s.phase = .pad80 → s.fill.toNat ≤ 63 ∧ s.padded = false ∧ s.final = false
  at_padz : s.phase = .padz → 1 ≤ s.fill.toNat ∧ s.padded = true ∧ s.final = false
  at_padlen : s.phase = .padlen → s.fill.toNat = 56 ∧ s.padded = true ∧ s.final = false
  at_wload : s.phase = .wload → s.t.toNat ≤ 15 ∧ s.fill.toNat = 64
  at_wexp : s.phase = .wexp → 16 ≤ s.t.toNat ∧ s.t.toNat ≤ 63
  at_round : s.phase = .round → s.t.toNat ≤ 63
  at_ser : s.phase = .ser → s.sidx.toNat ≤ 31 ∧ s.final = true
  at_finish : s.phase = .finish → s.sidx.toNat = 32 ∧ s.final = true
  final_padded : s.phase ≠ .idle → s.phase ≠ .init → s.final = true → s.padded = true

/-- The phases of one compression, from the first schedule word to the choice of what follows (R120). -/
def compressing : Phase → Bool
  | .wload | .wexp | .seed | .round | .addbk | .next => true
  | .idle | .init | .fetch | .pad80 | .padz | .padlen | .ser | .finish => false

/-- The running copies of the command while a computation is in progress (R27 to R30, R99, R122):
`L` is the length, `L - rem` the number of message bytes read so far. `AW` is 1 to 64 (R6). -/
structure CommandInv (s : State) : Prop where
  platform : s.platform.wellFormed = true
  operands : s.busy = true → ValidOperands s
  total_eq : s.busy = true → s.total = s.len
  dptr_eq : s.busy = true → s.dptr.toNat = dstAddr s
  rem_le : s.busy = true → s.rem.toNat ≤ s.len.toNat
  ptr_eq : s.busy = true → s.ptr.toNat = (srcAddr s + (s.len.toNat - s.rem.toNat)) % 2 ^ s.platform.aw
  at_init : s.busy = true → s.phase = .init → s.rem = s.len
  at_fetch : s.busy = true → s.phase = .fetch →
    s.fill.toNat ≤ s.len.toNat - s.rem.toNat ∧ (s.len.toNat - s.rem.toNat - s.fill.toNat) % 64 = 0
  at_pad80 : s.busy = true → s.phase = .pad80 → s.rem = 0 ∧ s.fill.toNat = s.len.toNat % 64
  at_padz : s.busy = true → s.phase = .padz → s.fill.toNat = s.len.toNat % 64 + 1
  full_chunks : s.busy = true → compressing s.phase = true → s.padded = false →
    (s.len.toNat - s.rem.toNat) % 64 = 0
  all_read : s.busy = true → s.phase ≠ .init → s.padded = true → s.rem = 0

/-! ### What is visible -/

/-- Two states that differ at most in hidden registers (R43, R44), in the same phase. -/
def SameButHidden (s t : State) : Prop :=
  t = { s with
    hash := t.hash, work := t.work, w := t.w, buf := t.buf, fill := t.fill, t := t.t, sidx := t.sidx,
    ptr := t.ptr, rem := t.rem, total := t.total, dptr := t.dptr, padded := t.padded, final := t.final }

/-- The accesses to `Mem` among the observations (R58). -/
def memoryAccesses (trace : List Observation) : List Observation :=
  trace.filter fun o =>
    match o with
    | .hostRead _ _ => false
    | .memRead _ _ => true
    | .memWrite _ _ => true

/-- A move of the sequencer or a host read: a host access whose `we` is 0 (R71). -/
def Event.readOrTurn : Event → Bool
  | .access x => !x.getLsbD 35
  | .sequencer => true
  | .reset => false
  | .store _ _ => false

/-- The sequencer's turns in a list of events. -/
def turnsIn (es : List Event) : Nat := (es.filter fun e => decide (e = .sequencer)).length

/-- The host writes of format H (R99). -/
def isHostWrite : Instr → Bool
  | .wrCtrl _ | .wrStatus _ | .wrSrcLo _ | .wrSrcHi _ | .wrLenLo _ | .wrLenHi _ | .wrDstLo _ | .wrDstHi _ => true
  | .rdCtrl | .rdStatus | .rdSrcLo | .rdSrcHi | .rdLenLo | .rdLenHi | .rdDstLo | .rdDstHi => false
  | .idle | .init | .fetch | .pad80 | .padz | .padlen | .wload | .wexp => false
  | .seed | .round | .addbk | .next | .ser | .finish => false

/-- The next step is the sequencer's turn (log 1, log 2). -/
def State.sequencerTurn (s : State) : Prop :=
  s.agenda = [] ∨ ∃ es, s.agenda = .sequencer :: es

/-- The next step is an accepted START (R100). -/
def State.startComing (s : State) : Prop :=
  s.busy = false ∧ ∃ x es d, s.agenda = .access x :: es ∧ decodeAccess x = .wrCtrl d ∧ d.getLsbD 0 = true

/-! ### The tables as numbers (R42, R170) -/

/-- The first 64 primes, from which the spec recomputed both tables (R42, R170). -/
def firstPrimes : List Nat :=
  [2, 3, 5, 7, 11, 13, 17, 19, 23, 29, 31, 37, 41, 43, 47, 53]
  ++ [59, 61, 67, 71, 73, 79, 83, 89, 97, 101, 103, 107, 109, 113, 127, 131]
  ++ [137, 139, 149, 151, 157, 163, 167, 173, 179, 181, 191, 193, 197, 199, 211, 223]
  ++ [227, 229, 233, 239, 241, 251, 257, 263, 269, 271, 277, 281, 283, 293, 307, 311]

end Sys2Proof.Machine
end

