-- ==== Sys2Proof/Certificates/Slice0/Obligations.lean ====
section
/-! DEFINITION. The statements for the provers. Each docstring names the rules of spec/ it formalises. -/

open Sys2Proof Sys2Proof.Machine

/-! ### Encodings -/

/-- R70 to R73, R81: decoding the encoding of an instruction gives it back, with every operand. -/
def Obligations.DecodeOfEncodeIsIdentity : Prop :=
  ∀ i : Instr, i.wellFormed = true → decode (encode i) = .instr i

/-- R71, R73, R83: every 36-bit access is a defined one. A read ignores `wdata`, a write carries it whole, and no word
with a bit above bit 35 is an access. -/
def Obligations.EveryAccessDecodesByWeAndIdx : Prop :=
  (∀ d, d < 2 ^ 32 →
    decodeTableWord 36 (0x000000000 + d) = some .rdCtrl ∧
    decodeTableWord 36 (0x100000000 + d) = some .rdStatus ∧
    decodeTableWord 36 (0x200000000 + d) = some .rdSrcLo ∧
    decodeTableWord 36 (0x300000000 + d) = some .rdSrcHi ∧
    decodeTableWord 36 (0x400000000 + d) = some .rdLenLo ∧
    decodeTableWord 36 (0x500000000 + d) = some .rdLenHi ∧
    decodeTableWord 36 (0x600000000 + d) = some .rdDstLo ∧
    decodeTableWord 36 (0x700000000 + d) = some .rdDstHi ∧
    decodeTableWord 36 (0x800000000 + d) = some (.wrCtrl (BitVec.ofNat 32 d)) ∧
    decodeTableWord 36 (0x900000000 + d) = some (.wrStatus (BitVec.ofNat 32 d)) ∧
    decodeTableWord 36 (0xA00000000 + d) = some (.wrSrcLo (BitVec.ofNat 32 d)) ∧
    decodeTableWord 36 (0xB00000000 + d) = some (.wrSrcHi (BitVec.ofNat 32 d)) ∧
    decodeTableWord 36 (0xC00000000 + d) = some (.wrLenLo (BitVec.ofNat 32 d)) ∧
    decodeTableWord 36 (0xD00000000 + d) = some (.wrLenHi (BitVec.ofNat 32 d)) ∧
    decodeTableWord 36 (0xE00000000 + d) = some (.wrDstLo (BitVec.ofNat 32 d)) ∧
    decodeTableWord 36 (0xF00000000 + d) = some (.wrDstHi (BitVec.ofNat 32 d))) ∧
  ∀ w, 2 ^ 36 ≤ w → decodeTableWord 36 w = none

/-- R72, R78: the fourteen phase codes, and no other word of format S. -/
def Obligations.PhaseCodesDecode : Prop :=
  (List.range 16).map (decodeTableWord 4) =
    [some .idle, some .init, some .fetch, some .pad80, some .padz, some .padlen, some .wload, some .wexp, some .seed,
      some .round, some .addbk, some .next, some .ser, some .finish, none, none] ∧
  ∀ w, 16 ≤ w → decodeTableWord 4 w = none

/-- R83: the word of every instruction is of its own row of the opcode table and of no other row of its format. -/
def Obligations.EveryWordHasExactlyItsRow : Prop :=
  opcodeRows.length = 30 ∧ hostRows.length = 16 ∧ sequencerRows.length = 14 ∧
  (∀ n, n < 16 → ∃ r, hostRows[n]? = some r ∧ r.mask = 0xF00000000 ∧ r.pattern = n * 2 ^ 32) ∧
  (∀ n, n < 14 → ∃ r, sequencerRows[n]? = some r ∧ r.mask = 0xF ∧ r.pattern = n) ∧
  ∀ i : Instr, ∃ r, r.mnemonic = i.mnemonic ∧
    opcodeRows.filter (fun q => q.matches i.format (leValue (encode i))) = [r]

/-- A sanity statement about a few words that R81 and 95_test_vectors.md 2.2 print, and about codes of R72. That they stand
as bytes with the least significant first is the model's choice (log 13). -/
def Obligations.WordsOfTheSpecDecode : Prop :=
  decode [0x03, 0x00, 0x00, 0x00, 0x0C] = .instr (.wrLenLo 3) ∧
  decode [0x00, 0x00, 0x00, 0x00, 0x01] = .instr .rdStatus ∧
  decode [0xFF, 0xFF, 0xFF, 0xFF, 0x08] = .instr (.wrCtrl 0xFFFFFFFF) ∧
  decode [0xEF, 0xBE, 0xAD, 0xDE, 0x0A] = .instr (.wrSrcLo 0xDEADBEEF) ∧
  decode [0x00, 0x00, 0x00, 0x80, 0x0F] = .instr (.wrDstHi 0x80000000) ∧
  decode [0x02] = .instr .fetch ∧
  decode [0x07] = .instr .wexp ∧
  decode [0x0C] = .instr .ser ∧
  decode [0x0E] = .refused .reservedPhase

/-! ### Arithmetic -/

/-- R10, R11: rotation moves bit `i + n` to bit `i`, modulo 32, and a shift brings zeros in at the top. -/
def Obligations.RotateAndShiftBitByBit : Prop :=
  ∀ (x : Word) (n i : Nat), 0 < n → n < 32 → i < 32 →
    (rotr x n).getLsbD i = x.getLsbD ((i + n) % 32) ∧
    (shr x n).toNat = x.toNat / 2 ^ n

/-- R150, R151: the two functions of the message schedule, bit by bit; the third term is a shift. -/
def Obligations.ScheduleSigmasBitByBit : Prop :=
  (∀ (x : Word) (i : Nat), i < 32 →
    (ssig0 x).getLsbD i =
      ((x.getLsbD ((i + 7) % 32) ^^ x.getLsbD ((i + 18) % 32)) ^^ (decide (i < 29) && x.getLsbD (i + 3))) ∧
    (ssig1 x).getLsbD i =
      ((x.getLsbD ((i + 17) % 32) ^^ x.getLsbD ((i + 19) % 32)) ^^ (decide (i < 22) && x.getLsbD (i + 10)))) ∧
  ssig0 0x00000000 = 0x00000000 ∧ ssig0 0x00000001 = 0x02004000 ∧
  ssig0 0x80000000 = 0x11002000 ∧ ssig0 0xffffffff = 0x1fffffff ∧
  ssig1 0x00000000 = 0x00000000 ∧ ssig1 0x00000001 = 0x0000a000 ∧
  ssig1 0x80000000 = 0x00205000 ∧ ssig1 0xffffffff = 0x003fffff

/-- R171, R172: the two functions of a round, bit by bit; all terms are rotations. -/
def Obligations.RoundSigmasBitByBit : Prop :=
  (∀ (x : Word) (i : Nat), i < 32 →
    (bsig0 x).getLsbD i =
      ((x.getLsbD ((i + 2) % 32) ^^ x.getLsbD ((i + 13) % 32)) ^^ x.getLsbD ((i + 22) % 32)) ∧
    (bsig1 x).getLsbD i =
      ((x.getLsbD ((i + 6) % 32) ^^ x.getLsbD ((i + 11) % 32)) ^^ x.getLsbD ((i + 25) % 32))) ∧
  bsig0 0 = 0 ∧ bsig0 0x00000001 = 0x40080400 ∧ bsig0 0xffffffff = 0xffffffff ∧ bsig0 0x6a09e667 = 0xce20b47e ∧
  bsig1 0 = 0 ∧ bsig1 0x00000001 = 0x04200080 ∧ bsig1 0xffffffff = 0xffffffff ∧ bsig1 0x510e527f = 0x3587272b

/-- R173, R174: choice and majority, bit by bit, with the values the rules print. -/
def Obligations.ChoiceAndMajorityBitByBit : Prop :=
  (∀ (x y z : Word) (i : Nat), i < 32 →
    (ch x y z).getLsbD i = (if x.getLsbD i then y.getLsbD i else z.getLsbD i) ∧
    ((maj x y z).getLsbD i = true ↔
      2 ≤ (x.getLsbD i).toNat + (y.getLsbD i).toNat + (z.getLsbD i).toNat)) ∧
  (∀ y z : Word, ch 0x00000000 y z = z ∧ ch 0xffffffff y z = y) ∧
  ch 0xf0f0f0f0 0xaaaaaaaa 0x55555555 = 0xa5a5a5a5 ∧ ch 0x510e527f 0x9b05688c 0x1f83d9ab = 0x1f85c98c ∧
  (∀ y z : Word, maj 0 y z = y &&& z ∧ maj 0xffffffff y z = y ||| z ∧ maj y y z = y) ∧
  maj 0x6a09e667 0xbb67ae85 0x3c6ef372 = 0x3a6fe667

/-- R42, R170: every `K[t]` is the first 32 bits of the fractional part of the cube root of the `t`-th prime, and every
`IV[i]` those of the square root of the `i`-th. `r` is the root times `2^32`, rounded down. -/
def Obligations.TablesAreFractionsOfRootsOfPrimes : Prop :=
  kTable.length = 64 ∧ firstPrimes.length = 64 ∧ firstPrimes.Pairwise (· < ·) ∧
  (∀ p ∈ firstPrimes, Nat.Prime p) ∧ (∀ p, p < 312 → Nat.Prime p → p ∈ firstPrimes) ∧
  (∀ t, t < 64 → ∃ r : Nat, r ^ 3 ≤ firstPrimes.getD t 0 * 2 ^ 96 ∧ firstPrimes.getD t 0 * 2 ^ 96 < (r + 1) ^ 3 ∧
    (kTable.getD t 0).toNat = r % 2 ^ 32) ∧
  ∀ i : Fin 8, ∃ r : Nat, r ^ 2 ≤ firstPrimes.getD i.val 0 * 2 ^ 64 ∧ firstPrimes.getD i.val 0 * 2 ^ 64 < (r + 1) ^ 2 ∧
    ivTable[i].toNat = r % 2 ^ 32

/-! ### Host accesses -/

/-- R91 to R98: what each read returns, busy or idle, whatever its `wdata`; only the port has shown it, and no state of
the block changes. -/
def Obligations.ReadsReturnAndChangeNothing : Prop :=
  (∀ d : Word,
    decode (accessBytes (0x0#4 ++ d)) = .instr .rdCtrl ∧ decode (accessBytes (0x1#4 ++ d)) = .instr .rdStatus ∧
    decode (accessBytes (0x2#4 ++ d)) = .instr .rdSrcLo ∧ decode (accessBytes (0x3#4 ++ d)) = .instr .rdSrcHi ∧
    decode (accessBytes (0x4#4 ++ d)) = .instr .rdLenLo ∧ decode (accessBytes (0x5#4 ++ d)) = .instr .rdLenHi ∧
    decode (accessBytes (0x6#4 ++ d)) = .instr .rdDstLo ∧ decode (accessBytes (0x7#4 ++ d)) = .instr .rdDstHi) ∧
  ∀ s : State,
    exec .rdCtrl s = .next { s with trace := .hostRead 0 0x00000000 :: s.trace } ∧
    (∃ v : Word, v.toNat = 2 * s.done.toNat + s.busy.toNat ∧
      exec .rdStatus s = .next { s with trace := .hostRead 1 v :: s.trace }) ∧
    (∃ v : Word, v.toNat = s.src.toNat % 2 ^ 32 ∧
      exec .rdSrcLo s = .next { s with trace := .hostRead 2 v :: s.trace }) ∧
    (∃ v : Word, v.toNat = s.src.toNat / 2 ^ 32 ∧
      exec .rdSrcHi s = .next { s with trace := .hostRead 3 v :: s.trace }) ∧
    (∃ v : Word, v.toNat = s.len.toNat % 2 ^ 32 ∧
      exec .rdLenLo s = .next { s with trace := .hostRead 4 v :: s.trace }) ∧
    (∃ v : Word, v.toNat = s.len.toNat / 2 ^ 32 ∧
      exec .rdLenHi s = .next { s with trace := .hostRead 5 v :: s.trace }) ∧
    (∃ v : Word, v.toNat = s.dst.toNat % 2 ^ 32 ∧
      exec .rdDstLo s = .next { s with trace := .hostRead 6 v :: s.trace }) ∧
    (∃ v : Word, v.toNat = s.dst.toNat / 2 ^ 32 ∧
      exec .rdDstHi s = .next { s with trace := .hostRead 7 v :: s.trace })

/-- R102 to R107: with `BUSY = 0` each operand write sets its half, leaves the other half and everything else; with
`BUSY = 1` it changes nothing. -/
def Obligations.OperandWritesSetTheirHalf : Prop :=
  (∀ d : Word,
    decode (accessBytes (0xA#4 ++ d)) = .instr (.wrSrcLo d) ∧ decode (accessBytes (0xB#4 ++ d)) = .instr (.wrSrcHi d) ∧
    decode (accessBytes (0xC#4 ++ d)) = .instr (.wrLenLo d) ∧ decode (accessBytes (0xD#4 ++ d)) = .instr (.wrLenHi d) ∧
    decode (accessBytes (0xE#4 ++ d)) = .instr (.wrDstLo d) ∧ decode (accessBytes (0xF#4 ++ d)) = .instr (.wrDstHi d)) ∧
  (∀ (s : State) (d : Word), s.busy = false →
    (∃ x : Dword, x.toNat % 2 ^ 32 = d.toNat ∧ x.toNat / 2 ^ 32 = s.src.toNat / 2 ^ 32 ∧
      exec (.wrSrcLo d) s = .next { s with src := x }) ∧
    (∃ x : Dword, x.toNat / 2 ^ 32 = d.toNat ∧ x.toNat % 2 ^ 32 = s.src.toNat % 2 ^ 32 ∧
      exec (.wrSrcHi d) s = .next { s with src := x }) ∧
    (∃ x : Dword, x.toNat % 2 ^ 32 = d.toNat ∧ x.toNat / 2 ^ 32 = s.len.toNat / 2 ^ 32 ∧
      exec (.wrLenLo d) s = .next { s with len := x }) ∧
    (∃ x : Dword, x.toNat / 2 ^ 32 = d.toNat ∧ x.toNat % 2 ^ 32 = s.len.toNat % 2 ^ 32 ∧
      exec (.wrLenHi d) s = .next { s with len := x }) ∧
    (∃ x : Dword, x.toNat % 2 ^ 32 = d.toNat ∧ x.toNat / 2 ^ 32 = s.dst.toNat / 2 ^ 32 ∧
      exec (.wrDstLo d) s = .next { s with dst := x }) ∧
    (∃ x : Dword, x.toNat / 2 ^ 32 = d.toNat ∧ x.toNat % 2 ^ 32 = s.dst.toNat % 2 ^ 32 ∧
      exec (.wrDstHi d) s = .next { s with dst := x })) ∧
  ∀ (s : State) (d : Word), s.busy = true →
    exec (.wrSrcLo d) s = .next s ∧ exec (.wrSrcHi d) s = .next s ∧ exec (.wrLenLo d) s = .next s ∧
    exec (.wrLenHi d) s = .next s ∧ exec (.wrDstLo d) s = .next s ∧ exec (.wrDstHi d) s = .next s

/-- R99: while busy every host write changes nothing and is not remembered, no host access touches the computation,
and only FINISH or reset ends it. -/
def Obligations.WritesWhileBusyAreLost : Prop :=
  (∀ (s : State) (i : Instr), s.busy = true → isHostWrite i = true → exec i s = .next s) ∧
  (∀ (s : State) (x : BitVec 36) (es : List Event), s.busy = true → s.agenda = .access x :: es →
    ∃ trace, step s = .next { s with agenda := es, trace := trace }) ∧
  ∀ s t : State, s.busy = true → step s = .next t → t.busy = false →
    (∃ es, s.agenda = .reset :: es) ∨ (s.sequencerTurn ∧ s.phase = .finish)

/-- R101: a write to `STATUS` changes nothing, busy or idle; `DONE` is not cleared by it. -/
def Obligations.StatusIsReadOnly : Prop :=
  ∀ (s : State) (d : Word), decode (accessBytes (0x9#4 ++ d)) = .instr (.wrStatus d) ∧
    exec (.wrStatus d) s = .next s

/-- R100: START. With `BUSY = 0` and bit 0 set it is accepted in the valid domain and refused outside it (R221); with
`BUSY = 1` or bit 0 clear nothing changes; bits 31:1 are ignored. -/
def Obligations.WriteToCtrlStarts : Prop :=
  (∀ d : Word, decode (accessBytes (0x8#4 ++ d)) = .instr (.wrCtrl d)) ∧
  (∀ (s : State) (d : Word), s.busy = false → d.toNat % 2 = 1 → ValidOperands s →
    ∃ p q : Dword, p.toNat = s.src.toNat % 2 ^ s.platform.aw ∧ q.toNat = s.dst.toNat % 2 ^ s.platform.aw ∧
      exec (.wrCtrl d) s =
        .next { s with ptr := p, rem := s.len, total := s.len, dptr := q, busy := true, done := false, phase := .init }) ∧
  (∀ (s : State) (d : Word), s.busy = false → d.toNat % 2 = 1 → ¬ ValidOperands s →
    ∃ r, exec (.wrCtrl d) s = .refused r) ∧
  ∀ (s : State) (d : Word), s.busy = true ∨ d.toNat % 2 = 0 → exec (.wrCtrl d) s = .next s

/-- R221 V1, V4, V5 (and R60, R62): the name a START outside the valid domain is refused under says what is wrong.
Which name is given first is the model's choice (log 10). -/
def Obligations.StartRefusalNamesTheViolation : Prop :=
  ∀ (s : State) (d : Word) (r : Refusal), exec (.wrCtrl d) s = .refused r →
    (s.busy = false ∧ d.toNat % 2 = 1) ∧
    ((r = .startLengthTooLarge ∧ 2 ^ 61 ≤ s.len.toNat) ∨
      (r = .startMessageWraps ∧ 2 ^ s.platform.aw < srcAddr s + s.len.toNat) ∨
      (r = .startDigestWraps ∧ 2 ^ s.platform.aw < dstAddr s + 32) ∨
      (r = .startRangesOverlap ∧ ∃ a, srcAddr s ≤ a ∧ a < srcAddr s + s.len.toNat ∧ dstAddr s ≤ a ∧ a < dstAddr s + 32))

/-- R43: no host access reads or writes a hidden register, but for the copies START makes. What a host access shows
depends on the flags and the operands only. -/
def Obligations.HostCannotReachHiddenState : Prop :=
  (∀ (s t : State) (i : Instr), i.format = .host → exec i s = .next t →
    t.hash = s.hash ∧ t.work = s.work ∧ t.w = s.w ∧ t.buf = s.buf ∧ t.fill = s.fill ∧ t.t = s.t ∧ t.sidx = s.sidx ∧
      t.padded = s.padded ∧ t.final = s.final ∧ t.mem = s.mem) ∧
  ∀ (s1 s2 t1 : State) (i : Instr), i.format = .host → SameButHidden s1 s2 → exec i s1 = .next t1 →
    ∃ t2, exec i s2 = .next t2 ∧ SameButHidden t1 t2

/-- R74, R81, R82: `SETSRC`, `SETLEN` and `SETDST` on an idle block leave the three operands in their registers, in
either order of the halves, and nothing else changes. -/
def Obligations.SetOperandsProgramSetsOperands : Prop :=
  ∀ (s : State) (a n d : Dword), s.busy = false →
    (s.agenda = ((Pseudo.setSrc a).expand ++ (Pseudo.setLen n).expand ++ (Pseudo.setDst d).expand).map
        (fun l => Event.access l.word) →
      runSteps 6 s = .next { s with src := a, len := n, dst := d, agenda := [] }) ∧
    (s.agenda = ((Pseudo.setSrc a).expand.reverse ++ (Pseudo.setLen n).expand.reverse
        ++ (Pseudo.setDst d).expand.reverse).map (fun l => Event.access l.word) →
      runSteps 6 s = .next { s with src := a, len := n, dst := d, agenda := [] })

/-! ### Micro-operations -/

/-- R120, R228: in `IDLE` the sequencer has no step: its turn changes nothing (the model's reading of "no step", log 3), and
with nothing else to come the block stays as it is, however long. -/
def Obligations.IdleStaysIdle : Prop :=
  ∀ s : State, exec .idle s = .next s ∧ (s.phase = .idle → s.agenda = [] → ∀ n, runSteps n s = .next s)

/-- R121: INIT loads the initialisation vector and clears `fill`, `padded`, `final`. -/
def Obligations.InitLoadsTheVector : Prop :=
  ∀ s : State, ∃ h : Vector Word 8, exec .init s =
      .next { s with hash := h, fill := 0, padded := false, final := false, phase := .fetch } ∧
    h.toList = [0x6a09e667, 0xbb67ae85, 0x3c6ef372, 0xa54ff53a, 0x510e527f, 0x9b05688c, 0x1f83d9ab, 0x5be0cd19]

/-- R122: the four cases of FETCH, with the tests in their order. Where `Mem` does not admit the read, R61 says that the step
is not enabled; that the state then stays as it is, is the model's reading (DEDUCED, log 4). -/
def Obligations.FetchReadsOneByteOrDispatches : Prop :=
  (∀ s : State, s.fill.toNat = 64 → exec .fetch s = .next { s with t := 0, phase := .wload }) ∧
  (∀ s : State, s.fill.toNat < 64 → s.rem = 0 → exec .fetch s = .next { s with phase := .pad80 }) ∧
  (∀ (s : State) (v : Byte), s.fill.toNat < 64 → s.rem ≠ 0 → s.readByte s.ptr.toNat = some v →
    ∃ (b : Vector Byte 64) (p r : Dword) (f : BitVec 7),
      exec .fetch s = .next { s with
        buf := b, ptr := p, rem := r, fill := f, trace := .memRead s.ptr.toNat v :: s.trace } ∧
      (∀ j : Fin 64, b[j] = if j.val = s.fill.toNat then v else s.buf[j]) ∧
      (s.platform.aw ≤ 64 → p.toNat = (s.ptr.toNat + 1) % 2 ^ s.platform.aw) ∧
      r.toNat = s.rem.toNat - 1 ∧ f.toNat = s.fill.toNat + 1) ∧
  (∀ s : State, s.fill.toNat < 64 → s.rem ≠ 0 → s.readByte s.ptr.toNat = none → exec .fetch s = .next s) ∧
  ∀ s : State, CommandInv s → s.busy = true → s.phase = .fetch → s.fill.toNat < 64 → s.rem = 0 →
    s.fill.toNat = s.len.toNat % 64

/-- R123: PAD80 appends `0x80` at `fill`. -/
def Obligations.Pad80AppendsTheMarker : Prop :=
  ∀ s : State, s.fill.toNat ≤ 63 → ∃ (b : Vector Byte 64) (f : BitVec 7),
    exec .pad80 s = .next { s with buf := b, fill := f, padded := true, phase := .padz } ∧
    (∀ j : Fin 64, b[j] = if j.val = s.fill.toNat then 0x80 else s.buf[j]) ∧ f.toNat = s.fill.toNat + 1

/-- R124: PADZ fills with zeros to 56 when the length field fits, otherwise to 64. -/
def Obligations.PadzFillsTo56OrTo64 : Prop :=
  (∀ s : State, s.fill.toNat ≤ 56 → ∃ b : Vector Byte 64,
    exec .padz s = .next { s with buf := b, fill := 56, phase := .padlen } ∧
    ∀ j : Fin 64, b[j] = if s.fill.toNat ≤ j.val ∧ j.val ≤ 55 then 0 else s.buf[j]) ∧
  ∀ s : State, 57 ≤ s.fill.toNat → ∃ b : Vector Byte 64,
    exec .padz s = .next { s with buf := b, fill := 64, t := 0, phase := .wload } ∧
    ∀ j : Fin 64, b[j] = if s.fill.toNat ≤ j.val then 0 else s.buf[j]

/-- R125, R54: PADLEN writes the bit length, big-endian, into the last eight bytes of the chunk. For `total ≥ 2^61`, which no
run reaches, R125 promises nothing of the product modulo `2^64`; that part is the model's reading (DEDUCED, log 22). -/
def Obligations.PadlenWritesTheBitLength : Prop :=
  ∀ s : State, ∃ b : Vector Byte 64,
    exec .padlen s = .next { s with buf := b, fill := 64, final := true, t := 0, phase := .wload } ∧
    (∀ j : Fin 64, j.val < 56 → b[j] = s.buf[j]) ∧
    (∀ j : Fin 64, 56 ≤ j.val → b[j].toNat = s.total.toNat * 8 % 2 ^ 64 / 256 ^ (63 - j.val) % 256)

/-- R126: NEXT chooses what follows a compression, with the test of `final` first; in a state of the invariant `final`
implies `padded`. -/
def Obligations.NextChoosesWhatFollows : Prop :=
  (∀ s : State, s.final = true → exec .next s = .next { s with sidx := 0, phase := .ser }) ∧
  (∀ s : State, s.final = false → s.padded = true → ∃ b : Vector Byte 64,
    exec .next s = .next { s with buf := b, fill := 56, phase := .padlen } ∧ ∀ j : Fin 64, b[j] = 0) ∧
  (∀ s : State, s.final = false → s.padded = false → exec .next s = .next { s with fill := 0, phase := .fetch }) ∧
  ∀ s : State, PhaseInv s → s.phase = .next → s.final = true → s.padded = true

/-- R152, R53: WLOAD packs four bytes of the chunk, the first most significant, into `W[t]`. -/
def Obligations.WloadPacksFourBytes : Prop :=
  ∀ (s : State) (n : Nat) (hn : n ≤ 15), s.t.toNat = n → ∃ (w : Vector Word 64) (u : BitVec 7),
    exec .wload s = .next { s with w := w, t := u, phase := if n = 15 then .wexp else .wload } ∧
    (∀ j : Fin 64, j.val ≠ n → w[j] = s.w[j]) ∧
    w[n].toNat = s.buf[4 * n].toNat * 2 ^ 24 + s.buf[4 * n + 1].toNat * 2 ^ 16 + s.buf[4 * n + 2].toNat * 2 ^ 8
      + s.buf[4 * n + 3].toNat ∧
    u.toNat = n + 1

/-- R153: WEXP computes `W[t]` from four earlier words, modulo `2^32`. -/
def Obligations.WexpAddsFourEarlierWords : Prop :=
  ∀ (s : State) (n : Nat) (_ : 16 ≤ n) (hn : n ≤ 63), s.t.toNat = n → ∃ (w : Vector Word 64) (u : BitVec 7),
    exec .wexp s = .next { s with w := w, t := u, phase := if n = 63 then .seed else .wexp } ∧
    (∀ j : Fin 64, j.val ≠ n → w[j] = s.w[j]) ∧
    w[n].toNat = (s.w[n - 16].toNat + (ssig0 s.w[n - 15]).toNat + s.w[n - 7].toNat + (ssig1 s.w[n - 2]).toNat) % 2 ^ 32 ∧
    u.toNat = n + 1

/-- R155: WEXP reads the sixteen newest words only, and ROUND only `W[t]`. -/
def Obligations.SixteenWordWindowSuffices : Prop :=
  (∀ (s : State) (v : Vector Word 64) (n : Nat) (_ : 16 ≤ n) (hn : n ≤ 63), s.t.toNat = n →
    (∀ j : Fin 64, n - 16 ≤ j.val → j.val < n → v[j] = s.w[j]) →
    ∃ t u, exec .wexp s = .next t ∧ exec .wexp { s with w := v } = .next u ∧ u = { t with w := u.w } ∧
      u.w[n] = t.w[n]) ∧
  ∀ (s : State) (v : Vector Word 64) (n : Nat) (hn : n ≤ 63), s.t.toNat = n → v[n] = s.w[n] →
    ∃ t, exec .round s = .next t ∧ exec .round { s with w := v } = .next { t with w := v }

/-- R175: SEED copies the hash state into the working variables. -/
def Obligations.SeedCopiesTheHashState : Prop :=
  ∀ s : State, exec .seed s = .next { s with
    work := { a := s.hash[0], b := s.hash[1], c := s.hash[2], d := s.hash[3],
              e := s.hash[4], f := s.hash[5], g := s.hash[6], h := s.hash[7] }
    t := 0, phase := .round }

/-- R176: ROUND, with every right-hand side taken before the step and sums modulo `2^32`. -/
def Obligations.RoundMixesTheWorkingVariables : Prop :=
  ∀ (s : State) (n : Nat) (hn : n ≤ 63), s.t.toNat = n → ∃ (v : Work) (u : BitVec 7) (t1 t2 : Nat),
    exec .round s = .next { s with work := v, t := u, phase := if n = 63 then .addbk else .round } ∧
    t1 = (s.work.h.toNat + (bsig1 s.work.e).toNat + (ch s.work.e s.work.f s.work.g).toNat
      + (kTable.getD n 0).toNat + s.w[n].toNat) % 2 ^ 32 ∧
    t2 = ((bsig0 s.work.a).toNat + (maj s.work.a s.work.b s.work.c).toNat) % 2 ^ 32 ∧
    v.h = s.work.g ∧ v.g = s.work.f ∧ v.f = s.work.e ∧ v.e.toNat = (s.work.d.toNat + t1) % 2 ^ 32 ∧
    v.d = s.work.c ∧ v.c = s.work.b ∧ v.b = s.work.a ∧ v.a.toNat = (t1 + t2) % 2 ^ 32 ∧ u.toNat = n + 1

/-- R177: ADDBK adds the working variables into the hash state, in order. -/
def Obligations.AddbkAddsIntoTheHashState : Prop :=
  ∀ s : State, ∃ h : Vector Word 8, exec .addbk s = .next { s with hash := h, phase := .next } ∧
    h[0].toNat = (s.hash[0].toNat + s.work.a.toNat) % 2 ^ 32 ∧ h[1].toNat = (s.hash[1].toNat + s.work.b.toNat) % 2 ^ 32 ∧
    h[2].toNat = (s.hash[2].toNat + s.work.c.toNat) % 2 ^ 32 ∧ h[3].toNat = (s.hash[3].toNat + s.work.d.toNat) % 2 ^ 32 ∧
    h[4].toNat = (s.hash[4].toNat + s.work.e.toNat) % 2 ^ 32 ∧ h[5].toNat = (s.hash[5].toNat + s.work.f.toNat) % 2 ^ 32 ∧
    h[6].toNat = (s.hash[6].toNat + s.work.g.toNat) % 2 ^ 32 ∧ h[7].toNat = (s.hash[7].toNat + s.work.h.toNat) % 2 ^ 32

/-- R200, R52, R55: SER writes digest byte `sidx` at `(dptr + sidx) mod 2^AW`, and every other byte of `Mem` reads as before.
Where `Mem` does not admit the write, R61 says that the step is not enabled; that the state then stays as it is, is the
model's reading (DEDUCED, log 4). -/
def Obligations.SerWritesOneDigestByte : Prop :=
  (∀ (s : State) (n a : Nat) (hn : n ≤ 31), s.sidx.toNat = n → a = (s.dptr.toNat + n) % 2 ^ s.platform.aw →
    writable s.platform a = true → ∃ (m : Memory) (v : Byte) (u : BitVec 6),
      exec .ser s = .next { s with
        mem := m, sidx := u, phase := if n = 31 then .finish else .ser, trace := .memWrite a v :: s.trace } ∧
      v.toNat = s.hash[n / 4].toNat / 256 ^ (3 - n % 4) % 256 ∧
      m.lookup a = some v ∧ (∀ b, b ≠ a → m.lookup b = s.mem.lookup b) ∧ u.toNat = n + 1) ∧
  ∀ (s : State) (a : Nat), a = (s.dptr.toNat + s.sidx.toNat) % 2 ^ s.platform.aw → writable s.platform a = false →
    exec .ser s = .next s

/-- R201, R47: FINISH clears `BUSY`, sets `DONE` and leaves everything else, the hidden registers among it; after it the
sequencer has no step. -/
def Obligations.FinishSetsDone : Prop :=
  ∀ s : State, exec .finish s = .next { s with busy := false, done := true, phase := .idle } ∧
    (s.agenda = [] → ∀ n, runSteps n { s with busy := false, done := true, phase := .idle } =
      .next { s with busy := false, done := true, phase := .idle })

/-- R120: the control graph. The sequencer's step always answers a next state, whose phase is the successor the table gives
under its condition, with the loop's counter advanced. It stays where it is in `IDLE` only, where R120 gives it no step (log 3),
and in a FETCH or SER whose access `Mem` does not admit (log 4). Of the host accesses an accepted START alone moves `phase`,
from `IDLE` to `INIT`. -/
def Obligations.ControlGraphIsTheTable : Prop :=
  (∀ s : State, PhaseInv s → ∃ t, exec s.phase.instr s = .next t ∧
    ((s.phase = .idle ∧ t = s) ∨
    (s.phase = .init ∧ t.phase = .fetch) ∨
    (s.phase = .fetch ∧ s.fill.toNat = 64 ∧ t.phase = .wload ∧ t.t = 0) ∨
    (s.phase = .fetch ∧ s.fill.toNat < 64 ∧ s.rem = 0 ∧ t.phase = .pad80) ∨
    (s.phase = .fetch ∧ s.fill.toNat < 64 ∧ s.rem ≠ 0 ∧ (s.readByte s.ptr.toNat).isSome = true ∧ t.phase = .fetch ∧
      t.fill.toNat = s.fill.toNat + 1) ∨
    (s.phase = .fetch ∧ s.fill.toNat < 64 ∧ s.rem ≠ 0 ∧ s.readByte s.ptr.toNat = none ∧ t = s) ∨
    (s.phase = .pad80 ∧ t.phase = .padz) ∨
    (s.phase = .padz ∧ s.fill.toNat ≤ 56 ∧ t.phase = .padlen) ∨
    (s.phase = .padz ∧ 56 < s.fill.toNat ∧ t.phase = .wload ∧ t.t = 0) ∨
    (s.phase = .padlen ∧ t.phase = .wload ∧ t.t = 0) ∨
    (s.phase = .wload ∧ s.t.toNat < 15 ∧ t.phase = .wload ∧ t.t.toNat = s.t.toNat + 1) ∨
    (s.phase = .wload ∧ s.t.toNat = 15 ∧ t.phase = .wexp ∧ t.t.toNat = 16) ∨
    (s.phase = .wexp ∧ s.t.toNat < 63 ∧ t.phase = .wexp ∧ t.t.toNat = s.t.toNat + 1) ∨
    (s.phase = .wexp ∧ s.t.toNat = 63 ∧ t.phase = .seed ∧ t.t.toNat = 64) ∨
    (s.phase = .seed ∧ t.phase = .round ∧ t.t = 0) ∨
    (s.phase = .round ∧ s.t.toNat < 63 ∧ t.phase = .round ∧ t.t.toNat = s.t.toNat + 1) ∨
    (s.phase = .round ∧ s.t.toNat = 63 ∧ t.phase = .addbk ∧ t.t.toNat = 64) ∨
    (s.phase = .addbk ∧ t.phase = .next) ∨
    (s.phase = .next ∧ s.final = true ∧ t.phase = .ser ∧ t.sidx = 0) ∨
    (s.phase = .next ∧ s.final = false ∧ s.padded = true ∧ t.phase = .padlen) ∨
    (s.phase = .next ∧ s.final = false ∧ s.padded = false ∧ t.phase = .fetch) ∨
    (s.phase = .ser ∧ s.sidx.toNat < 31 ∧ writable s.platform s.serAddress = true ∧ t.phase = .ser ∧
      t.sidx.toNat = s.sidx.toNat + 1) ∨
    (s.phase = .ser ∧ s.sidx.toNat = 31 ∧ writable s.platform s.serAddress = true ∧ t.phase = .finish ∧
      t.sidx.toNat = 32) ∨
    (s.phase = .ser ∧ writable s.platform s.serAddress = false ∧ t = s) ∨
    (s.phase = .finish ∧ t.phase = .idle))) ∧
  (∀ (s t : State) (i : Instr), PhaseInv s → i.format = .host → exec i s = .next t →
    t.phase = s.phase ∨ (s.phase = .idle ∧ t.phase = .init ∧ ∃ d, i = .wrCtrl d ∧ d.toNat % 2 = 1)) ∧
  ∀ (s t : State) (d : Word), PhaseInv s → s.phase = .idle → d.toNat % 2 = 1 → exec (.wrCtrl d) s = .next t →
    t.phase = .init

/-! ### Steps -/

/-- R13, R31, R70: a step runs the instruction its bytes decode to, the 36 bits of an access or the code of `phase`, with
the head of the agenda taken off (log 1, log 2). -/
def Obligations.StepRunsTheDecodedInstruction : Prop :=
  (∀ (s : State) (x : BitVec 36) (es : List Event) (i : Instr), s.agenda = .access x :: es →
    decode (accessBytes x) = .instr i → step s = exec i { s with agenda := es }) ∧
  (∀ (s : State) (es : List Event) (i : Instr), s.agenda = .sequencer :: es →
    decode (phaseBytes s.phase) = .instr i → step s = exec i { s with agenda := es }) ∧
  (∀ (s : State) (i : Instr), s.agenda = [] → decode (phaseBytes s.phase) = .instr i → step s = exec i s) ∧
  (∀ s : State, step s ≠ .refused .undecodable)

/-- R250, R252: reset in any state. What the hidden registers hold afterwards is open. -/
def Obligations.ResetClearsControlAndOperands : Prop :=
  ∀ (s : State) (es : List Event), s.agenda = .reset :: es → ∃ t, step s = .next t ∧
    t.phase = .idle ∧ t.busy = false ∧ t.done = false ∧ t.src = 0 ∧ t.len = 0 ∧ t.dst = 0 ∧
    t.mem = s.mem ∧ t.platform = s.platform ∧ t.trace = s.trace ∧ t.agenda = es ∧
    (es = [] → ∀ n, runSteps n t = .next t)

/-- R44: the state after reset, where the spec gives a value. -/
def Obligations.ResetStateAsTheSpecGivesIt : Prop :=
  State.reset.phase = .idle ∧ State.reset.busy = false ∧ State.reset.done = false ∧
  State.reset.src = 0 ∧ State.reset.len = 0 ∧ State.reset.dst = 0 ∧ State.reset.platform.aw = 64

/-- R50, R52, R65, R67: another master's store is in `Mem` at once, touches nothing else of the machine, and faults
where the address does not exist (log 11). -/
def Obligations.OtherMasterStoresAreSeenAtOnce : Prop :=
  ∀ (s : State) (a : Nat) (v : Byte) (es : List Event), s.agenda = .store a v :: es →
    (a < 2 ^ s.platform.aw → ∃ m : Memory, step s = .next { s with mem := m, agenda := es } ∧
      m.lookup a = some v ∧ ∀ b, b ≠ a → m.lookup b = s.mem.lookup b) ∧
    (2 ^ s.platform.aw ≤ a → step s = .fault .storeOutsideSpace)

/-! ### Memory -/

/-- R51, R52: a byte stored is the byte read there, and every other address reads as before. -/
def Obligations.StoredByteIsRead : Prop :=
  ∀ (m : Memory) (a b : Nat) (v : Byte),
    (m.store a v).lookup b = if b = a then some v else m.lookup b

/-- R51, R61, R6: `Mem` gives a read its byte exactly where the platform lets the block read, inside the space, and a
byte is there. -/
def Obligations.AdmittedReadsGiveTheByte : Prop :=
  ∀ (s : State) (a : Nat) (v : Byte), s.readByte a = some v ↔
    a < 2 ^ s.platform.aw ∧ s.mem.lookup a = some v ∧
      ∃ r ∈ s.platform.regions, r.read = true ∧ r.base ≤ a ∧ a < r.base + r.size

/-- R50, R58: in one step `Mem` changes only at SER's address or by another master, and only FETCH and SER access it;
a step accesses at most one byte. -/
def Obligations.OnlySerWritesAndOnlyFetchReads : Prop :=
  ∀ s t : State, step s = .next t →
    ((∃ v, s.sequencerTurn ∧ s.phase = .ser ∧ t.mem = s.mem.store s.serAddress v ∧
        memoryAccesses t.trace = .memWrite s.serAddress v :: memoryAccesses s.trace) ∨
      (∃ v, s.sequencerTurn ∧ s.phase = .fetch ∧ s.readByte s.ptr.toNat = some v ∧ t.mem = s.mem ∧
        memoryAccesses t.trace = .memRead s.ptr.toNat v :: memoryAccesses s.trace) ∨
      (∃ a v es, s.agenda = .store a v :: es ∧ t.mem = s.mem.store a v ∧
        memoryAccesses t.trace = memoryAccesses s.trace) ∨
      (t.mem = s.mem ∧ memoryAccesses t.trace = memoryAccesses s.trace))

/-- R50: every step keeps the memory's canonical form and keeps it inside the address space. -/
def Obligations.StepKeepsMemoryInvariant : Prop :=
  ∀ s t : State, MemoryInv s → step s = .next t → MemoryInv t

/-! ### Invariants of the control state and of the command -/

/-- The three invariants hold after reset. That the hidden counters and addresses of `State.reset` are in their legal
ranges is the model's choice of their values (log 5). -/
def Obligations.ResetMeetsTheInvariants : Prop :=
  MemoryInv State.reset ∧ PhaseInv State.reset ∧ CommandInv State.reset

/-- R24 to R27, R30 to R35, R45: every step keeps the flags and counters legal at every phase. -/
def Obligations.StepKeepsPhaseInvariant : Prop :=
  ∀ s t : State, PhaseInv s → step s = .next t → PhaseInv t

/-- R27 to R30, R99, R122, R123: every step keeps the running copies of the command in step with the operands. -/
def Obligations.StepKeepsCommandInvariant : Prop :=
  ∀ s t : State, PhaseInv s → CommandInv s → step s = .next t → CommandInv t

/-- R34, R35, R76: a read of `STATUS` returns 0, 1 or 2, never 3, and bit 0 is set exactly when `phase` is not `IDLE`. -/
def Obligations.StatusReadsZeroOneOrTwo : Prop :=
  ∀ s : State, PhaseInv s → ∃ v : Word, exec .rdStatus s = .next { s with trace := .hostRead 1 v :: s.trace } ∧
    (v = 0 ∨ v = 1 ∨ v = 2) ∧ (v = 1 ↔ s.phase ≠ .idle)

/-- R257: `DONE` is cleared only by an accepted START, which sets `BUSY` in the same step, and by reset; it is set only by
FINISH. -/
def Obligations.DoneIsSticky : Prop :=
  (∀ s t : State, step s = .next t → s.done = true → t.done = false →
    (∃ es, s.agenda = .reset :: es) ∨ (s.startComing ∧ t.busy = true)) ∧
  (∀ s t : State, step s = .next t → s.startComing → t.busy = true ∧ t.done = false) ∧
  ∀ s t : State, step s = .next t → s.done = false → t.done = true → s.sequencerTurn ∧ s.phase = .finish

/-- R36 to R38, R47, R99: while busy no step but reset changes `SRC`, `LEN` or `DST`; no sequencer step ever does; and no
step changes the platform's parameters (R46, log 8). -/
def Obligations.OperandsAreStable : Prop :=
  ∀ s t : State, step s = .next t →
    t.platform = s.platform ∧
    (s.busy = true ∨ s.sequencerTurn → (∃ es, s.agenda = .reset :: es) ∨
      (t.src = s.src ∧ t.len = s.len ∧ t.dst = s.dst))

/-! ### Refinement: the sequencer computes the reference functions -/

/-- R154: the recurrence of the reference schedule. -/
def Obligations.ScheduleMeetsItsRecurrence : Prop :=
  ∀ c : Chunk, (schedule c).length = 64 ∧
    (∀ i, i < 16 → (schedule c).getD i 0 = wordOfBytes (c.toList.getD (4 * i) 0) (c.toList.getD (4 * i + 1) 0)
      (c.toList.getD (4 * i + 2) 0) (c.toList.getD (4 * i + 3) 0)) ∧
    ∀ i, 16 ≤ i → i < 64 → (schedule c).getD i 0 =
      add32 (add32 (add32 ((schedule c).getD (i - 16) 0) (ssig0 ((schedule c).getD (i - 15) 0)))
        ((schedule c).getD (i - 7) 0)) (ssig1 ((schedule c).getD (i - 2) 0))

/-- R127, R128: the chunks of a message are 64 bytes each, there are `floor((L + 8) / 64) + 1`, and together they are the
message, `0x80`, zeros, and the 64-bit big-endian bit length. -/
def Obligations.PadMakesWholeChunks : Prop :=
  ∀ m : List Byte, m.length ≤ 2 ^ 61 - 1 →
    (pad m).length = (m.length + 8) / 64 + 1 ∧ (∀ c ∈ pad m, c.length = 64) ∧
    ∃ z, (pad m).flatten = m ++ [0x80] ++ zeros z ++ be64 (BitVec.ofNat 64 (8 * m.length))

/-- R154: the 16 WLOAD and 48 WEXP steps of a chunk leave `W = schedule(BUF)`. -/
def Obligations.ScheduleStepsComputeSchedule : Prop :=
  ∀ s : State, s.agenda = [] → s.phase = .wload → s.t = 0 →
    ∃ w : Vector Word 64, runSteps 64 s = .next { s with w := w, t := 64, phase := .seed } ∧
      w.toList = schedule s.buf

/-- R178, R120: the 131 steps of one compression leave `H = compress(H, BUF)`; 130 of them lead to NEXT, with `BUF` and
`Mem` untouched, and NEXT leaves the hash state. -/
def Obligations.CompressionStepsComputeCompress : Prop :=
  ∀ s : State, s.agenda = [] → s.phase = .wload → s.t = 0 →
    (∃ (w : Vector Word 64) (v : Work), runSteps 130 s =
      .next { s with w := w, work := v, hash := compress s.hash s.buf, t := 64, phase := .next }) ∧
    ∃ u, runSteps 131 s = .next u ∧ u.hash = compress s.hash s.buf ∧ u.mem = s.mem ∧ u.trace = s.trace

/-- R202, R201, R58: the 32 SER steps and FINISH write `serialize(H)` in ascending order and nothing else. -/
def Obligations.SerStepsWriteTheDigest : Prop :=
  ∀ s : State, s.agenda = [] → s.phase = .ser → s.sidx = 0 → s.dptr.toNat + 32 ≤ 2 ^ s.platform.aw →
    (∀ j, j < 32 → writable s.platform (s.dptr.toNat + j) = true) →
    ∃ (m : Memory) (trace : List Observation), runSteps 33 s =
        .next { s with mem := m, sidx := 32, phase := .idle, busy := false, done := true, trace := trace } ∧
      (∀ j, j < 32 → m.lookup (s.dptr.toNat + j) = (serialize s.hash)[j]?) ∧
      (∀ a, a < s.dptr.toNat ∨ s.dptr.toNat + 32 ≤ a → m.lookup a = s.mem.lookup a) ∧
      trace = ((List.range 32).map fun j =>
        Observation.memWrite (s.dptr.toNat + j) ((serialize s.hash).getD j 0)).reverse ++ s.trace

/-- R129, R109: at every entry to WLOAD of a valid computation the chunk buffer is the next chunk of `pad(M)` and the hash
state is that of the chunks before it. -/
def Obligations.ChunksAreThoseOfPad : Prop :=
  ∀ (s t u : State) (d : Word) (n : Nat), s.agenda = [] → s.busy = false → ValidCommand s →
    exec (.wrCtrl d) s = .next t → t.busy = true → runSteps n t = .next u → u.phase = .wload → u.t = 0 →
    ∃ k, k < (pad (message s)).length ∧
      u.buf = chunkOfList ((pad (message s)).getD k []) ∧
      u.hash = hashChunks ivTable ((pad (message s)).take k) ∧
      (u.final = true ↔ k + 1 = (pad (message s)).length)

/-- R108, R109, R128, R129: the compute contract. A START of a valid command on an idle block reaches FINISH after exactly
`L + floor(L/64) + 131 N + 38` sequencer steps; then the 32 bytes at `D` are `sha256(M)`, every other byte of `Mem` is as it
was, `BUSY = 0`, `DONE = 1`, and the operands are unchanged. -/
def Obligations.ComputationWritesTheSha256Digest : Prop :=
  ∀ (s : State) (d : Word), s.agenda = [] → s.busy = false → d.toNat % 2 = 1 → ValidCommand s →
    ∃ t u, exec (.wrCtrl d) s = .next t ∧ runSteps (stepCount s.len.toNat) t = .next u ∧
      (∀ j, j < 32 → u.mem.lookup (dstAddr s + j) = (sha256 (message s))[j]?) ∧
      (∀ a, a < dstAddr s ∨ dstAddr s + 32 ≤ a → u.mem.lookup a = s.mem.lookup a) ∧
      u.busy = false ∧ u.done = true ∧ u.phase = .idle ∧ u.src = s.src ∧ u.len = s.len ∧ u.dst = s.dst

/-- R108: before its last step the computation is not done: `BUSY` is 1 and `DONE` is 0 in every state up to FINISH. -/
def Obligations.ComputationIsBusyUntilFinish : Prop :=
  ∀ (s : State) (d : Word) (n : Nat), s.agenda = [] → s.busy = false → d.toNat % 2 = 1 → ValidCommand s →
    n < stepCount s.len.toNat →
    ∃ t u, exec (.wrCtrl d) s = .next t ∧ runSteps n t = .next u ∧ u.busy = true ∧ u.done = false

/-- R58: the accesses of one computation, in order: each message byte read once, ascending, then each digest byte written
once, ascending, and no other. The trace is newest first. -/
def Obligations.ComputationAccessesMemoryInOrder : Prop :=
  ∀ (s : State) (d : Word), s.agenda = [] → s.busy = false → d.toNat % 2 = 1 → ValidCommand s →
    ∃ t u, exec (.wrCtrl d) s = .next t ∧ runSteps (stepCount s.len.toNat) t = .next u ∧
      memoryAccesses u.trace =
        ((List.range 32).map fun j => Observation.memWrite (dstAddr s + j) ((sha256 (message s)).getD j 0)).reverse
        ++ ((List.range s.len.toNat).map fun n => Observation.memRead (srcAddr s + n) ((message s).getD n 0)).reverse
        ++ memoryAccesses s.trace

/-- R61: a FETCH or SER whose access `Mem` does not admit is stuck: for ever in that phase, `BUSY` as it was, nothing
reported. That the whole state stays as it is, is the model's reading (DEDUCED, log 4). -/
def Obligations.UnadmittedAccessIsStuck : Prop :=
  (∀ s : State, s.agenda = [] → s.phase = .fetch → s.fill.toNat < 64 → s.rem ≠ 0 → s.readByte s.ptr.toNat = none →
    ∀ n, runSteps n s = .next s) ∧
  ∀ s : State, s.agenda = [] → s.phase = .ser →
    writable s.platform ((s.dptr.toNat + s.sidx.toNat) % 2 ^ s.platform.aw) = false → ∀ n, runSteps n s = .next s

/-! ### What cannot be seen -/

/-- R45, R44, U6: two idle states that differ in hidden registers only cannot be told apart, whatever the host, reset and
other masters do next: the unspecified values after reset, and the leftovers of an earlier computation, reach no digest, no
memory address and no value a host reads. -/
def Obligations.HiddenLeftoversAreNeverSeen : Prop :=
  ∀ (s1 s2 t1 : State) (n : Nat), s1.phase = .idle → s1.busy = false → SameButHidden s1 s2 → runSteps n s1 = .next t1 →
    ∃ t2, runSteps n s2 = .next t2 ∧ SameButHidden t1 t2

/-- R14, R90, R223: host reads placed anywhere between the sequencer's steps change nothing of the computation: the state at
the end, but for the reads recorded, is the one without them, with the same accesses of `Mem` in the same order. -/
def Obligations.InterleavedReadsChangeNothing : Prop :=
  ∀ s : State, (∀ e ∈ s.agenda, e.readOrTurn = true) →
    ∃ t u, runSteps s.agenda.length s = .next t ∧ runSteps (turnsIn s.agenda) { s with agenda := [] } = .next u ∧
      t = { u with trace := t.trace } ∧ memoryAccesses t.trace = memoryAccesses u.trace
end

