-- ==== Sys2Proof/Laws/Memory.lean ====
section
/-! SUPPORT. Every memory operation keeps the canonical form, and what the operations on `Mem` can do. -/

namespace Sys2Proof.Machine

/-- A store introduces no address but its own. -/
theorem Memory.mem_store {m : Memory} {a : Nat} {v : Byte} {c : Host.Cell} (h : c ∈ m.store a v) :
    c = (a, v) ∨ c ∈ m := by
  induction m with
  | nil => simpa [Memory.store] using h
  | cons x rest ih =>
    obtain ⟨b, y⟩ := x
    unfold Memory.store at h
    split at h
    · simpa using h
    · split at h
      · rcases List.mem_cons.mp h with h | h
        · exact .inl h
        · exact .inr (List.mem_cons_of_mem _ h)
      · rcases List.mem_cons.mp h with h | h
        · exact .inr (h ▸ List.mem_cons_self)
        · exact (ih h).imp_right (List.mem_cons_of_mem _)

/-- A store keeps the canonical form. -/
theorem Memory.store_wf {m : Memory} (h : m.wf) (a : Nat) (v : Byte) : Memory.wf (m.store a v) := by
  induction m with
  | nil => simp [Memory.store]
  | cons x rest ih =>
    obtain ⟨b, y⟩ := x
    have hrest : Memory.wf rest := (List.pairwise_cons.mp h).2
    have hlt : ∀ c ∈ rest, b < c.1 := (List.pairwise_cons.mp h).1
    unfold Memory.store
    split
    · rename_i hab
      refine List.pairwise_cons.mpr ⟨fun c hc => ?_, h⟩
      rcases List.mem_cons.mp hc with rfl | hc
      · exact hab
      · exact Nat.lt_trans hab (hlt c hc)
    · split
      · rename_i _ hab
        subst hab
        exact List.pairwise_cons.mpr ⟨hlt, hrest⟩
      · rename_i hnlt hne
        refine List.pairwise_cons.mpr ⟨fun c hc => ?_, ih hrest⟩
        rcases Memory.mem_store hc with rfl | hc
        · exact Nat.lt_of_le_of_ne (Nat.le_of_not_lt hnlt) (Ne.symm hne)
        · exact hlt c hc

/-- A store inside the space keeps every listed address inside it. -/
theorem Memory.store_inSpace {m : Memory} {bound : Nat} (h : ∀ c ∈ m, c.1 < bound) {a : Nat} (ha : a < bound)
    (v : Byte) : ∀ c ∈ m.store a v, c.1 < bound := fun c hc => by
  rcases Memory.mem_store hc with rfl | hc
  · exact ha
  · exact h c hc

/-- In a canonical memory an address below every listed one is not listed. -/
theorem Memory.lookup_eq_none_of_lt {m : Memory} {a : Nat} (h : ∀ c ∈ m, a < c.1) : m.lookup a = none := by
  induction m with
  | nil => rfl
  | cons x rest ih =>
    obtain ⟨b, y⟩ := x
    have hb : a < b := h (b, y) List.mem_cons_self
    rw [Memory.lookup, if_neg (Nat.ne_of_gt hb)]
    exact ih fun c hc => h c (List.mem_cons_of_mem _ hc)

/-- Two canonical memories that read alike everywhere are equal data. -/
theorem Memory.ext_of_lookup {m n : Memory} (hm : m.wf) (hn : n.wf) (h : ∀ a, m.lookup a = n.lookup a) : m = n := by
  induction m generalizing n with
  | nil =>
    cases n with
    | nil => rfl
    | cons y ys => have := h y.1; simp [Memory.lookup] at this
  | cons x xs ih =>
    cases n with
    | nil => have := h x.1; simp [Memory.lookup] at this
    | cons y ys =>
      obtain ⟨a, v⟩ := x
      obtain ⟨b, w⟩ := y
      have hxs := List.pairwise_cons.mp hm
      have hys := List.pairwise_cons.mp hn
      have hab : a = b := by
        rcases Nat.lt_trichotomy a b with hlt | heq | hgt
        · have h2 := h a
          rw [Memory.lookup_eq_none_of_lt (m := (b, w) :: ys) (fun c hc => by
            rcases List.mem_cons.mp hc with rfl | hc
            · exact hlt
            · exact Nat.lt_trans hlt (hys.1 c hc))] at h2
          simp [Memory.lookup] at h2
        · exact heq
        · have h2 := h b
          rw [Memory.lookup_eq_none_of_lt (m := (a, v) :: xs) (fun c hc => by
            rcases List.mem_cons.mp hc with rfl | hc
            · exact hgt
            · exact Nat.lt_trans hgt (hxs.1 c hc))] at h2
          simp [Memory.lookup] at h2
      subst hab
      have hv : v = w := by simpa [Memory.lookup] using h a
      subst hv
      congr 1
      refine ih hxs.2 hys.2 fun k => ?_
      by_cases hk : a = k
      · subst hk
        rw [Memory.lookup_eq_none_of_lt hxs.1, Memory.lookup_eq_none_of_lt hys.1]
      · simpa [Memory.lookup, hk] using h k

/-- An admitted write is inside the space. -/
theorem writable_lt {p : Platform} {a : Nat} (h : writable p a = true) : a < 2 ^ p.aw := by
  simp only [writable, Bool.and_eq_true, decide_eq_true_eq] at h
  exact h.1

/-- Everything another master's store can do (log 11). -/
theorem masterStore_cases (s : State) (a : Nat) (v : Byte) :
    (a < 2 ^ s.platform.aw ∧ s.masterStore a v = .next { s with mem := s.mem.store a v }) ∨
      (2 ^ s.platform.aw ≤ a ∧ s.masterStore a v = .fault .storeOutsideSpace) := by
  unfold State.masterStore
  by_cases h : a < 2 ^ s.platform.aw
  · exact .inl ⟨h, if_pos h⟩
  · exact .inr ⟨Nat.le_of_not_lt h, if_neg h⟩

end Sys2Proof.Machine
end

