-- ==== Sys2Proof/Laws/Operands.lean ====
section
/-! SUPPORT. One lemma per operand form and flag computation: its value as a number, or element by element. -/

namespace Sys2Proof.Machine

@[simp] theorem loHalf_toNat (x : Dword) : (loHalf x).toNat = x.toNat % 2 ^ 32 := by
  simp [loHalf, BitVec.extractLsb'_toNat]

@[simp] theorem hiHalf_toNat (x : Dword) : (hiHalf x).toNat = x.toNat / 2 ^ 32 := by
  have := x.isLt
  simp only [hiHalf, BitVec.extractLsb'_toNat, Nat.shiftRight_eq_div_pow]
  omega

/-- The number two halves make (R74). -/
theorem append_halves_toNat (hi lo : Word) : (hi ++ lo : Dword).toNat = hi.toNat * 2 ^ 32 + lo.toNat := by
  have := lo.isLt
  rw [BitVec.toNat_append, ← Nat.shiftLeft_add_eq_or_of_lt this, Nat.shiftLeft_eq]

@[simp] theorem withLoHalf_toNat (x : Dword) (v : Word) :
    (withLoHalf x v).toNat = x.toNat / 2 ^ 32 * 2 ^ 32 + v.toNat := by
  rw [withLoHalf, append_halves_toNat, hiHalf_toNat]

@[simp] theorem withHiHalf_toNat (x : Dword) (v : Word) :
    (withHiHalf x v).toNat = v.toNat * 2 ^ 32 + x.toNat % 2 ^ 32 := by
  rw [withHiHalf, append_halves_toNat, loHalf_toNat]

/-- Truncation is reduction modulo `2^AW` (R74), for every `AW`. -/
@[simp] theorem truncAddr_toNat (aw : Nat) (x : Dword) : (truncAddr aw x).toNat = x.toNat % 2 ^ aw := by
  rw [truncAddr, BitVec.toNat_ofNat]
  exact Nat.mod_eq_of_lt (Nat.lt_of_le_of_lt (Nat.mod_le _ _) x.isLt)

theorem truncAddr_lt (aw : Nat) (x : Dword) : (truncAddr aw x).toNat < 2 ^ aw := by
  rw [truncAddr_toNat]
  exact Nat.mod_lt _ (Nat.two_pow_pos aw)

/-- Four bytes as a number, the first most significant (R152). -/
theorem wordOfBytes_toNat (b0 b1 b2 b3 : Byte) : (wordOfBytes b0 b1 b2 b3).toNat =
    b0.toNat * 2 ^ 24 + b1.toNat * 2 ^ 16 + b2.toNat * 2 ^ 8 + b3.toNat := by
  have h1 := b1.isLt
  have h2 := b2.isLt
  have h3 := b3.isLt
  simp only [wordOfBytes, BitVec.toNat_append]
  rw [← Nat.shiftLeft_add_eq_or_of_lt h3, ← Nat.shiftLeft_add_eq_or_of_lt h2, ← Nat.shiftLeft_add_eq_or_of_lt h1]
  simp only [Nat.shiftLeft_eq]
  omega

@[simp] theorem zeroRun_getElem (buf : Vector Byte 64) (lo hi j : Nat) (hj : j < 64) :
    (zeroRun buf lo hi)[j] = if lo ≤ j ∧ j < hi then 0 else buf[j] := by
  simp [zeroRun]

@[simp] theorem lengthField_getElem (buf : Vector Byte 64) (bits : Dword) (j : Nat) (hj : j < 64) :
    (lengthField buf bits)[j] = if 56 ≤ j then byteOfDword bits (j - 56) else buf[j] := by
  simp [lengthField]

/-- `STATUS` as a number (R76). -/
theorem statusWord_toNat (busy done : Bool) : (statusWord busy done).toNat = 2 * done.toNat + busy.toNat := by
  cases busy <;> cases done <;> rfl

/-- `START` is bit 0 (R75). -/
theorem startBit_eq (d : Word) : startBit d = decide (d.toNat % 2 = 1) := by
  simp [startBit, BitVec.getLsbD, Nat.testBit_zero]

/-- Everything a host write of an operand can do (R99). -/
theorem whenIdle_cases (s t : State) :
    (s.busy = true ∧ whenIdle s t = .next s) ∨ (s.busy = false ∧ whenIdle s t = .next t) := by
  cases h : s.busy <;> simp [whenIdle, h]

/-- Everything a START on an idle block can do (R100, R221). -/
theorem start_cases (s : State) :
    (∃ r, s.startRefusal = some r ∧ start s = .refused r) ∨ (s.startRefusal = none ∧ start s = .next s.started) := by
  unfold start
  cases s.startRefusal with
  | none => exact .inr ⟨rfl, rfl⟩
  | some r => exact .inl ⟨r, rfl, rfl⟩

end Sys2Proof.Machine
end

