-- ==== Sys2Proof/Laws/PerInstr.lean ====
section
/-! SUPPORT. Laws of instructions as syntax, one lemma per constructor. -/

namespace Sys2Proof.Laws.EncodeLength

/-- The encoding of a host access is five bytes and that of a phase code one (R70; log 13). -/
def Statement (i : Instr) : Prop :=
  (encode i).length = if i.format = .host then 5 else 1

theorem rdCtrl : Statement .rdCtrl := rfl
theorem rdStatus : Statement .rdStatus := rfl
theorem rdSrcLo : Statement .rdSrcLo := rfl
theorem rdSrcHi : Statement .rdSrcHi := rfl
theorem rdLenLo : Statement .rdLenLo := rfl
theorem rdLenHi : Statement .rdLenHi := rfl
theorem rdDstLo : Statement .rdDstLo := rfl
theorem rdDstHi : Statement .rdDstHi := rfl
theorem wrCtrl (wdata : Word) : Statement (.wrCtrl wdata) := rfl
theorem wrStatus (wdata : Word) : Statement (.wrStatus wdata) := rfl
theorem wrSrcLo (wdata : Word) : Statement (.wrSrcLo wdata) := rfl
theorem wrSrcHi (wdata : Word) : Statement (.wrSrcHi wdata) := rfl
theorem wrLenLo (wdata : Word) : Statement (.wrLenLo wdata) := rfl
theorem wrLenHi (wdata : Word) : Statement (.wrLenHi wdata) := rfl
theorem wrDstLo (wdata : Word) : Statement (.wrDstLo wdata) := rfl
theorem wrDstHi (wdata : Word) : Statement (.wrDstHi wdata) := rfl
theorem idle : Statement .idle := rfl
theorem init : Statement .init := rfl
theorem fetch : Statement .fetch := rfl
theorem pad80 : Statement .pad80 := rfl
theorem padz : Statement .padz := rfl
theorem padlen : Statement .padlen := rfl
theorem wload : Statement .wload := rfl
theorem wexp : Statement .wexp := rfl
theorem seed : Statement .seed := rfl
theorem round : Statement .round := rfl
theorem addbk : Statement .addbk := rfl
theorem next : Statement .next := rfl
theorem ser : Statement .ser := rfl
theorem finish : Statement .finish := rfl

end Sys2Proof.Laws.EncodeLength
end

