-- ==== Sys2Proof/Laws/State.lean ====
section
/-! SUPPORT. What each named update of State leaves in each field, so that no later proof unfolds an update. -/

namespace Sys2Proof.Machine

/-! ### `turned` -/

@[simp] theorem State.turned_hash (s : State) : s.turned.hash = s.hash := rfl
@[simp] theorem State.turned_work (s : State) : s.turned.work = s.work := rfl
@[simp] theorem State.turned_w (s : State) : s.turned.w = s.w := rfl
@[simp] theorem State.turned_buf (s : State) : s.turned.buf = s.buf := rfl
@[simp] theorem State.turned_fill (s : State) : s.turned.fill = s.fill := rfl
@[simp] theorem State.turned_t (s : State) : s.turned.t = s.t := rfl
@[simp] theorem State.turned_sidx (s : State) : s.turned.sidx = s.sidx := rfl
@[simp] theorem State.turned_ptr (s : State) : s.turned.ptr = s.ptr := rfl
@[simp] theorem State.turned_rem (s : State) : s.turned.rem = s.rem := rfl
@[simp] theorem State.turned_total (s : State) : s.turned.total = s.total := rfl
@[simp] theorem State.turned_dptr (s : State) : s.turned.dptr = s.dptr := rfl
@[simp] theorem State.turned_phase (s : State) : s.turned.phase = s.phase := rfl
@[simp] theorem State.turned_padded (s : State) : s.turned.padded = s.padded := rfl
@[simp] theorem State.turned_final (s : State) : s.turned.final = s.final := rfl
@[simp] theorem State.turned_busy (s : State) : s.turned.busy = s.busy := rfl
@[simp] theorem State.turned_done (s : State) : s.turned.done = s.done := rfl
@[simp] theorem State.turned_src (s : State) : s.turned.src = s.src := rfl
@[simp] theorem State.turned_len (s : State) : s.turned.len = s.len := rfl
@[simp] theorem State.turned_dst (s : State) : s.turned.dst = s.dst := rfl
@[simp] theorem State.turned_mem (s : State) : s.turned.mem = s.mem := rfl
@[simp] theorem State.turned_platform (s : State) : s.turned.platform = s.platform := rfl
@[simp] theorem State.turned_agenda (s : State) : s.turned.agenda = s.agenda.tail := rfl
@[simp] theorem State.turned_trace (s : State) : s.turned.trace = s.trace := rfl
@[simp] theorem State.turned_draws (s : State) : s.turned.draws = s.draws := rfl

/-! ### `returns` -/

@[simp] theorem State.returns_hash (s : State) (idx : BitVec 3) (v : Word) : (s.returns idx v).hash = s.hash := rfl
@[simp] theorem State.returns_work (s : State) (idx : BitVec 3) (v : Word) : (s.returns idx v).work = s.work := rfl
@[simp] theorem State.returns_w (s : State) (idx : BitVec 3) (v : Word) : (s.returns idx v).w = s.w := rfl
@[simp] theorem State.returns_buf (s : State) (idx : BitVec 3) (v : Word) : (s.returns idx v).buf = s.buf := rfl
@[simp] theorem State.returns_fill (s : State) (idx : BitVec 3) (v : Word) : (s.returns idx v).fill = s.fill := rfl
@[simp] theorem State.returns_t (s : State) (idx : BitVec 3) (v : Word) : (s.returns idx v).t = s.t := rfl
@[simp] theorem State.returns_sidx (s : State) (idx : BitVec 3) (v : Word) : (s.returns idx v).sidx = s.sidx := rfl
@[simp] theorem State.returns_ptr (s : State) (idx : BitVec 3) (v : Word) : (s.returns idx v).ptr = s.ptr := rfl
@[simp] theorem State.returns_rem (s : State) (idx : BitVec 3) (v : Word) : (s.returns idx v).rem = s.rem := rfl
@[simp] theorem State.returns_total (s : State) (idx : BitVec 3) (v : Word) : (s.returns idx v).total = s.total := rfl
@[simp] theorem State.returns_dptr (s : State) (idx : BitVec 3) (v : Word) : (s.returns idx v).dptr = s.dptr := rfl
@[simp] theorem State.returns_phase (s : State) (idx : BitVec 3) (v : Word) : (s.returns idx v).phase = s.phase := rfl
@[simp] theorem State.returns_padded (s : State) (idx : BitVec 3) (v : Word) : (s.returns idx v).padded = s.padded := rfl
@[simp] theorem State.returns_final (s : State) (idx : BitVec 3) (v : Word) : (s.returns idx v).final = s.final := rfl
@[simp] theorem State.returns_busy (s : State) (idx : BitVec 3) (v : Word) : (s.returns idx v).busy = s.busy := rfl
@[simp] theorem State.returns_done (s : State) (idx : BitVec 3) (v : Word) : (s.returns idx v).done = s.done := rfl
@[simp] theorem State.returns_src (s : State) (idx : BitVec 3) (v : Word) : (s.returns idx v).src = s.src := rfl
@[simp] theorem State.returns_len (s : State) (idx : BitVec 3) (v : Word) : (s.returns idx v).len = s.len := rfl
@[simp] theorem State.returns_dst (s : State) (idx : BitVec 3) (v : Word) : (s.returns idx v).dst = s.dst := rfl
@[simp] theorem State.returns_mem (s : State) (idx : BitVec 3) (v : Word) : (s.returns idx v).mem = s.mem := rfl
@[simp] theorem State.returns_platform (s : State) (idx : BitVec 3) (v : Word) : (s.returns idx v).platform = s.platform := rfl
@[simp] theorem State.returns_agenda (s : State) (idx : BitVec 3) (v : Word) : (s.returns idx v).agenda = s.agenda := rfl
@[simp] theorem State.returns_trace (s : State) (idx : BitVec 3) (v : Word) : (s.returns idx v).trace = .hostRead idx v :: s.trace := rfl
@[simp] theorem State.returns_draws (s : State) (idx : BitVec 3) (v : Word) : (s.returns idx v).draws = s.draws := rfl

/-! ### `showRead` -/

@[simp] theorem State.showRead_hash (s : State) (a : Nat) (v : Byte) : (s.showRead a v).hash = s.hash := rfl
@[simp] theorem State.showRead_work (s : State) (a : Nat) (v : Byte) : (s.showRead a v).work = s.work := rfl
@[simp] theorem State.showRead_w (s : State) (a : Nat) (v : Byte) : (s.showRead a v).w = s.w := rfl
@[simp] theorem State.showRead_buf (s : State) (a : Nat) (v : Byte) : (s.showRead a v).buf = s.buf := rfl
@[simp] theorem State.showRead_fill (s : State) (a : Nat) (v : Byte) : (s.showRead a v).fill = s.fill := rfl
@[simp] theorem State.showRead_t (s : State) (a : Nat) (v : Byte) : (s.showRead a v).t = s.t := rfl
@[simp] theorem State.showRead_sidx (s : State) (a : Nat) (v : Byte) : (s.showRead a v).sidx = s.sidx := rfl
@[simp] theorem State.showRead_ptr (s : State) (a : Nat) (v : Byte) : (s.showRead a v).ptr = s.ptr := rfl
@[simp] theorem State.showRead_rem (s : State) (a : Nat) (v : Byte) : (s.showRead a v).rem = s.rem := rfl
@[simp] theorem State.showRead_total (s : State) (a : Nat) (v : Byte) : (s.showRead a v).total = s.total := rfl
@[simp] theorem State.showRead_dptr (s : State) (a : Nat) (v : Byte) : (s.showRead a v).dptr = s.dptr := rfl
@[simp] theorem State.showRead_phase (s : State) (a : Nat) (v : Byte) : (s.showRead a v).phase = s.phase := rfl
@[simp] theorem State.showRead_padded (s : State) (a : Nat) (v : Byte) : (s.showRead a v).padded = s.padded := rfl
@[simp] theorem State.showRead_final (s : State) (a : Nat) (v : Byte) : (s.showRead a v).final = s.final := rfl
@[simp] theorem State.showRead_busy (s : State) (a : Nat) (v : Byte) : (s.showRead a v).busy = s.busy := rfl
@[simp] theorem State.showRead_done (s : State) (a : Nat) (v : Byte) : (s.showRead a v).done = s.done := rfl
@[simp] theorem State.showRead_src (s : State) (a : Nat) (v : Byte) : (s.showRead a v).src = s.src := rfl
@[simp] theorem State.showRead_len (s : State) (a : Nat) (v : Byte) : (s.showRead a v).len = s.len := rfl
@[simp] theorem State.showRead_dst (s : State) (a : Nat) (v : Byte) : (s.showRead a v).dst = s.dst := rfl
@[simp] theorem State.showRead_mem (s : State) (a : Nat) (v : Byte) : (s.showRead a v).mem = s.mem := rfl
@[simp] theorem State.showRead_platform (s : State) (a : Nat) (v : Byte) : (s.showRead a v).platform = s.platform := rfl
@[simp] theorem State.showRead_agenda (s : State) (a : Nat) (v : Byte) : (s.showRead a v).agenda = s.agenda := rfl
@[simp] theorem State.showRead_trace (s : State) (a : Nat) (v : Byte) : (s.showRead a v).trace = .memRead a v :: s.trace := rfl
@[simp] theorem State.showRead_draws (s : State) (a : Nat) (v : Byte) : (s.showRead a v).draws = s.draws := rfl

/-! ### `writeByte` -/

@[simp] theorem State.writeByte_hash (s : State) (a : Nat) (v : Byte) : (s.writeByte a v).hash = s.hash := rfl
@[simp] theorem State.writeByte_work (s : State) (a : Nat) (v : Byte) : (s.writeByte a v).work = s.work := rfl
@[simp] theorem State.writeByte_w (s : State) (a : Nat) (v : Byte) : (s.writeByte a v).w = s.w := rfl
@[simp] theorem State.writeByte_buf (s : State) (a : Nat) (v : Byte) : (s.writeByte a v).buf = s.buf := rfl
@[simp] theorem State.writeByte_fill (s : State) (a : Nat) (v : Byte) : (s.writeByte a v).fill = s.fill := rfl
@[simp] theorem State.writeByte_t (s : State) (a : Nat) (v : Byte) : (s.writeByte a v).t = s.t := rfl
@[simp] theorem State.writeByte_sidx (s : State) (a : Nat) (v : Byte) : (s.writeByte a v).sidx = s.sidx := rfl
@[simp] theorem State.writeByte_ptr (s : State) (a : Nat) (v : Byte) : (s.writeByte a v).ptr = s.ptr := rfl
@[simp] theorem State.writeByte_rem (s : State) (a : Nat) (v : Byte) : (s.writeByte a v).rem = s.rem := rfl
@[simp] theorem State.writeByte_total (s : State) (a : Nat) (v : Byte) : (s.writeByte a v).total = s.total := rfl
@[simp] theorem State.writeByte_dptr (s : State) (a : Nat) (v : Byte) : (s.writeByte a v).dptr = s.dptr := rfl
@[simp] theorem State.writeByte_phase (s : State) (a : Nat) (v : Byte) : (s.writeByte a v).phase = s.phase := rfl
@[simp] theorem State.writeByte_padded (s : State) (a : Nat) (v : Byte) : (s.writeByte a v).padded = s.padded := rfl
@[simp] theorem State.writeByte_final (s : State) (a : Nat) (v : Byte) : (s.writeByte a v).final = s.final := rfl
@[simp] theorem State.writeByte_busy (s : State) (a : Nat) (v : Byte) : (s.writeByte a v).busy = s.busy := rfl
@[simp] theorem State.writeByte_done (s : State) (a : Nat) (v : Byte) : (s.writeByte a v).done = s.done := rfl
@[simp] theorem State.writeByte_src (s : State) (a : Nat) (v : Byte) : (s.writeByte a v).src = s.src := rfl
@[simp] theorem State.writeByte_len (s : State) (a : Nat) (v : Byte) : (s.writeByte a v).len = s.len := rfl
@[simp] theorem State.writeByte_dst (s : State) (a : Nat) (v : Byte) : (s.writeByte a v).dst = s.dst := rfl
@[simp] theorem State.writeByte_mem (s : State) (a : Nat) (v : Byte) : (s.writeByte a v).mem = s.mem.store a v := rfl
@[simp] theorem State.writeByte_platform (s : State) (a : Nat) (v : Byte) : (s.writeByte a v).platform = s.platform := rfl
@[simp] theorem State.writeByte_agenda (s : State) (a : Nat) (v : Byte) : (s.writeByte a v).agenda = s.agenda := rfl
@[simp] theorem State.writeByte_trace (s : State) (a : Nat) (v : Byte) : (s.writeByte a v).trace = .memWrite a v :: s.trace := rfl
@[simp] theorem State.writeByte_draws (s : State) (a : Nat) (v : Byte) : (s.writeByte a v).draws = s.draws := rfl

/-! ### `enterWload` -/

@[simp] theorem State.enterWload_hash (s : State) : s.enterWload.hash = s.hash := rfl
@[simp] theorem State.enterWload_work (s : State) : s.enterWload.work = s.work := rfl
@[simp] theorem State.enterWload_w (s : State) : s.enterWload.w = s.w := rfl
@[simp] theorem State.enterWload_buf (s : State) : s.enterWload.buf = s.buf := rfl
@[simp] theorem State.enterWload_fill (s : State) : s.enterWload.fill = s.fill := rfl
@[simp] theorem State.enterWload_t (s : State) : s.enterWload.t = 0 := rfl
@[simp] theorem State.enterWload_sidx (s : State) : s.enterWload.sidx = s.sidx := rfl
@[simp] theorem State.enterWload_ptr (s : State) : s.enterWload.ptr = s.ptr := rfl
@[simp] theorem State.enterWload_rem (s : State) : s.enterWload.rem = s.rem := rfl
@[simp] theorem State.enterWload_total (s : State) : s.enterWload.total = s.total := rfl
@[simp] theorem State.enterWload_dptr (s : State) : s.enterWload.dptr = s.dptr := rfl
@[simp] theorem State.enterWload_phase (s : State) : s.enterWload.phase = .wload := rfl
@[simp] theorem State.enterWload_padded (s : State) : s.enterWload.padded = s.padded := rfl
@[simp] theorem State.enterWload_final (s : State) : s.enterWload.final = s.final := rfl
@[simp] theorem State.enterWload_busy (s : State) : s.enterWload.busy = s.busy := rfl
@[simp] theorem State.enterWload_done (s : State) : s.enterWload.done = s.done := rfl
@[simp] theorem State.enterWload_src (s : State) : s.enterWload.src = s.src := rfl
@[simp] theorem State.enterWload_len (s : State) : s.enterWload.len = s.len := rfl
@[simp] theorem State.enterWload_dst (s : State) : s.enterWload.dst = s.dst := rfl
@[simp] theorem State.enterWload_mem (s : State) : s.enterWload.mem = s.mem := rfl
@[simp] theorem State.enterWload_platform (s : State) : s.enterWload.platform = s.platform := rfl
@[simp] theorem State.enterWload_agenda (s : State) : s.enterWload.agenda = s.agenda := rfl
@[simp] theorem State.enterWload_trace (s : State) : s.enterWload.trace = s.trace := rfl
@[simp] theorem State.enterWload_draws (s : State) : s.enterWload.draws = s.draws := rfl

/-! ### `started` -/

@[simp] theorem State.started_hash (s : State) : s.started.hash = s.hash := rfl
@[simp] theorem State.started_work (s : State) : s.started.work = s.work := rfl
@[simp] theorem State.started_w (s : State) : s.started.w = s.w := rfl
@[simp] theorem State.started_buf (s : State) : s.started.buf = s.buf := rfl
@[simp] theorem State.started_fill (s : State) : s.started.fill = s.fill := rfl
@[simp] theorem State.started_t (s : State) : s.started.t = s.t := rfl
@[simp] theorem State.started_sidx (s : State) : s.started.sidx = s.sidx := rfl
@[simp] theorem State.started_ptr (s : State) : s.started.ptr = truncAddr s.platform.aw s.src := rfl
@[simp] theorem State.started_rem (s : State) : s.started.rem = s.len := rfl
@[simp] theorem State.started_total (s : State) : s.started.total = s.len := rfl
@[simp] theorem State.started_dptr (s : State) : s.started.dptr = truncAddr s.platform.aw s.dst := rfl
@[simp] theorem State.started_phase (s : State) : s.started.phase = .init := rfl
@[simp] theorem State.started_padded (s : State) : s.started.padded = s.padded := rfl
@[simp] theorem State.started_final (s : State) : s.started.final = s.final := rfl
@[simp] theorem State.started_busy (s : State) : s.started.busy = true := rfl
@[simp] theorem State.started_done (s : State) : s.started.done = false := rfl
@[simp] theorem State.started_src (s : State) : s.started.src = s.src := rfl
@[simp] theorem State.started_len (s : State) : s.started.len = s.len := rfl
@[simp] theorem State.started_dst (s : State) : s.started.dst = s.dst := rfl
@[simp] theorem State.started_mem (s : State) : s.started.mem = s.mem := rfl
@[simp] theorem State.started_platform (s : State) : s.started.platform = s.platform := rfl
@[simp] theorem State.started_agenda (s : State) : s.started.agenda = s.agenda := rfl
@[simp] theorem State.started_trace (s : State) : s.started.trace = s.trace := rfl
@[simp] theorem State.started_draws (s : State) : s.started.draws = s.draws := rfl

/-! ### `fetched` -/

@[simp] theorem State.fetched_hash (s : State) (v : Byte) : (s.fetched v).hash = s.hash := rfl
@[simp] theorem State.fetched_work (s : State) (v : Byte) : (s.fetched v).work = s.work := rfl
@[simp] theorem State.fetched_w (s : State) (v : Byte) : (s.fetched v).w = s.w := rfl
@[simp] theorem State.fetched_buf (s : State) (v : Byte) : (s.fetched v).buf = s.buf.setIfInBounds s.fill.toNat v := rfl
@[simp] theorem State.fetched_fill (s : State) (v : Byte) : (s.fetched v).fill = s.fill + 1 := rfl
@[simp] theorem State.fetched_t (s : State) (v : Byte) : (s.fetched v).t = s.t := rfl
@[simp] theorem State.fetched_sidx (s : State) (v : Byte) : (s.fetched v).sidx = s.sidx := rfl
@[simp] theorem State.fetched_ptr (s : State) (v : Byte) : (s.fetched v).ptr = truncAddr s.platform.aw (s.ptr + 1) := rfl
@[simp] theorem State.fetched_rem (s : State) (v : Byte) : (s.fetched v).rem = s.rem - 1 := rfl
@[simp] theorem State.fetched_total (s : State) (v : Byte) : (s.fetched v).total = s.total := rfl
@[simp] theorem State.fetched_dptr (s : State) (v : Byte) : (s.fetched v).dptr = s.dptr := rfl
@[simp] theorem State.fetched_phase (s : State) (v : Byte) : (s.fetched v).phase = s.phase := rfl
@[simp] theorem State.fetched_padded (s : State) (v : Byte) : (s.fetched v).padded = s.padded := rfl
@[simp] theorem State.fetched_final (s : State) (v : Byte) : (s.fetched v).final = s.final := rfl
@[simp] theorem State.fetched_busy (s : State) (v : Byte) : (s.fetched v).busy = s.busy := rfl
@[simp] theorem State.fetched_done (s : State) (v : Byte) : (s.fetched v).done = s.done := rfl
@[simp] theorem State.fetched_src (s : State) (v : Byte) : (s.fetched v).src = s.src := rfl
@[simp] theorem State.fetched_len (s : State) (v : Byte) : (s.fetched v).len = s.len := rfl
@[simp] theorem State.fetched_dst (s : State) (v : Byte) : (s.fetched v).dst = s.dst := rfl
@[simp] theorem State.fetched_mem (s : State) (v : Byte) : (s.fetched v).mem = s.mem := rfl
@[simp] theorem State.fetched_platform (s : State) (v : Byte) : (s.fetched v).platform = s.platform := rfl
@[simp] theorem State.fetched_agenda (s : State) (v : Byte) : (s.fetched v).agenda = s.agenda := rfl
@[simp] theorem State.fetched_trace (s : State) (v : Byte) : (s.fetched v).trace = .memRead s.ptr.toNat v :: s.trace := rfl
@[simp] theorem State.fetched_draws (s : State) (v : Byte) : (s.fetched v).draws = s.draws := rfl

/-! ### `serialized` -/

@[simp] theorem State.serialized_hash (s : State) : s.serialized.hash = s.hash := rfl
@[simp] theorem State.serialized_work (s : State) : s.serialized.work = s.work := rfl
@[simp] theorem State.serialized_w (s : State) : s.serialized.w = s.w := rfl
@[simp] theorem State.serialized_buf (s : State) : s.serialized.buf = s.buf := rfl
@[simp] theorem State.serialized_fill (s : State) : s.serialized.fill = s.fill := rfl
@[simp] theorem State.serialized_t (s : State) : s.serialized.t = s.t := rfl
@[simp] theorem State.serialized_sidx (s : State) : s.serialized.sidx = s.sidx + 1 := rfl
@[simp] theorem State.serialized_ptr (s : State) : s.serialized.ptr = s.ptr := rfl
@[simp] theorem State.serialized_rem (s : State) : s.serialized.rem = s.rem := rfl
@[simp] theorem State.serialized_total (s : State) : s.serialized.total = s.total := rfl
@[simp] theorem State.serialized_dptr (s : State) : s.serialized.dptr = s.dptr := rfl
@[simp] theorem State.serialized_phase (s : State) : s.serialized.phase = if s.sidx = 31 then .finish else .ser := rfl
@[simp] theorem State.serialized_padded (s : State) : s.serialized.padded = s.padded := rfl
@[simp] theorem State.serialized_final (s : State) : s.serialized.final = s.final := rfl
@[simp] theorem State.serialized_busy (s : State) : s.serialized.busy = s.busy := rfl
@[simp] theorem State.serialized_done (s : State) : s.serialized.done = s.done := rfl
@[simp] theorem State.serialized_src (s : State) : s.serialized.src = s.src := rfl
@[simp] theorem State.serialized_len (s : State) : s.serialized.len = s.len := rfl
@[simp] theorem State.serialized_dst (s : State) : s.serialized.dst = s.dst := rfl
@[simp] theorem State.serialized_mem (s : State) : s.serialized.mem = s.mem.store s.serAddress s.serByte := rfl
@[simp] theorem State.serialized_platform (s : State) : s.serialized.platform = s.platform := rfl
@[simp] theorem State.serialized_agenda (s : State) : s.serialized.agenda = s.agenda := rfl
@[simp] theorem State.serialized_trace (s : State) : s.serialized.trace = .memWrite s.serAddress s.serByte :: s.trace := rfl
@[simp] theorem State.serialized_draws (s : State) : s.serialized.draws = s.draws := rfl

/-! ### `resetEvent` -/

@[simp] theorem State.resetEvent_fill (s : State) : s.resetEvent.fill = freeCounter 7 64 s.draws .fill := rfl
@[simp] theorem State.resetEvent_t (s : State) : s.resetEvent.t = freeCounter 7 64 s.draws .t := rfl
@[simp] theorem State.resetEvent_sidx (s : State) : s.resetEvent.sidx = freeCounter 6 32 s.draws .sidx := rfl
@[simp] theorem State.resetEvent_ptr (s : State) : s.resetEvent.ptr = truncAddr s.platform.aw (freeBits 64 s.draws .ptr) := rfl
@[simp] theorem State.resetEvent_dptr (s : State) : s.resetEvent.dptr = truncAddr s.platform.aw (freeBits 64 s.draws .dptr) := rfl
@[simp] theorem State.resetEvent_phase (s : State) : s.resetEvent.phase = .idle := rfl
@[simp] theorem State.resetEvent_busy (s : State) : s.resetEvent.busy = false := rfl
@[simp] theorem State.resetEvent_done (s : State) : s.resetEvent.done = false := rfl
@[simp] theorem State.resetEvent_src (s : State) : s.resetEvent.src = 0 := rfl
@[simp] theorem State.resetEvent_len (s : State) : s.resetEvent.len = 0 := rfl
@[simp] theorem State.resetEvent_dst (s : State) : s.resetEvent.dst = 0 := rfl
@[simp] theorem State.resetEvent_mem (s : State) : s.resetEvent.mem = s.mem := rfl
@[simp] theorem State.resetEvent_platform (s : State) : s.resetEvent.platform = s.platform := rfl
@[simp] theorem State.resetEvent_agenda (s : State) : s.resetEvent.agenda = s.agenda := rfl
@[simp] theorem State.resetEvent_trace (s : State) : s.resetEvent.trace = s.trace := rfl
@[simp] theorem State.resetEvent_draws (s : State) : s.resetEvent.draws = s.draws + 1 := rfl

end Sys2Proof.Machine
end

