-- ==== Sys2Proof/Laws/Step.lean ====
section
/-! SUPPORT. What each meaning and each step can do, once, for the proofs to cite: the outcome of every meaning, and the
inversion of `step`. -/

namespace Sys2Proof.Machine

/-! ### The agenda's bytes decode -/

/-- The code of a phase decodes to its micro-operation (R72). -/
@[simp] theorem decode_phaseBytes (p : Phase) : decode (phaseBytes p) = .instr p.instr := by
  cases p <;> decide

/-- The bytes of 36 bits decode to the access those bits are (R71). -/
@[simp] theorem decode_accessBytes (x : BitVec 36) : decode (accessBytes x) = .instr (decodeAccess x) := by
  have hx : ((x.extractLsb' 32 4).setWidth 8).extractLsb' 0 4 ++ x.extractLsb' 24 8 ++ x.extractLsb' 16 8
      ++ x.extractLsb' 8 8 ++ x.extractLsb' 0 8 = x := by
    ext i hi
    simp only [BitVec.getElem_append, BitVec.getElem_extractLsb', BitVec.getLsbD_setWidth, BitVec.getLsbD_extractLsb']
    rw [← BitVec.getLsbD_eq_getElem]
    repeat' split
    all_goals first
      | (congr 1; omega)
      | (have h1 : 0 + (i - 8 - 8 - 8 - 8) < 8 := by omega
         have h2 : 0 + (i - 8 - 8 - 8 - 8) < 4 := by omega
         simp only [h1, h2, decide_true, Bool.true_and]
         congr 1
         omega)
  have hlt : ((x.extractLsb' 32 4).setWidth 8 : Byte).toNat < 16 := by
    have := (x.extractLsb' 32 4).isLt
    rw [BitVec.toNat_setWidth]
    omega
  simp only [accessBytes, decode, decodeHost, if_pos hlt, hx]

/-! ### The outcome of each meaning -/

theorem exec_rdCtrl (s : State) : exec .rdCtrl s = .next (s.returns 0 0) := rfl
theorem exec_rdStatus (s : State) : exec .rdStatus s = .next (s.returns 1 (statusWord s.busy s.done)) := rfl
theorem exec_rdSrcLo (s : State) : exec .rdSrcLo s = .next (s.returns 2 (loHalf s.src)) := rfl
theorem exec_rdSrcHi (s : State) : exec .rdSrcHi s = .next (s.returns 3 (hiHalf s.src)) := rfl
theorem exec_rdLenLo (s : State) : exec .rdLenLo s = .next (s.returns 4 (loHalf s.len)) := rfl
theorem exec_rdLenHi (s : State) : exec .rdLenHi s = .next (s.returns 5 (hiHalf s.len)) := rfl
theorem exec_rdDstLo (s : State) : exec .rdDstLo s = .next (s.returns 6 (loHalf s.dst)) := rfl
theorem exec_rdDstHi (s : State) : exec .rdDstHi s = .next (s.returns 7 (hiHalf s.dst)) := rfl

theorem exec_wrCtrl (d : Word) (s : State) :
    exec (.wrCtrl d) s = if s.busy then .next s else if startBit d then start s else .next s := rfl
theorem exec_wrStatus (d : Word) (s : State) : exec (.wrStatus d) s = .next s := rfl
theorem exec_wrSrcLo (d : Word) (s : State) :
    exec (.wrSrcLo d) s = whenIdle s { s with src := withLoHalf s.src d } := rfl
theorem exec_wrSrcHi (d : Word) (s : State) :
    exec (.wrSrcHi d) s = whenIdle s { s with src := withHiHalf s.src d } := rfl
theorem exec_wrLenLo (d : Word) (s : State) :
    exec (.wrLenLo d) s = whenIdle s { s with len := withLoHalf s.len d } := rfl
theorem exec_wrLenHi (d : Word) (s : State) :
    exec (.wrLenHi d) s = whenIdle s { s with len := withHiHalf s.len d } := rfl
theorem exec_wrDstLo (d : Word) (s : State) :
    exec (.wrDstLo d) s = whenIdle s { s with dst := withLoHalf s.dst d } := rfl
theorem exec_wrDstHi (d : Word) (s : State) :
    exec (.wrDstHi d) s = whenIdle s { s with dst := withHiHalf s.dst d } := rfl

/-- Everything a host access can do: it only shows a value; or, idle, sets one operand; or is an accepted START; or
changes nothing; or is a refused START (R90, R99 to R107). -/
theorem exec_host_cases {i : Instr} (hi : i.format = .host) (s : State) :
    (∃ idx v, exec i s = .next (s.returns idx v)) ∨ exec i s = .next s ∨
    (s.busy = false ∧ ∃ x, exec i s = .next { s with src := x }) ∨
    (s.busy = false ∧ ∃ x, exec i s = .next { s with len := x }) ∨
    (s.busy = false ∧ ∃ x, exec i s = .next { s with dst := x }) ∨
    (∃ d, i = .wrCtrl d ∧ s.busy = false ∧ startBit d = true ∧ s.startRefusal = none ∧ exec i s = .next s.started) ∨
    (∃ d r, i = .wrCtrl d ∧ s.busy = false ∧ startBit d = true ∧ s.startRefusal = some r ∧ exec i s = .refused r) := by
  cases i with
  | rdCtrl => exact .inl ⟨_, _, exec_rdCtrl s⟩
  | rdStatus => exact .inl ⟨_, _, exec_rdStatus s⟩
  | rdSrcLo => exact .inl ⟨_, _, exec_rdSrcLo s⟩
  | rdSrcHi => exact .inl ⟨_, _, exec_rdSrcHi s⟩
  | rdLenLo => exact .inl ⟨_, _, exec_rdLenLo s⟩
  | rdLenHi => exact .inl ⟨_, _, exec_rdLenHi s⟩
  | rdDstLo => exact .inl ⟨_, _, exec_rdDstLo s⟩
  | rdDstHi => exact .inl ⟨_, _, exec_rdDstHi s⟩
  | wrStatus d => exact .inr (.inl (exec_wrStatus d s))
  | wrCtrl d =>
    rw [exec_wrCtrl]
    cases hb : s.busy with
    | true => exact .inr (.inl (by simp))
    | false =>
      cases hd : startBit d with
      | false => exact .inr (.inl (by simp))
      | true =>
        rcases start_cases s with ⟨r, hr, he⟩ | ⟨hr, he⟩
        · exact .inr (.inr (.inr (.inr (.inr (.inr ⟨d, r, rfl, rfl, hd, hr, by simpa using he⟩)))))
        · exact .inr (.inr (.inr (.inr (.inr (.inl ⟨d, rfl, rfl, hd, hr, by simpa using he⟩)))))
  | wrSrcLo d =>
    rcases whenIdle_cases s { s with src := withLoHalf s.src d } with ⟨_, h⟩ | ⟨hb, h⟩
    · exact .inr (.inl h)
    · exact .inr (.inr (.inl ⟨hb, _, h⟩))
  | wrSrcHi d =>
    rcases whenIdle_cases s { s with src := withHiHalf s.src d } with ⟨_, h⟩ | ⟨hb, h⟩
    · exact .inr (.inl h)
    · exact .inr (.inr (.inl ⟨hb, _, h⟩))
  | wrLenLo d =>
    rcases whenIdle_cases s { s with len := withLoHalf s.len d } with ⟨_, h⟩ | ⟨hb, h⟩
    · exact .inr (.inl h)
    · exact .inr (.inr (.inr (.inl ⟨hb, _, h⟩)))
  | wrLenHi d =>
    rcases whenIdle_cases s { s with len := withHiHalf s.len d } with ⟨_, h⟩ | ⟨hb, h⟩
    · exact .inr (.inl h)
    · exact .inr (.inr (.inr (.inl ⟨hb, _, h⟩)))
  | wrDstLo d =>
    rcases whenIdle_cases s { s with dst := withLoHalf s.dst d } with ⟨_, h⟩ | ⟨hb, h⟩
    · exact .inr (.inl h)
    · exact .inr (.inr (.inr (.inr (.inl ⟨hb, _, h⟩))))
  | wrDstHi d =>
    rcases whenIdle_cases s { s with dst := withHiHalf s.dst d } with ⟨_, h⟩ | ⟨hb, h⟩
    · exact .inr (.inl h)
    · exact .inr (.inr (.inr (.inr (.inl ⟨hb, _, h⟩))))
  | _ => exact absurd hi (by decide)

/-- Everything FETCH can do (R122, R61). -/
theorem exec_fetch_cases (s : State) :
    (s.fill = 64 ∧ exec .fetch s = .next s.enterWload) ∨
    (s.fill ≠ 64 ∧ s.rem = 0 ∧ exec .fetch s = .next { s with phase := .pad80 }) ∨
    (s.fill ≠ 64 ∧ s.rem ≠ 0 ∧ ∃ v, s.readByte s.ptr.toNat = some v ∧ exec .fetch s = .next (s.fetched v)) ∨
    (s.fill ≠ 64 ∧ s.rem ≠ 0 ∧ s.readByte s.ptr.toNat = none ∧ exec .fetch s = .next s) := by
  show _ ∨ _ ∨ _ ∨ _
  simp only [exec, execFetch, notEnabled]
  by_cases h1 : s.fill = 64
  · exact .inl ⟨h1, if_pos h1⟩
  · by_cases h2 : s.rem = 0
    · exact .inr (.inl ⟨h1, h2, by rw [if_neg h1, if_pos h2]⟩)
    · cases h3 : s.readByte s.ptr.toNat with
      | some v => exact .inr (.inr (.inl ⟨h1, h2, v, rfl, by rw [if_neg h1, if_neg h2]⟩))
      | none => exact .inr (.inr (.inr ⟨h1, h2, rfl, by rw [if_neg h1, if_neg h2]⟩))

/-- Everything PADZ can do (R124). -/
theorem exec_padz_cases (s : State) :
    (s.fill.toNat ≤ 56 ∧
      exec .padz s = .next { s with buf := zeroRun s.buf s.fill.toNat 56, fill := 56, phase := .padlen }) ∨
    (56 < s.fill.toNat ∧
      exec .padz s = .next { s with buf := zeroRun s.buf s.fill.toNat 64, fill := 64, t := 0, phase := .wload }) := by
  simp only [exec, execPadz]
  by_cases h : s.fill.toNat ≤ 56
  · exact .inl ⟨h, by rw [if_pos h]⟩
  · exact .inr ⟨Nat.lt_of_not_le h, by rw [if_neg h]; rfl⟩

/-- Everything NEXT can do (R126). -/
theorem exec_next_cases (s : State) :
    (s.final = true ∧ exec .next s = .next { s with sidx := 0, phase := .ser }) ∨
    (s.final = false ∧ s.padded = true ∧
      exec .next s = .next { s with buf := zeroRun s.buf 0 64, fill := 56, phase := .padlen }) ∨
    (s.final = false ∧ s.padded = false ∧ exec .next s = .next { s with fill := 0, phase := .fetch }) := by
  simp only [exec, execNext]
  cases hf : s.final <;> cases hp : s.padded <;> simp

/-- Everything SER can do (R200, R61). -/
theorem exec_ser_cases (s : State) :
    (writable s.platform s.serAddress = true ∧ exec .ser s = .next s.serialized) ∨
    (writable s.platform s.serAddress = false ∧ exec .ser s = .next s) := by
  simp only [exec, execSer, notEnabled]
  cases h : writable s.platform s.serAddress <;> simp

theorem exec_idle (s : State) : exec .idle s = .next s := rfl
theorem exec_init (s : State) : exec .init s =
    .next { s with hash := ivTable, fill := 0, padded := false, final := false, phase := .fetch } := rfl
theorem exec_pad80 (s : State) : exec .pad80 s = .next { s with
    buf := s.buf.setIfInBounds s.fill.toNat 0x80, fill := s.fill + 1, padded := true, phase := .padz } := rfl
theorem exec_padlen (s : State) : exec .padlen s = .next { s with
    buf := lengthField s.buf (bitLength s.total), fill := 64, final := true, t := 0, phase := .wload } := rfl
theorem exec_wload (s : State) : exec .wload s = .next { s with
    w := s.w.setIfInBounds s.t.toNat s.loadedWord, t := s.t + 1,
    phase := if s.t = 15 then .wexp else .wload } := rfl
theorem exec_wexp (s : State) : exec .wexp s = .next { s with
    w := s.w.setIfInBounds s.t.toNat s.expandedWord, t := s.t + 1,
    phase := if s.t = 63 then .seed else .wexp } := rfl
theorem exec_seed (s : State) : exec .seed s =
    .next { s with work := workOfHash s.hash, t := 0, phase := .round } := rfl
theorem exec_round (s : State) : exec .round s = .next { s with
    work := roundWork s.work (s.kAt s.t.toNat) (s.wAt s.t.toNat), t := s.t + 1,
    phase := if s.t = 63 then .addbk else .round } := rfl
theorem exec_addbk (s : State) : exec .addbk s =
    .next { s with hash := addWork s.hash s.work, phase := .next } := rfl
theorem exec_finish (s : State) : exec .finish s =
    .next { s with busy := false, done := true, phase := .idle } := rfl

/-! ### Indexing the register files -/

theorem hashAt_eq (s : State) {i : Nat} (h : i < 8) : s.hashAt i = s.hash[i] := by simp [State.hashAt, h]
theorem wAt_eq (s : State) {i : Nat} (h : i < 64) : s.wAt i = s.w[i] := by simp [State.wAt, h]
theorem bufAt_eq (s : State) {i : Nat} (h : i < 64) : s.bufAt i = s.buf[i] := by simp [State.bufAt, h]
theorem kAt_eq (s : State) {i : Nat} (h : i < 64) : s.kAt i = kTable.getD i 0 := by
  have h' : i < kTable.length := h
  simp [State.kAt, List.getD_eq_getElem?_getD, List.getElem?_eq_getElem h']

/-- An index `t - d` that does not wrap (R153). -/
theorem tMinus_eq (s : State) {d : Nat} (hd : d ≤ s.t.toNat) : s.tMinus d = s.t.toNat - d := by
  have := s.t.isLt
  rw [State.tMinus, BitVec.toNat_sub, BitVec.toNat_ofNat]
  omega

/-! ### The inversion of a step -/

/-- Everything a step can do (R13): a host access, the sequencer's turn, a reset, or another master's store. -/
theorem step_cases (s : State) :
    (∃ x es, s.agenda = .access x :: es ∧ step s = exec (decodeAccess x) s.turned) ∨
    ((s.agenda = [] ∨ ∃ es, s.agenda = .sequencer :: es) ∧ step s = exec s.phase.instr s.turned) ∨
    (∃ es, s.agenda = .reset :: es ∧ step s = .next s.turned.resetEvent) ∨
    (∃ a v es, s.agenda = .store a v :: es ∧ step s = s.turned.masterStore a v) := by
  unfold step State.fetchBytes State.environmentMove
  cases h : s.agenda with
  | nil => exact .inr (.inl ⟨.inl rfl, by simp⟩)
  | cons e es =>
    cases e with
    | access x => exact .inl ⟨x, es, rfl, by simp⟩
    | sequencer => exact .inr (.inl ⟨.inr ⟨es, rfl⟩, by simp⟩)
    | reset => exact .inr (.inr (.inl ⟨es, rfl, by simp⟩))
    | store a v => exact .inr (.inr (.inr ⟨a, v, es, rfl, by simp⟩))

/-- With nothing on the agenda, taking its head off changes nothing. -/
theorem turned_eq_self {s : State} (h : s.agenda = []) : s.turned = s := by
  cases s
  cases h
  rfl

/-- With nothing on the agenda the sequencer moves (log 2). -/
theorem step_of_agenda_nil {s : State} (h : s.agenda = []) : step s = exec s.phase.instr s := by
  unfold step State.fetchBytes
  simp [h, turned_eq_self h]

end Sys2Proof.Machine
end

