-- ==== Sys2Proof/Tests/Slice0.lean ====
section
/-! SUPPORT. Tests of the model. Every expected value is the spec's: an encoding of 30_encoding.md, a table or a worked
example of 95_test_vectors.md, or a value a rule prints. The last part shows, for every statement with hypotheses, states
that meet them. -/

namespace Sys2Proof.Tests

open Sys2Proof.Machine

/-! ### Helpers -/

/-- The outcome is a next state with a property. -/
def nextHolds (o : Host.Outcome State Fault Refusal) (p : State → Bool) : Bool :=
  match o with
  | .next s => p s
  | .fault _ => false
  | .refused _ => false

/-- The message "abc" at `0x1000` (95_test_vectors.md 2.2). -/
def abcMemory : Memory := [(0x1000, 0x61), (0x1001, 0x62), (0x1002, 0x63)]

/-- An idle block with the command of 95_test_vectors.md 2.2: `SRC = 0x1000`, `LEN = 3`, `DST = 0x2000`. -/
def abc : State := { State.reset with src := 0x1000, len := 3, dst := 0x2000, mem := abcMemory }

/-- The same just after START. -/
def started : State := abc.started

/-- A buffer of 64 equal bytes. -/
def bufOf (v : Byte) : Vector Byte 64 := Vector.replicate 64 v

/-- A schedule of 64 equal words. -/
def wOf (v : Word) : Vector Word 64 := Vector.replicate 64 v

/-- A busy block of that command in a phase, with its counters, flags, schedule and buffer clear. -/
def busyAt (p : Phase) : State :=
  { started with
    phase := p, hash := ivTable, fill := 0, t := 0, sidx := 0, padded := false, final := false, buf := bufOf 0, w := wOf 0 }

/-- `H` after the one chunk of "abc" (95_test_vectors.md 2.5). -/
def abcHash : Vector Word 8 :=
  #v[0xba7816bf, 0x8f01cfea, 0x414140de, 0x5dae2223, 0xb00361a3, 0x96177a9c, 0xb410ff61, 0xf20015ad]

/-- `a..h` after round 63 of "abc" (95_test_vectors.md 2.5). -/
def abcWork : Work :=
  ⟨0x506e3058, 0xd39a2165, 0x04d24d6c, 0xb85e2ce9, 0x5ef50f24, 0xfb121210, 0x948d25b6, 0x961f4894⟩

/-! ### WellFormed refuses ill-formed terms -/

theorem test_wellFormed_aw_zero : Platform.wellFormed { aw := 0, regions := [] } = false := by decide
theorem test_wellFormed_aw_65 : Platform.wellFormed { aw := 65, regions := [] } = false := by decide
theorem test_wellFormed_region_outside :
    Platform.wellFormed { aw := 16, regions := [{ base := 0xFFFF, size := 2, read := true, write := true }] } = false := by
  decide
theorem test_wellFormed_region_alone : Region.wellFormed 16 { base := 0x10000, size := 1, read := true, write := false } = false := by
  decide
theorem test_wellFormed_standard : Platform.standard.wellFormed = true := by decide
theorem test_wellFormed_poll_zero : (Pseudo.poll 0).wellFormed = false := by decide
theorem test_wellFormed_compute_zero : (Pseudo.compute 0 0 0 0).wellFormed = false := by decide

/-! ### Decoding: the words of 30_encoding.md R71 to R73, written out bit by bit -/

theorem test_decode_rdCtrl :
    decode (accessBytes 0b0_000_00000000000000000000000000000000#36) = .instr .rdCtrl := by decide
theorem test_decode_rdStatus :
    decode (accessBytes 0b0_001_00000000000000000000000000000000#36) = .instr .rdStatus := by decide
theorem test_decode_rdSrcLo :
    decode (accessBytes 0b0_010_00000000000000000000000000000000#36) = .instr .rdSrcLo := by decide
theorem test_decode_rdSrcHi :
    decode (accessBytes 0b0_011_00000000000000000000000000000000#36) = .instr .rdSrcHi := by decide
theorem test_decode_rdLenLo :
    decode (accessBytes 0b0_100_00000000000000000000000000000000#36) = .instr .rdLenLo := by decide
theorem test_decode_rdLenHi :
    decode (accessBytes 0b0_101_00000000000000000000000000000000#36) = .instr .rdLenHi := by decide
theorem test_decode_rdDstLo :
    decode (accessBytes 0b0_110_00000000000000000000000000000000#36) = .instr .rdDstLo := by decide
theorem test_decode_rdDstHi_ignores_wdata :
    decode (accessBytes 0b0_111_11111111111111111111111111111111#36) = .instr .rdDstHi := by decide
theorem test_decode_wrCtrl :
    decode (accessBytes 0b1_000_00000000000000000000000000000001#36) = .instr (.wrCtrl 1) := by decide
theorem test_decode_wrStatus :
    decode (accessBytes 0b1_001_11111111111111111111111111111111#36) = .instr (.wrStatus 0xFFFFFFFF) := by decide
theorem test_decode_wrSrcLo :
    decode (accessBytes 0b1_010_11011110101011011011111011101111#36) = .instr (.wrSrcLo 0xDEADBEEF) := by decide
theorem test_decode_wrSrcHi :
    decode (accessBytes 0b1_011_00010010001101000101011001111000#36) = .instr (.wrSrcHi 0x12345678) := by decide
theorem test_decode_wrLenLo :
    decode (accessBytes 0b1_100_00000000000000000000000000000011#36) = .instr (.wrLenLo 3) := by decide
theorem test_decode_wrLenHi :
    decode (accessBytes 0b1_101_00011111111111111111111111111111#36) = .instr (.wrLenHi 0x1FFFFFFF) := by decide
theorem test_decode_wrDstLo :
    decode (accessBytes 0b1_110_00000000000000000010000000000000#36) = .instr (.wrDstLo 0x2000) := by decide
theorem test_decode_wrDstHi :
    decode (accessBytes 0b1_111_10000000000000000000000000000000#36) = .instr (.wrDstHi 0x80000000) := by decide

theorem test_decode_idle : decode [0b00000000] = .instr .idle := by decide
theorem test_decode_init : decode [0b00000001] = .instr .init := by decide
theorem test_decode_fetch : decode [0b00000010] = .instr .fetch := by decide
theorem test_decode_pad80 : decode [0b00000011] = .instr .pad80 := by decide
theorem test_decode_padz : decode [0b00000100] = .instr .padz := by decide
theorem test_decode_padlen : decode [0b00000101] = .instr .padlen := by decide
theorem test_decode_wload : decode [0b00000110] = .instr .wload := by decide
theorem test_decode_wexp : decode [0b00000111] = .instr .wexp := by decide
theorem test_decode_seed : decode [0b00001000] = .instr .seed := by decide
theorem test_decode_round : decode [0b00001001] = .instr .round := by decide
theorem test_decode_addbk : decode [0b00001010] = .instr .addbk := by decide
theorem test_decode_next : decode [0b00001011] = .instr .next := by decide
theorem test_decode_ser : decode [0b00001100] = .instr .ser := by decide
theorem test_decode_finish : decode [0b00001101] = .instr .finish := by decide
theorem test_decode_code_14 : decode [0b00001110] = .refused .reservedPhase := by decide
theorem test_decode_code_15 : decode [0b00001111] = .refused .reservedPhase := by decide
theorem test_decode_no_bit_4 : decode [0b00010000] = .refused .notAPhaseCode := by decide
theorem test_decode_no_bit_36 : decode [0, 0, 0, 0, 0b00010000] = .refused .notAnAccess := by decide
theorem test_decode_two_bytes : decode [0, 0] = .refused .badLength := by decide

/-! ### The notation of host programs: 95_test_vectors.md section 3 -/

theorem test_line_wr_src_lo : (HostLine.wr .srcLo 0x1000).word = 0xA00001000 := by decide
theorem test_line_rd_status : (HostLine.rd .status).word = 0x100000000 := by decide

/-- The accesses 1 to 8 of program P3, as the one pseudo-instruction `COMPUTE 0x4000, 56, 0x4038` with one read. -/
theorem test_compute_expands :
    ((Pseudo.compute 0x4000 56 0x4038 1).expand.map HostLine.word) =
      [0xA00004000, 0xB00000000, 0xC00000038, 0xD00000000, 0xE00004038, 0xF00000000, 0x800000001, 0x100000000] := by
  decide

theorem test_poll_ends_on_done : pollEnds 2 = true ∧ pollEnds 1 = false := by decide

/-! ### Functions: 95_test_vectors.md 2.1, 2.4, 2.5 -/

theorem test_add32_wraps : add32 0x5be0cd19 0x961f4894 = 0xf20015ad := by decide
theorem test_rotr : rotr 0x61626380 7 = 0x00c2c4c7 ∧ rotr 0x510e527f 25 = 0x87293fa8 := by decide
theorem test_shr : shr 0x80000000 3 = 0x10000000 ∧ shr 0xffffffff 10 = 0x003fffff := by decide
theorem test_ssig : ssig0 0x12345678 = 0xe7fce6ee ∧ ssig1 0x12345678 = 0xa1f78649 := by decide
theorem test_bsig : bsig0 0x12345678 = 0x66146474 ∧ bsig1 0x12345678 = 0x3561abda := by decide
theorem test_ch_maj : ch 0x6a09e667 0xbb67ae85 0x3c6ef372 = 0x3e67b715 ∧
    maj 0x510e527f 0x9b05688c 0x1f83d9ab = 0x1b0758af := by decide
theorem test_truncation : truncAddr 32 0x0000000100001000 = 0x1000 ∧ truncAddr 16 0x00012345 = 0x2345 := by decide
theorem test_bitLength : bitLength 0x1fffffffffffffff = 0xfffffffffffffff8 := by decide

/-! ### The reference functions: the digests UTIL prints (95_test_vectors.md 1.1, 1.2) and chunk counts (1.4, 2.3) -/

theorem test_sha256_empty : sha256 [] =
    [0xe3, 0xb0, 0xc4, 0x42, 0x98, 0xfc, 0x1c, 0x14, 0x9a, 0xfb, 0xf4, 0xc8, 0x99, 0x6f, 0xb9, 0x24,
      0x27, 0xae, 0x41, 0xe4, 0x64, 0x9b, 0x93, 0x4c, 0xa4, 0x95, 0x99, 0x1b, 0x78, 0x52, 0xb8, 0x55] := by decide +kernel

theorem test_sha256_abc : sha256 [0x61, 0x62, 0x63] =
    [0xba, 0x78, 0x16, 0xbf, 0x8f, 0x01, 0xcf, 0xea, 0x41, 0x41, 0x40, 0xde, 0x5d, 0xae, 0x22, 0x23,
      0xb0, 0x03, 0x61, 0xa3, 0x96, 0x17, 0x7a, 0x9c, 0xb4, 0x10, 0xff, 0x61, 0xf2, 0x00, 0x15, 0xad] := by decide +kernel

theorem test_chunk_counts :
    (pad (List.replicate 55 0x61)).length = 1 ∧ (pad (List.replicate 56 0x61)).length = 2 ∧
    (pad (List.replicate 63 0x61)).length = 2 ∧ (pad (List.replicate 64 0x61)).length = 2 ∧
    (pad (List.replicate 120 0x61)).length = 3 := by decide +kernel

/-- The step counts of R262. -/
theorem test_step_counts :
    [0, 3, 55, 56, 57, 63, 64, 119, 120, 128].map stepCount = [169, 172, 224, 356, 357, 363, 365, 420, 552, 561] := by
  decide

/-! ### Host accesses: 95_test_vectors.md 2.2 -/

theorem test_rdCtrl : nextHolds (exec .rdCtrl started) (fun t => decide (t.trace = [.hostRead 0 0])) = true := by decide
theorem test_rdStatus_busy :
    nextHolds (exec .rdStatus started) (fun t => decide (t.trace = [.hostRead 1 0x00000001])) = true := by decide
theorem test_rdStatus_done : nextHolds (exec .rdStatus { abc with done := true })
    (fun t => decide (t.trace = [.hostRead 1 0x00000002]) && t.done) = true := by decide
theorem test_rdSrcLo : nextHolds (exec .rdSrcLo { abc with src := 0x12345678deadbeef })
    (fun t => decide (t.trace = [.hostRead 2 0xdeadbeef])) = true := by decide
theorem test_rdSrcHi : nextHolds (exec .rdSrcHi { abc with src := 0x12345678deadbeef })
    (fun t => decide (t.trace = [.hostRead 3 0x12345678])) = true := by decide
theorem test_rdLenLo : nextHolds (exec .rdLenLo { started with rem := 0 })
    (fun t => decide (t.trace = [.hostRead 4 0x00000003])) = true := by decide
theorem test_rdLenHi : nextHolds (exec .rdLenHi { abc with len := 0x1fffffffffffffff })
    (fun t => decide (t.trace = [.hostRead 5 0x1fffffff])) = true := by decide
theorem test_rdDstLo : nextHolds (exec .rdDstLo { abc with dst := 0x8000000000000001 })
    (fun t => decide (t.trace = [.hostRead 6 0x00000001])) = true := by decide
theorem test_rdDstHi : nextHolds (exec .rdDstHi { abc with dst := 0x8000000000000001 })
    (fun t => decide (t.trace = [.hostRead 7 0x80000000])) = true := by decide

/-- Row 32: START with bits 31:1 set too. -/
theorem test_wrCtrl_starts : nextHolds (exec (.wrCtrl 0xffffffff) { abc with done := true }) (fun t =>
    decide (t.ptr = 0x1000 ∧ t.rem = 3 ∧ t.total = 3 ∧ t.dptr = 0x2000 ∧ t.phase = .init) && t.busy && !t.done) = true := by
  decide
/-- Row 24: bit 0 is clear. -/
theorem test_wrCtrl_no_start :
    nextHolds (exec (.wrCtrl 0xfffffffe) abc) (fun t => decide (t = abc)) = true := by decide
theorem test_wrStatus : nextHolds (exec (.wrStatus 0xffffffff) { abc with done := true }) (fun t => t.done) = true := by decide
theorem test_wrSrcLo : nextHolds (exec (.wrSrcLo 0xdeadbeef) { abc with src := 0x1234567800001000 })
    (fun t => decide (t.src = 0x12345678deadbeef)) = true := by decide
theorem test_wrSrcHi : nextHolds (exec (.wrSrcHi 0x12345678) { abc with src := 0xdeadbeef })
    (fun t => decide (t.src = 0x12345678deadbeef)) = true := by decide
/-- Row 34: a write while busy. -/
theorem test_wrLenLo_busy :
    nextHolds (exec (.wrLenLo 5) started) (fun t => decide (t.len = 3)) = true := by decide
theorem test_wrLenLo : nextHolds (exec (.wrLenLo 0) { abc with done := true })
    (fun t => decide (t.len = 0) && t.done) = true := by decide
/-- Row 17: a length of `2^61` and more is stored. -/
theorem test_wrLenHi : nextHolds (exec (.wrLenHi 0x20000000) { abc with len := 0x1fffffffffffffff })
    (fun t => decide (t.len = 0x20000000ffffffff)) = true := by decide
theorem test_wrDstLo : nextHolds (exec (.wrDstLo 1) { abc with dst := 0x8000000000000000 })
    (fun t => decide (t.dst = 0x8000000000000001)) = true := by decide
theorem test_wrDstHi : nextHolds (exec (.wrDstHi 0x80000000) { abc with dst := 1 })
    (fun t => decide (t.dst = 0x8000000000000001)) = true := by decide

/-! ### Micro-operations: 95_test_vectors.md 2.3 to 2.6 -/

theorem test_idle : nextHolds (exec .idle State.reset) (fun t => decide (t = State.reset)) = true := by decide
theorem test_init : nextHolds (exec .init { busyAt .init with hash := abcHash, fill := 64, padded := true, final := true })
    (fun t => decide (t.hash[0] = 0x6a09e667 ∧ t.hash[7] = 0x5be0cd19 ∧ t.fill = 0 ∧ t.phase = .fetch)
      && !t.padded && !t.final) = true := by decide
/-- FETCH with `fill = 63`, `rem = 5`, `ptr = 0x103f`, `Mem[0x103f] = 0xaa`. -/
theorem test_fetch_reads :
    nextHolds (exec .fetch { busyAt .fetch with fill := 63, rem := 5, ptr := 0x103f, mem := [(0x103f, 0xaa)] }) (fun t =>
      decide (t.buf[63] = 0xaa ∧ t.fill = 64 ∧ t.rem = 4 ∧ t.ptr = 0x1040 ∧ t.phase = .fetch ∧
        t.trace = [.memRead 0x103f 0xaa])) = true := by decide
/-- FETCH with `fill = 64`, `rem = 0`: the test of `fill` comes first. -/
theorem test_fetch_full : nextHolds (exec .fetch { busyAt .fetch with fill := 64, rem := 0, t := 5 }) (fun t =>
    decide (t.t = 0 ∧ t.phase = .wload ∧ t.trace = [])) = true := by decide
theorem test_pad80_at_0 : nextHolds (exec .pad80 { busyAt .pad80 with fill := 0 }) (fun t =>
    decide (t.buf[0] = 0x80 ∧ t.fill = 1 ∧ t.phase = .padz) && t.padded) = true := by decide
theorem test_pad80_at_63 : nextHolds (exec .pad80 { busyAt .pad80 with fill := 63 }) (fun t =>
    decide (t.buf[63] = 0x80 ∧ t.fill = 64) && t.padded) = true := by decide
theorem test_padz_at_56 : nextHolds (exec .padz { busyAt .padz with fill := 56, buf := bufOf 0xff }) (fun t =>
    decide (t.buf = bufOf 0xff ∧ t.fill = 56 ∧ t.phase = .padlen)) = true := by decide
theorem test_padz_at_57 : nextHolds (exec .padz { busyAt .padz with fill := 57, buf := bufOf 0xff }) (fun t =>
    decide (t.buf[56] = 0xff ∧ t.buf[57] = 0 ∧ t.buf[63] = 0 ∧ t.fill = 64 ∧ t.t = 0 ∧ t.phase = .wload)
      && !t.final) = true := by decide
/-- PADLEN with `total = 2^29`: the length crosses into the upper word. -/
theorem test_padlen_crosses : nextHolds (exec .padlen { busyAt .padlen with total := 0x20000000, buf := bufOf 0xff }) (fun t =>
    decide (t.buf.toList.drop 55 = [0xff, 0, 0, 0, 1, 0, 0, 0, 0] ∧ t.fill = 64 ∧ t.t = 0) && t.final) = true := by decide
theorem test_padlen_largest : nextHolds (exec .padlen { busyAt .padlen with total := 0x1fffffffffffffff }) (fun t =>
    decide (t.buf.toList.drop 56 = [0xff, 0xff, 0xff, 0xff, 0xff, 0xff, 0xff, 0xf8])) = true := by decide
/-- The corners of 95_test_vectors.md 2.4: the first byte is the most significant. -/
theorem test_wload_first : nextHolds
    (exec .wload { busyAt .wload with t := 0, buf := ((bufOf 0).setIfInBounds 0 0xff).setIfInBounds 3 0x01 }) (fun t =>
      decide (t.w[0] = 0xff000001 ∧ t.t = 1 ∧ t.phase = .wload)) = true := by decide
theorem test_wload_last : nextHolds (exec .wload { busyAt .wload with t := 15, buf := (bufOf 0).setIfInBounds 63 0x18 })
    (fun t => decide (t.w[15] = 0x00000018 ∧ t.t = 16 ∧ t.phase = .wexp)) = true := by decide
/-- `W[18]` of "abc": `W[2] = 0`, `W[3] = 0`, `W[11] = 0`, `W[16] = 0x61626380`. -/
theorem test_wexp_18 : nextHolds (exec .wexp { busyAt .wexp with t := 18, w := (wOf 0).setIfInBounds 16 0x61626380 })
    (fun t => decide (t.w[18] = 0x7da86405 ∧ t.t = 19 ∧ t.phase = .wexp)) = true := by decide
/-- `W[63]` of "abc", from `W[47]`, `W[48]`, `W[56]`, `W[61]`. -/
theorem test_wexp_63 : nextHolds (exec .wexp { busyAt .wexp with
      t := 63
      w := ((((wOf 0).setIfInBounds 47 0x065c43da).setIfInBounds 48 0xfb3e89cb).setIfInBounds 56 0xef57b9cd).setIfInBounds
        61 0x668b2ff8 })
    (fun t => decide (t.w[63] = 0x12b1edeb ∧ t.t = 64 ∧ t.phase = .seed)) = true := by decide
theorem test_seed : nextHolds (exec .seed { busyAt .seed with hash := ivTable, t := 64 }) (fun t =>
    decide (t.work.a = 0x6a09e667 ∧ t.work.e = 0x510e527f ∧ t.work.h = 0x5be0cd19 ∧ t.t = 0 ∧ t.phase = .round)) = true := by
  decide
/-- Round 0 of "abc". -/
theorem test_round_0 : nextHolds
    (exec .round { busyAt .round with t := 0, work := workOfHash ivTable, w := (wOf 0).setIfInBounds 0 0x61626380 }) (fun t =>
      decide (t.work = ⟨0x5d6aebcd, 0x6a09e667, 0xbb67ae85, 0x3c6ef372, 0xfa2a4622, 0x510e527f, 0x9b05688c, 0x1f83d9ab⟩ ∧
        t.t = 1 ∧ t.phase = .round)) = true := by decide
/-- Round 63 of "abc", from row 62. -/
theorem test_round_63 : nextHolds (exec .round { busyAt .round with
      t := 63
      work := ⟨0xd39a2165, 0x04d24d6c, 0xb85e2ce9, 0xb6ae8fff, 0xfb121210, 0x948d25b6, 0x961f4894, 0xb21bad3d⟩
      w := (wOf 0).setIfInBounds 63 0x12b1edeb })
    (fun t => decide (t.work = abcWork ∧ t.t = 64 ∧ t.phase = .addbk)) = true := by decide
theorem test_addbk : nextHolds (exec .addbk { busyAt .addbk with hash := ivTable, work := abcWork }) (fun t =>
    decide (t.hash = abcHash ∧ t.phase = .next)) = true := by decide
theorem test_next_extra_chunk : nextHolds (exec .next { busyAt .next with padded := true, buf := bufOf 0xff }) (fun t =>
    decide (t.buf = bufOf 0 ∧ t.fill = 56 ∧ t.phase = .padlen)) = true := by decide
theorem test_next_full_chunk : nextHolds (exec .next { busyAt .next with fill := 64, buf := bufOf 0xff }) (fun t =>
    decide (t.buf = bufOf 0xff ∧ t.fill = 0 ∧ t.phase = .fetch)) = true := by decide
/-- The row `sidx = 7` of 95_test_vectors.md 2.6. -/
theorem test_ser_7 : nextHolds (exec .ser { busyAt .ser with hash := abcHash, sidx := 7 }) (fun t =>
    decide (t.trace = [.memWrite 0x2007 0xea] ∧ t.mem.lookup 0x2007 = some 0xea ∧ t.sidx = 8 ∧ t.phase = .ser)) = true := by
  decide
theorem test_ser_31 : nextHolds (exec .ser { busyAt .ser with hash := abcHash, sidx := 31 }) (fun t =>
    decide (t.trace = [.memWrite 0x201f 0xad] ∧ t.sidx = 32 ∧ t.phase = .finish)) = true := by decide
theorem test_finish : nextHolds (exec .finish (busyAt .finish)) (fun t =>
    !t.busy && t.done && decide (t.phase = .idle)) = true := by decide

/-! ### Steps -/

/-- The host's placing of a word: INIT, as the first step after reset. -/
theorem test_step_withFetchWord_phase : nextHolds (step (State.reset.withFetchWord 4 0x1)) (fun t =>
    decide (t.phase = .fetch ∧ t.hash = ivTable ∧ t.fill = 0 ∧ t.agenda = [])) = true := by decide
theorem test_step_withFetchWord_access : nextHolds (step (State.reset.withFetchWord 36 0xADEADBEEF)) (fun t =>
    decide (t.src = 0x00000000deadbeef ∧ t.agenda = [])) = true := by decide
/-- Program P5: a reset in mid-computation. -/
theorem test_reset_event : nextHolds (step { busyAt .round with agenda := [.reset] }) (fun t =>
    decide (t.phase = .idle ∧ t.src = 0 ∧ t.len = 0 ∧ t.dst = 0 ∧ t.mem = abcMemory) && !t.busy && !t.done) = true := by decide
theorem test_memory_canonical :
    ((Memory.store [] 5 1).store 3 2).store 5 7 = [(3, 2), (5, 7)] := by decide

/-! ### Witnesses: states and operands that meet the hypotheses of each statement -/

/-- A block in SER of the command of 2.2 with the message read. -/
def serializing : State :=
  { busyAt .ser with rem := 0, ptr := 0x1003, fill := 64, padded := true, final := true, hash := abcHash }

/-- A platform of 16 address bits whose last 32 bytes are the only writable ones, and whose first byte is the only
readable one. -/
def smallPlatform : Platform where
  aw := 16
  regions := [{ base := 0, size := 1, read := true, write := false }, { base := 0xFFE0, size := 32, read := false, write := true }]

/-- A one-byte message at address 0, whose digest goes to the last 32 addresses of 16 address bits: every bound of the
valid domain is met with equality or in its first byte. -/
def atTheEdges : State :=
  { State.reset with src := 0xABC0000, len := 1, dst := 0xFFE0, mem := [(0, 0x61)], platform := smallPlatform }

theorem abc_valid : ValidCommand abc :=
  ⟨by decide, ⟨by decide, by decide, by decide, by decide⟩, by decide, by decide⟩

theorem atTheEdges_valid : ValidCommand atTheEdges :=
  ⟨by decide, ⟨by decide, by decide, by decide, by decide⟩, by decide, by decide⟩

theorem started_phaseInv : PhaseInv started := by constructor <;> decide

theorem started_commandInv : CommandInv started := by
  refine ⟨by decide, fun _ => ⟨by decide, by decide, by decide, by decide⟩, ?_, ?_, ?_, ?_, ?_, ?_, ?_, ?_, ?_, ?_⟩ <;> decide

/-- `DecodeOfEncodeIsIdentity`: a well-formed instruction with an operand of ones. -/
theorem witness_DecodeOfEncodeIsIdentity : (Instr.wrDstHi 0xFFFFFFFF).wellFormed = true := by decide

/-- `EveryAccessDecodesByWeAndIdx` and `PhaseCodesDecode`: the largest `wdata`, and the first words that are none. -/
theorem witness_EveryAccessDecodesByWeAndIdx : (0xFFFFFFFF : Nat) < 2 ^ 32 ∧ 2 ^ 36 ≤ 0x1000000000 := by decide
theorem witness_PhaseCodesDecode : 16 ≤ 0x10 := by decide

/-- `EveryWordHasExactlyItsRow`: the last row of each format. -/
theorem witness_EveryWordHasExactlyItsRow : 15 < 16 ∧ 13 < 14 := by decide

/-- `RotateAndShiftBitByBit` and the statements on bits of a word: both ends of the ranges. -/
theorem witness_RotateAndShiftBitByBit : (0 < 1 ∧ 1 < 32 ∧ 0 < 32) ∧ (0 < 31 ∧ 31 < 32 ∧ 31 < 32) := by decide
theorem witness_ScheduleSigmasBitByBit : 0 < 32 ∧ 31 < 32 := by decide
theorem witness_RoundSigmasBitByBit : 0 < 32 ∧ 31 < 32 := by decide
theorem witness_ChoiceAndMajorityBitByBit : 0 < 32 ∧ 31 < 32 := by decide

/-- `TablesAreFractionsOfRootsOfPrimes`: 2 and 311 are primes below 312; both ends of the table. -/
theorem witness_TablesAreFractionsOfRootsOfPrimes :
    2 ∈ firstPrimes ∧ (311 < 312 ∧ Nat.Prime 311) ∧ 0 < 64 ∧ 63 < 64 := by
  refine ⟨by decide, ⟨by decide, ?_⟩, by decide, by decide⟩
  norm_num

/-- `OperandWritesSetTheirHalf`, `WriteToCtrlStarts`, `SetOperandsProgramSetsOperands`: idle and busy. -/
theorem witness_OperandWritesSetTheirHalf : abc.busy = false ∧ started.busy = true := by decide

/-- `WritesWhileBusyAreLost`: a busy state and a write; a busy state with an access first; the two ways out. -/
theorem witness_WritesWhileBusyAreLost_write : started.busy = true ∧ isHostWrite (.wrCtrl 1) = true := by decide
theorem witness_WritesWhileBusyAreLost_access :
    ∃ (s : State) (x : BitVec 36) (es : List Event), s.busy = true ∧ s.agenda = Event.access x :: es :=
  ⟨{ started with agenda := [.access 0x800000001] }, _, _, rfl, rfl⟩
theorem witness_WritesWhileBusyAreLost_finish : ∃ s t, s.busy = true ∧ step s = .next t ∧ t.busy = false :=
  ⟨busyAt .finish, _, rfl, rfl, rfl⟩
theorem witness_WritesWhileBusyAreLost_reset : ∃ s t, s.busy = true ∧ step s = .next t ∧ t.busy = false :=
  ⟨{ started with agenda := [.reset] }, _, rfl, rfl, rfl⟩

/-- `WriteToCtrlStarts`: valid commands, one of them at the edges of the domain; an invalid one; bit 0 clear; busy. -/
theorem witness_WriteToCtrlStarts_valid : abc.busy = false ∧ (0xffffffff : Word).toNat % 2 = 1 ∧ ValidOperands abc :=
  ⟨by decide, by decide, abc_valid.operands⟩
theorem witness_WriteToCtrlStarts_edges :
    atTheEdges.busy = false ∧ (1 : Word).toNat % 2 = 1 ∧ ValidOperands atTheEdges :=
  ⟨by decide, by decide, atTheEdges_valid.operands⟩
theorem witness_WriteToCtrlStarts_invalid : ∃ s : State, s.busy = false ∧ (1 : Word).toNat % 2 = 1 ∧ ¬ ValidOperands s :=
  ⟨{ abc with len := 0x2000000000000000 }, by decide, by decide, fun h => absurd h.length (by decide)⟩
theorem witness_WriteToCtrlStarts_no_start : abc.busy = true ∨ (0xfffffffe : Word).toNat % 2 = 0 := by decide
theorem witness_WriteToCtrlStarts_busy : started.busy = true ∨ (1 : Word).toNat % 2 = 0 := by decide

/-- `StartRefusalNamesTheViolation`: the four names, each one step outside the domain. -/
theorem witness_StartRefusal_length :
    exec (.wrCtrl 1) { abc with len := 0x2000000000000000 } = .refused .startLengthTooLarge := rfl
theorem witness_StartRefusal_message :
    exec (.wrCtrl 1) { abc with src := 0xFFFFFFFFFFFFFFFE } = .refused .startMessageWraps := rfl
theorem witness_StartRefusal_digest :
    exec (.wrCtrl 1) { abc with dst := 0xFFFFFFFFFFFFFFE1 } = .refused .startDigestWraps := rfl
theorem witness_StartRefusal_overlap :
    exec (.wrCtrl 1) { abc with dst := 0x1002 } = .refused .startRangesOverlap := rfl

/-- `HostCannotReachHiddenState`: two states with other hidden registers, and an access of one of them. -/
theorem witness_HostCannotReachHiddenState :
    ∃ t, Instr.rdStatus.format = .host ∧ SameButHidden abc { abc with hash := abcHash, work := abcWork, padded := false } ∧
      exec .rdStatus abc = .next t :=
  ⟨_, rfl, rfl, rfl⟩

/-- `SetOperandsProgramSetsOperands`: the six writes of program P3. -/
theorem witness_SetOperandsProgramSetsOperands : ∃ s : State, s.busy = false ∧
    s.agenda = ((Pseudo.setSrc 0x4000).expand ++ (Pseudo.setLen 56).expand ++ (Pseudo.setDst 0x4038).expand).map
      (fun l => Event.access l.word) :=
  ⟨{ State.reset with agenda := [.access 0xA00004000, .access 0xB00000000, .access 0xC00000038, .access 0xD00000000,
      .access 0xE00004038, .access 0xF00000000] }, by decide, by decide⟩

/-- The same six writes with the halves in the other order. -/
theorem witness_SetOperandsProgramSetsOperands_reversed : ∃ s : State, s.busy = false ∧
    s.agenda = ((Pseudo.setSrc 0x4000).expand.reverse ++ (Pseudo.setLen 56).expand.reverse
      ++ (Pseudo.setDst 0x4038).expand.reverse).map (fun l => Event.access l.word) :=
  ⟨{ State.reset with agenda := [.access 0xB00000000, .access 0xA00004000, .access 0xD00000000, .access 0xC00000038,
      .access 0xF00000000, .access 0xE00004038] }, by decide, by decide⟩

/-- `IdleStaysIdle`. -/
theorem witness_IdleStaysIdle : State.reset.phase = .idle ∧ State.reset.agenda = [] := by decide

/-- `FetchReadsOneByteOrDispatches`: each case, at the ends of the range of `fill`. -/
theorem witness_Fetch_full : { busyAt .fetch with fill := 64 }.fill.toNat = 64 := by decide
theorem witness_Fetch_exhausted :
    { busyAt .fetch with fill := 63, rem := 0 }.fill.toNat < 64 ∧ { busyAt .fetch with fill := 63, rem := 0 }.rem = 0 := by
  decide
theorem witness_Fetch_reads : (busyAt .fetch).fill.toNat < 64 ∧ (busyAt .fetch).rem ≠ 0 ∧
    (busyAt .fetch).readByte (busyAt .fetch).ptr.toNat = some 0x61 ∧ (busyAt .fetch).platform.aw ≤ 64 := by decide
theorem witness_Fetch_stuck : { busyAt .fetch with mem := [] }.fill.toNat < 64 ∧ { busyAt .fetch with mem := [] }.rem ≠ 0 ∧
    { busyAt .fetch with mem := [] }.readByte { busyAt .fetch with mem := [] }.ptr.toNat = none := by decide

/-- The block of 2.2 at the FETCH that finds the message exhausted. -/
def exhausted : State := { busyAt .fetch with fill := 3, rem := 0, ptr := 0x1003 }

theorem exhausted_commandInv : CommandInv exhausted := by
  refine ⟨by decide, fun _ => ⟨by decide, by decide, by decide, by decide⟩, ?_, ?_, ?_, ?_, ?_, ?_, ?_, ?_, ?_, ?_⟩ <;> decide
theorem witness_Fetch_handover : CommandInv exhausted ∧ exhausted.busy = true ∧ exhausted.phase = .fetch ∧
    exhausted.fill.toNat < 64 ∧ exhausted.rem = 0 :=
  ⟨exhausted_commandInv, by decide, by decide, by decide, by decide⟩

/-- `Pad80AppendsTheMarker`, `PadzFillsTo56OrTo64`: the ends of the ranges. -/
theorem witness_Pad80AppendsTheMarker : { busyAt .pad80 with fill := 63 }.fill.toNat ≤ 63 := by decide
theorem witness_Padz_same_chunk : { busyAt .padz with fill := 56 }.fill.toNat ≤ 56 := by decide
theorem witness_Padz_extra_chunk : 57 ≤ { busyAt .padz with fill := 57 }.fill.toNat := by decide
/-- `PadlenWritesTheBitLength`: positions on both sides of the length field. -/
theorem witness_PadlenWritesTheBitLength : (⟨55, by decide⟩ : Fin 64).val < 56 ∧ 56 ≤ (⟨56, by decide⟩ : Fin 64).val := by decide

/-- `NextChoosesWhatFollows`: each case. -/
theorem witness_Next_final : { busyAt .next with padded := true, final := true }.final = true := by decide
theorem witness_Next_padded :
    { busyAt .next with padded := true }.final = false ∧ { busyAt .next with padded := true }.padded = true := by decide
theorem witness_Next_neither : (busyAt .next).final = false ∧ (busyAt .next).padded = false := by decide
theorem witness_Next_invariant :
    ∃ s : State, PhaseInv s ∧ s.phase = .next ∧ s.final = true :=
  ⟨{ busyAt .next with padded := true, final := true }, by constructor <;> decide, by decide, by decide⟩

/-- `WloadPacksFourBytes`, `WexpAddsFourEarlierWords`, `RoundMixesTheWorkingVariables`: the ends of the range of `t`. -/
theorem witness_WloadPacksFourBytes : 0 ≤ 15 ∧ (busyAt .wload).t.toNat = 0 ∧ { busyAt .wload with t := 15 }.t.toNat = 15 := by
  decide
theorem witness_WexpAddsFourEarlierWords : 16 ≤ 16 ∧ 63 ≤ 63 ∧ { busyAt .wexp with t := 16 }.t.toNat = 16 ∧
    { busyAt .wexp with t := 63 }.t.toNat = 63 := by decide
theorem witness_RoundMixesTheWorkingVariables : 0 ≤ 63 ∧ { busyAt .round with t := 0 }.t.toNat = 0 ∧
    { busyAt .round with t := 63 }.t.toNat = 63 := by decide
/-- `SixteenWordWindowSuffices`: another schedule that agrees in the window of `t = 63`, and at the round's own index. -/
theorem witness_SixteenWordWindowSuffices_wexp : { busyAt .wexp with t := 63 }.t.toNat = 63 ∧
    ∀ j : Fin 64, 63 - 16 ≤ j.val → j.val < 63 → ((wOf 0).setIfInBounds 46 1)[j] = (busyAt .wexp).w[j] := by
  decide +kernel
theorem witness_SixteenWordWindowSuffices_round :
    (busyAt .round).t.toNat = 0 ∧ ((wOf 0).setIfInBounds 1 1)[0] = (busyAt .round).w[0] := by decide

/-- `SerWritesOneDigestByte`: the first and the last byte admitted, and a write that is not. -/
theorem witness_Ser_writes : serializing.sidx.toNat = 0 ∧ 0x2000 = (serializing.dptr.toNat + 0) % 2 ^ serializing.platform.aw ∧
    writable serializing.platform 0x2000 = true := by decide
theorem witness_Ser_writes_last : { serializing with sidx := 31 }.sidx.toNat = 31 ∧
    0x201f = ({ serializing with sidx := 31 }.dptr.toNat + 31) % 2 ^ serializing.platform.aw ∧
    writable serializing.platform 0x201f = true := by decide
theorem witness_Ser_stuck : ∃ s : State, 0x2000 = (s.dptr.toNat + s.sidx.toNat) % 2 ^ s.platform.aw ∧
    writable s.platform 0x2000 = false :=
  ⟨{ serializing with platform := smallPlatform }, by decide, by decide⟩
theorem witness_FinishSetsDone : (busyAt .finish).agenda = [] := by decide

/-- `ControlGraphIsTheTable`: states of the invariant whose step moves, and two whose access is not admitted. -/
theorem witness_ControlGraph_moves : PhaseInv started ∧ PhaseInv (busyAt .fetch) ∧ PhaseInv serializing :=
  ⟨started_phaseInv, by constructor <;> decide, by constructor <;> decide⟩
theorem witness_ControlGraph_fetch_stuck : ∃ s : State, PhaseInv s ∧ s.phase = .fetch ∧ s.fill.toNat < 64 ∧ s.rem ≠ 0 ∧
    s.readByte s.ptr.toNat = none :=
  ⟨{ busyAt .fetch with mem := [] }, by constructor <;> decide, by decide, by decide, by decide, by decide⟩
theorem witness_ControlGraph_ser_stuck : ∃ s : State, PhaseInv s ∧ s.phase = .ser ∧ writable s.platform s.serAddress = false :=
  ⟨{ serializing with platform := smallPlatform }, by constructor <;> decide, by decide, by decide⟩
theorem witness_ControlGraph_host :
    ∃ t, PhaseInv abc ∧ (Instr.wrCtrl 1).format = .host ∧ abc.phase = .idle ∧ (1 : Word).toNat % 2 = 1 ∧
      exec (.wrCtrl 1) abc = .next t ∧ t.phase = .init :=
  ⟨_, by constructor <;> decide, by decide, by decide, by decide, rfl, by decide⟩

/-- `StepRunsTheDecodedInstruction`: the three places an instruction comes from. -/
theorem witness_Step_access : ∃ (s : State) (x : BitVec 36) (es : List Event), s.agenda = Event.access x :: es ∧ decode (accessBytes x) = .instr .rdStatus :=
  ⟨{ abc with agenda := [.access 0x100000000] }, 0x100000000, [], rfl, by decide⟩
theorem witness_Step_sequencer :
    ∃ (s : State) (es : List Event), s.agenda = Event.sequencer :: es ∧ decode (phaseBytes s.phase) = .instr .init :=
  ⟨{ started with agenda := [.sequencer] }, [], rfl, by decide⟩
theorem witness_Step_empty : started.agenda = [] ∧ decode (phaseBytes started.phase) = .instr .init := by decide

/-- `ResetClearsControlAndOperands`: in mid-computation, and with nothing after it. -/
theorem witness_ResetClearsControlAndOperands : { busyAt .round with agenda := [.reset] }.agenda = .reset :: [] := by decide

/-- `OtherMasterStoresAreSeenAtOnce`: the last address that exists, and the first that does not. -/
theorem witness_OtherMasterStores : ∃ s : State, s.agenda = .store 0xFFFF 0xaa :: [] ∧ 0xFFFF < 2 ^ s.platform.aw :=
  ⟨{ atTheEdges with agenda := [.store 0xFFFF 0xaa] }, rfl, by decide⟩
theorem witness_OtherMasterStores_outside : ∃ s : State, s.agenda = .store 0x10000 0xaa :: [] ∧ 2 ^ s.platform.aw ≤ 0x10000 :=
  ⟨{ atTheEdges with agenda := [.store 0x10000 0xaa] }, rfl, by decide⟩

/-- `OnlySerWritesAndOnlyFetchReads`, `DoneIsSticky`, `OperandsAreStable`: steps of each kind. -/
theorem witness_step_ser : ∃ t, step serializing = .next t ∧ t.mem = serializing.mem.store 0x2000 0xba :=
  ⟨_, rfl, by decide⟩
theorem witness_step_fetch : ∃ t, step (busyAt .fetch) = .next t ∧ t.trace = [.memRead 0x1000 0x61] := ⟨_, rfl, by decide⟩
theorem witness_step_store : ∃ t, step { started with agenda := [.store 0x1000 0xaa] } = .next t ∧
    t.mem.lookup 0x1000 = some 0xaa := ⟨_, rfl, by decide⟩

/-- `DoneIsSticky`: cleared by START, cleared by reset, set by FINISH; a START to come. -/
theorem witness_DoneIsSticky_start : ∃ s t, step s = .next t ∧ s.done = true ∧ t.done = false ∧ s.startComing :=
  ⟨{ abc with done := true, agenda := [.access 0x800000001] }, _, rfl, by decide, by decide,
    by decide, 0x800000001, [], 1, by decide, by decide, by decide⟩
theorem witness_DoneIsSticky_reset : ∃ s t, step s = .next t ∧ s.done = true ∧ t.done = false :=
  ⟨{ abc with done := true, agenda := [.reset] }, _, rfl, by decide, by decide⟩
theorem witness_DoneIsSticky_finish : ∃ t, step (busyAt .finish) = .next t ∧ (busyAt .finish).done = false ∧ t.done = true :=
  ⟨_, rfl, by decide, by decide⟩
theorem witness_OperandsAreStable : ∃ t, step started = .next t ∧ (started.busy = true ∨ started.sequencerTurn) :=
  ⟨_, rfl, .inl (by decide)⟩
theorem witness_OperandsAreStable_turn : ∃ t, step abc = .next t ∧ (abc.busy = true ∨ abc.sequencerTurn) :=
  ⟨_, rfl, .inr (.inl rfl)⟩

/-- The three invariants, in a state where the hypotheses are not empty: SER writes and the invariants hold. -/
theorem witness_StepKeepsMemoryInvariant : ∃ t, MemoryInv serializing ∧ step serializing = .next t :=
  ⟨_, ⟨by decide, by decide⟩, rfl⟩
theorem witness_StepKeepsPhaseInvariant : ∃ t, PhaseInv started ∧ step started = .next t := ⟨_, started_phaseInv, rfl⟩
theorem witness_StepKeepsCommandInvariant : ∃ t, PhaseInv started ∧ CommandInv started ∧ step started = .next t :=
  ⟨_, started_phaseInv, started_commandInv, rfl⟩
theorem witness_StatusReadsZeroOneOrTwo : PhaseInv started ∧ PhaseInv { abc with done := true } :=
  ⟨started_phaseInv, by constructor <;> decide⟩

/-- The refinement statements. -/
theorem witness_ScheduleMeetsItsRecurrence : 0 < 16 ∧ 15 < 16 ∧ (16 ≤ 16 ∧ 16 < 64) ∧ (16 ≤ 63 ∧ 63 < 64) := by decide
theorem witness_PadMakesWholeChunks : (List.replicate 56 (0x61 : Byte)).length ≤ 2 ^ 61 - 1 := by decide
theorem witness_ScheduleStepsComputeSchedule :
    (busyAt .wload).agenda = [] ∧ (busyAt .wload).phase = .wload ∧ (busyAt .wload).t = 0 := by decide
theorem witness_CompressionStepsComputeCompress : ∃ s : State, s.agenda = [] ∧ s.phase = .wload ∧ s.t = 0 ∧ s.buf = bufOf 0xff :=
  ⟨{ busyAt .wload with buf := bufOf 0xff }, by decide, by decide, by decide, rfl⟩
theorem witness_SerStepsWriteTheDigest : serializing.agenda = [] ∧ serializing.phase = .ser ∧ serializing.sidx = 0 ∧
    serializing.dptr.toNat + 32 ≤ 2 ^ serializing.platform.aw ∧
    (∀ j, j < 32 → writable serializing.platform (serializing.dptr.toNat + j) = true) := by decide
theorem witness_ChunksAreThoseOfPad : ∃ t u, abc.agenda = [] ∧ abc.busy = false ∧ ValidCommand abc ∧
    exec (.wrCtrl 1) abc = .next t ∧ t.busy = true ∧ runSteps 8 t = .next u ∧ u.phase = .wload ∧ u.t = 0 :=
  ⟨_, _, rfl, rfl, abc_valid, rfl, by decide, rfl, by decide, by decide⟩
theorem witness_ComputationWritesTheSha256Digest :
    abc.agenda = [] ∧ abc.busy = false ∧ (1 : Word).toNat % 2 = 1 ∧ ValidCommand abc :=
  ⟨rfl, rfl, by decide, abc_valid⟩
theorem witness_ComputationWritesTheSha256Digest_edges :
    atTheEdges.agenda = [] ∧ atTheEdges.busy = false ∧ (1 : Word).toNat % 2 = 1 ∧ ValidCommand atTheEdges :=
  ⟨rfl, rfl, by decide, atTheEdges_valid⟩
/-- The last step before FINISH, and the command of a computation's accesses. -/
theorem witness_ComputationIsBusyUntilFinish : abc.agenda = [] ∧ abc.busy = false ∧ (1 : Word).toNat % 2 = 1 ∧
    ValidCommand abc ∧ 171 < stepCount abc.len.toNat :=
  ⟨rfl, rfl, by decide, abc_valid, by decide⟩
theorem witness_ComputationAccessesMemoryInOrder :
    abc.agenda = [] ∧ abc.busy = false ∧ (1 : Word).toNat % 2 = 1 ∧ ValidCommand abc :=
  ⟨rfl, rfl, by decide, abc_valid⟩
theorem witness_UnadmittedAccessIsStuck_fetch : ∃ s : State, s.agenda = [] ∧ s.phase = .fetch ∧ s.fill.toNat < 64 ∧ s.rem ≠ 0 ∧
    s.readByte s.ptr.toNat = none :=
  ⟨{ busyAt .fetch with mem := [] }, by decide, by decide, by decide, by decide, by decide⟩
theorem witness_UnadmittedAccessIsStuck_ser : ∃ s : State, s.agenda = [] ∧ s.phase = .ser ∧
    writable s.platform ((s.dptr.toNat + s.sidx.toNat) % 2 ^ s.platform.aw) = false :=
  ⟨{ serializing with platform := smallPlatform }, by decide, by decide, by decide⟩
/-- Two idle states with other leftovers, and a START to come in both. -/
theorem witness_HiddenLeftoversAreNeverSeen : ∃ s1 s2 t : State, s1.phase = .idle ∧ s1.busy = false ∧ SameButHidden s1 s2 ∧
    runSteps 1 s1 = .next t ∧ t.busy = true ∧ s1.hash ≠ s2.hash :=
  ⟨{ abc with agenda := [.access 0x800000001] },
    { abc with agenda := [.access 0x800000001], hash := abcHash, buf := bufOf 0xff, fill := 64, padded := false, final := false },
    _, rfl, rfl, rfl, rfl, by decide, by decide⟩
/-- A read between two turns of a busy block. -/
theorem witness_InterleavedReadsChangeNothing : ∃ s : State, s.busy = true ∧ s.agenda ≠ [] ∧
    ∀ e ∈ s.agenda, e.readOrTurn = true :=
  ⟨{ started with agenda := [.sequencer, .access 0x100000000, .sequencer] }, by decide, by decide, by decide⟩

end Sys2Proof.Tests
end

section
/-! SUPPORT. Rotation and shift as the spec describes them, bit by bit and as a number (R10, R11). -/

namespace Sys2Proof.Machine

/-- The spec's rotation (R10) is the library's. -/
theorem rotr_eq_rotateRight (x : Word) {n : Nat} (hn : n < 32) : rotr x n = x.rotateRight n := by
  rw [BitVec.rotateRight_def, Nat.mod_eq_of_lt hn, rotr]

theorem rotr_getLsbD (x : Word) {n i : Nat} (hn : n < 32) (hi : i < 32) :
    (rotr x n).getLsbD i = x.getLsbD ((i + n) % 32) := by
  rw [rotr_eq_rotateRight x hn, BitVec.getLsbD_rotateRight, Nat.mod_eq_of_lt hn]
  by_cases hlow : i < 32 - n
  · have hmod : (i + n) % 32 = n + i := by omega
    rw [decide_eq_true hlow, cond_true, hmod]
  · have hmod : (i + n) % 32 = i - (32 - n) := by omega
    rw [decide_eq_false hlow, cond_false, decide_eq_true hi, Bool.true_and, hmod]

theorem shr_toNat (x : Word) (n : Nat) : (shr x n).toNat = x.toNat / 2 ^ n := by
  rw [shr, BitVec.toNat_ushiftRight, Nat.shiftRight_eq_div_pow]

/-- Settles O6: rotation is the library's, a shift divides. -/
theorem rotateAndShiftBitByBit : Obligations.RotateAndShiftBitByBit :=
  fun x n _ _ hn hi => ⟨rotr_getLsbD x hn hi, shr_toNat x n⟩

end Sys2Proof.Machine
end

section
/-! SUPPORT. What a step runs for each head of the agenda, and that every micro-operation and every host read
completes. -/

namespace Sys2Proof.Machine

theorem turned_of_agenda_cons {s : State} {e : Event} {es : List Event} (h : s.agenda = e :: es) :
    s.turned = { s with agenda := es } := by
  simp only [State.turned, h, List.tail_cons]

/-- An access at the head of the agenda is performed (R13, R71). -/
theorem step_of_access {s : State} {x : BitVec 36} {es : List Event} (h : s.agenda = .access x :: es) :
    step s = exec (decodeAccess x) { s with agenda := es } := by
  simp only [step, State.fetchBytes, h, decode_accessBytes, turned_of_agenda_cons h]

/-- A turn at the head of the agenda is the micro-operation of `phase` (R13, R31). -/
theorem step_of_sequencer {s : State} {es : List Event} (h : s.agenda = .sequencer :: es) :
    step s = exec s.phase.instr { s with agenda := es } := by
  simp only [step, State.fetchBytes, h, decode_phaseBytes, turned_of_agenda_cons h]

/-- The 36 bits of format H always select a host access (R71). -/
theorem decodeAccess_format (x : BitVec 36) : (decodeAccess x).format = .host := by
  unfold decodeAccess
  cases hostRegOfIndex (x.extractLsb' 32 3) <;> cases x.getLsbD 35 <;> rfl

/-- With `we = 0` they select a read (R71). -/
theorem decodeAccess_of_read {x : BitVec 36} (h : x.getLsbD 35 = false) :
    decodeAccess x = (hostRegOfIndex (x.extractLsb' 32 3)).readInstr := by
  simp only [decodeAccess, h, Bool.false_eq_true, if_false]

/-- Every host read completes and only shows a value (R90). -/
theorem exec_readInstr (r : HostReg) (s : State) : ∃ idx v, exec r.readInstr s = .next (s.returns idx v) := by
  cases r with
  | ctrl => exact ⟨_, _, exec_rdCtrl s⟩
  | status => exact ⟨_, _, exec_rdStatus s⟩
  | srcLo => exact ⟨_, _, exec_rdSrcLo s⟩
  | srcHi => exact ⟨_, _, exec_rdSrcHi s⟩
  | lenLo => exact ⟨_, _, exec_rdLenLo s⟩
  | lenHi => exact ⟨_, _, exec_rdLenHi s⟩
  | dstLo => exact ⟨_, _, exec_rdDstLo s⟩
  | dstHi => exact ⟨_, _, exec_rdDstHi s⟩

/-! ### Equations of the micro-operations that branch -/

theorem exec_fetch_full {s : State} (h : s.fill = 64) : exec .fetch s = .next s.enterWload := by
  simp only [exec, execFetch, if_pos h]

theorem exec_fetch_exhausted {s : State} (h : s.fill ≠ 64) (hr : s.rem = 0) :
    exec .fetch s = .next { s with phase := .pad80 } := by
  simp only [exec, execFetch, if_neg h, if_pos hr]

theorem exec_fetch_read {s : State} {v : Byte} (h : s.fill ≠ 64) (hr : s.rem ≠ 0)
    (hv : s.readByte s.ptr.toNat = some v) : exec .fetch s = .next (s.fetched v) := by
  simp only [exec, execFetch, if_neg h, if_neg hr, hv]

theorem exec_fetch_stuck {s : State} (h : s.fill ≠ 64) (hr : s.rem ≠ 0)
    (hv : s.readByte s.ptr.toNat = none) : exec .fetch s = .next s := by
  simp only [exec, execFetch, if_neg h, if_neg hr, hv, notEnabled]

theorem exec_padz_short {s : State} (h : s.fill.toNat ≤ 56) : exec .padz s =
    .next { s with buf := zeroRun s.buf s.fill.toNat 56, fill := 56, phase := .padlen } := by
  simp only [exec, execPadz, if_pos h]

theorem exec_padz_long {s : State} (h : ¬ s.fill.toNat ≤ 56) : exec .padz s =
    .next { s with buf := zeroRun s.buf s.fill.toNat 64, fill := 64, t := 0, phase := .wload } := by
  simp only [exec, execPadz, if_neg h, State.enterWload]

theorem exec_next_final {s : State} (h : s.final = true) :
    exec .next s = .next { s with sidx := 0, phase := .ser } := by
  simp only [exec, execNext, if_pos h]

theorem exec_next_padded {s : State} (h : s.final = false) (hp : s.padded = true) :
    exec .next s = .next { s with buf := zeroRun s.buf 0 64, fill := 56, phase := .padlen } := by
  simp only [exec, execNext, h, hp, Bool.false_eq_true, if_false, if_true]

theorem exec_next_more {s : State} (h : s.final = false) (hp : s.padded = false) :
    exec .next s = .next { s with fill := 0, phase := .fetch } := by
  simp only [exec, execNext, h, hp, Bool.false_eq_true, if_false]

theorem exec_ser_write {s : State} (h : writable s.platform s.serAddress = true) :
    exec .ser s = .next s.serialized := by
  simp only [exec, execSer, if_pos h]

theorem exec_ser_stuck {s : State} (h : writable s.platform s.serAddress = false) : exec .ser s = .next s := by
  simp only [exec, execSer, notEnabled, h, Bool.false_eq_true, if_false]

/-! ### The sequencer reads neither the agenda nor the trace -/

/-- The state with another agenda and another trace. -/
def State.atPort (s : State) (es : List Event) (tr : List Observation) : State :=
  { s with agenda := es, trace := tr }

/-- From `s` the instruction leads to `t` and shows the observations `new`, whatever the agenda and the trace. -/
def RunsApartFromPort (i : Instr) (s t : State) (new : List Observation) : Prop :=
  ∀ es tr, exec i (s.atPort es tr) = .next (t.atPort es (new ++ tr))

theorem RunsApartFromPort.exec_eq {i : Instr} {s t : State} {new : List Observation}
    (h : RunsApartFromPort i s t new) : exec i s = .next (t.atPort s.agenda (new ++ s.trace)) :=
  h s.agenda s.trace

/-- FETCH shows the byte it reads, if it reads one (R122). -/
theorem fetch_runsApartFromPort (s : State) : ∃ t new, RunsApartFromPort .fetch s t new := by
  by_cases hfull : s.fill = 64
  · exact ⟨s.enterWload, [], fun es tr => exec_fetch_full (s := s.atPort es tr) hfull⟩
  by_cases hrem : s.rem = 0
  · exact ⟨{ s with phase := .pad80 }, [], fun es tr => exec_fetch_exhausted (s := s.atPort es tr) hfull hrem⟩
  cases hread : s.readByte s.ptr.toNat with
  | some v =>
    exact ⟨s.fetched v, [.memRead s.ptr.toNat v],
      fun es tr => exec_fetch_read (s := s.atPort es tr) hfull hrem hread⟩
  | none => exact ⟨s, [], fun es tr => exec_fetch_stuck (s := s.atPort es tr) hfull hrem hread⟩

theorem padz_runsApartFromPort (s : State) : ∃ t, RunsApartFromPort .padz s t [] := by
  by_cases h : s.fill.toNat ≤ 56
  · exact ⟨{ s with buf := zeroRun s.buf s.fill.toNat 56, fill := 56, phase := .padlen },
      fun es tr => exec_padz_short (s := s.atPort es tr) h⟩
  · exact ⟨{ s with buf := zeroRun s.buf s.fill.toNat 64, fill := 64, t := 0, phase := .wload },
      fun es tr => exec_padz_long (s := s.atPort es tr) h⟩

theorem next_runsApartFromPort (s : State) : ∃ t, RunsApartFromPort .next s t [] := by
  cases hfinal : s.final with
  | true =>
    exact ⟨{ s with sidx := 0, phase := .ser }, fun es tr => exec_next_final (s := s.atPort es tr) hfinal⟩
  | false =>
    cases hpadded : s.padded with
    | true =>
      exact ⟨{ s with buf := zeroRun s.buf 0 64, fill := 56, phase := .padlen },
        fun es tr => exec_next_padded (s := s.atPort es tr) hfinal hpadded⟩
    | false =>
      exact ⟨{ s with fill := 0, phase := .fetch },
        fun es tr => exec_next_more (s := s.atPort es tr) hfinal hpadded⟩

/-- SER shows the byte it writes, if it writes one (R200). -/
theorem ser_runsApartFromPort (s : State) : ∃ t new, RunsApartFromPort .ser s t new := by
  cases h : writable s.platform s.serAddress with
  | true =>
    exact ⟨s.serialized, [.memWrite s.serAddress s.serByte], fun es tr => exec_ser_write (s := s.atPort es tr) h⟩
  | false => exact ⟨s, [], fun es tr => exec_ser_stuck (s := s.atPort es tr) h⟩

/-- Every micro-operation of the sequencer completes, apart from the agenda and the trace (R120). -/
theorem turn_runsApartFromPort (p : Phase) (s : State) : ∃ t new, RunsApartFromPort p.instr s t new := by
  cases p with
  | idle => exact ⟨s, [], fun _ _ => rfl⟩
  | init => exact ⟨{ s with hash := ivTable, fill := 0, padded := false, final := false, phase := .fetch }, [],
      fun _ _ => rfl⟩
  | fetch => exact fetch_runsApartFromPort s
  | pad80 => exact ⟨{ s with
      buf := s.buf.setIfInBounds s.fill.toNat 0x80, fill := s.fill + 1, padded := true, phase := .padz }, [],
      fun _ _ => rfl⟩
  | padz => exact (padz_runsApartFromPort s).imp fun _ h => ⟨[], h⟩
  | padlen => exact ⟨{ s with
      buf := lengthField s.buf (bitLength s.total), fill := 64, final := true, t := 0, phase := .wload }, [],
      fun _ _ => rfl⟩
  | wload => exact ⟨{ s with
      w := s.w.setIfInBounds s.t.toNat s.loadedWord, t := s.t + 1,
      phase := if s.t = 15 then .wexp else .wload }, [], fun _ _ => rfl⟩
  | wexp => exact ⟨{ s with
      w := s.w.setIfInBounds s.t.toNat s.expandedWord, t := s.t + 1,
      phase := if s.t = 63 then .seed else .wexp }, [], fun _ _ => rfl⟩
  | seed => exact ⟨{ s with work := workOfHash s.hash, t := 0, phase := .round }, [], fun _ _ => rfl⟩
  | round => exact ⟨{ s with
      work := roundWork s.work (s.kAt s.t.toNat) (s.wAt s.t.toNat), t := s.t + 1,
      phase := if s.t = 63 then .addbk else .round }, [], fun _ _ => rfl⟩
  | addbk => exact ⟨{ s with hash := addWork s.hash s.work, phase := .next }, [], fun _ _ => rfl⟩
  | next => exact (next_runsApartFromPort s).imp fun _ h => ⟨[], h⟩
  | ser => exact ser_runsApartFromPort s
  | finish => exact ⟨{ s with busy := false, done := true, phase := .idle }, [], fun _ _ => rfl⟩

/-! ### No step is undecodable -/

/-- START's refusals are the four of R221. -/
theorem startRefusal_ne_undecodable (s : State) : s.startRefusal ≠ some .undecodable := by
  unfold State.startRefusal
  split_ifs <;> simp

theorem exec_host_ne_undecodable {i : Instr} (hi : i.format = .host) (s : State) :
    exec i s ≠ .refused .undecodable := by
  rcases exec_host_cases hi s with ⟨_, _, h⟩ | h | ⟨_, _, h⟩ | ⟨_, _, h⟩ | ⟨_, _, h⟩ | ⟨_, _, _, _, _, h⟩ |
    ⟨_, r, _, _, _, hr, h⟩
  case inr.inr.inr.inr.inr.inr =>
    rw [h]
    rintro ⟨⟩
    exact startRefusal_ne_undecodable s hr
  all_goals simp [h]

theorem step_ne_undecodable (s : State) : step s ≠ .refused .undecodable := by
  rcases step_cases s with ⟨x, _, _, h⟩ | ⟨_, h⟩ | ⟨_, _, h⟩ | ⟨a, v, _, _, h⟩
  case inl => exact h ▸ exec_host_ne_undecodable (decodeAccess_format x) s.turned
  case inr.inl =>
    obtain ⟨t, new, ht⟩ := turn_runsApartFromPort s.phase s.turned
    simp [h, ht.exec_eq]
  case inr.inr.inl => simp [h]
  case inr.inr.inr =>
    rcases masterStore_cases s.turned a v with ⟨_, hs⟩ | ⟨_, hs⟩ <;> simp [h, hs]

/-- Settles O35: the bytes of the head of the agenda, or of `phase`, decode to what the step runs. -/
theorem stepRunsTheDecodedInstruction : Obligations.StepRunsTheDecodedInstruction := by
  refine ⟨fun s x es i hs hi => ?access, fun s es i hs hi => ?turn, fun s i hs hi => ?alone, step_ne_undecodable⟩
  case access =>
    obtain rfl : decodeAccess x = i := by simpa using hi
    exact step_of_access hs
  case turn =>
    obtain rfl : s.phase.instr = i := by simpa using hi
    exact step_of_sequencer hs
  case alone =>
    obtain rfl : s.phase.instr = i := by simpa using hi
    exact step_of_agenda_nil hs

end Sys2Proof.Machine
end

section
/-! SUPPORT. A run with host reads between the sequencer's turns, beside the run of those turns alone (R14, R90,
R223). -/

namespace Sys2Proof.Machine

@[simp] theorem turnsIn_nil : turnsIn [] = 0 := rfl
@[simp] theorem turnsIn_access (x : BitVec 36) (es : List Event) : turnsIn (.access x :: es) = turnsIn es := rfl
@[simp] theorem turnsIn_sequencer (es : List Event) : turnsIn (.sequencer :: es) = turnsIn es + 1 := rfl

@[simp] theorem memoryAccesses_hostRead (idx : BitVec 3) (v : Word) (tr : List Observation) :
    memoryAccesses (.hostRead idx v :: tr) = memoryAccesses tr := rfl

theorem memoryAccesses_append (new tr : List Observation) :
    memoryAccesses (new ++ tr) = memoryAccesses new ++ memoryAccesses tr := List.filter_append ..

theorem runSteps_succ_of_step {s t : State} (h : step s = .next t) (n : Nat) :
    runSteps (n + 1) s = runSteps n t := by
  rw [runSteps, h]

/-- A host read that comes next shows a value and changes nothing else (R90). -/
theorem step_read_atPort {x : BitVec 36} (hx : x.getLsbD 35 = false) (s : State) (es : List Event)
    (tr : List Observation) :
    ∃ idx v, step (s.atPort (.access x :: es) tr) = .next (s.atPort es (.hostRead idx v :: tr)) := by
  rw [step_of_access (es := es) rfl, decodeAccess_of_read hx]
  exact exec_readInstr _ (s.atPort es tr)

/-- A turn leads to one state and shows one list of observations, whether it stands on the agenda or the agenda is
empty (log 1, log 2). -/
theorem step_turn_atPort (s : State) : ∃ (t : State) (new : List Observation),
    (∀ es tr, step (s.atPort (.sequencer :: es) tr) = .next (t.atPort es (new ++ tr))) ∧
    ∀ tr, step (s.atPort [] tr) = .next (t.atPort [] (new ++ tr)) := by
  obtain ⟨t, new, h⟩ := turn_runsApartFromPort s.phase s
  refine ⟨t, new, fun es tr => ?_, fun tr => ?_⟩
  · rw [step_of_sequencer (es := es) rfl]
    exact h es tr
  · rw [step_of_agenda_nil rfl]
    exact h [] tr

/-- The two runs stay in lockstep: from one state with two traces that show the same accesses of `Mem`, they lead to one
state with two such traces. -/
theorem run_with_reads_beside_turns (es : List Event) (hes : ∀ e ∈ es, e.readOrTurn = true) (s : State)
    (tr₁ tr₂ : List Observation) (htr : memoryAccesses tr₁ = memoryAccesses tr₂) :
    ∃ (t : State) (tr₁' tr₂' : List Observation), runSteps es.length (s.atPort es tr₁) = .next (t.atPort [] tr₁') ∧
      runSteps (turnsIn es) (s.atPort [] tr₂) = .next (t.atPort [] tr₂') ∧
      memoryAccesses tr₁' = memoryAccesses tr₂' := by
  induction es generalizing s tr₁ tr₂ with
  | nil => exact ⟨s, tr₁, tr₂, rfl, rfl, htr⟩
  | cons e es ih =>
    obtain ⟨he, hrest⟩ := List.forall_mem_cons.mp hes
    cases e with
    | access x =>
      have hx : x.getLsbD 35 = false := by simpa [Event.readOrTurn] using he
      obtain ⟨idx, v, hstep⟩ := step_read_atPort hx s es tr₁
      rw [List.length_cons, runSteps_succ_of_step hstep, turnsIn_access]
      exact ih hrest s _ tr₂ htr
    | sequencer =>
      obtain ⟨t, new, hturn, halone⟩ := step_turn_atPort s
      rw [List.length_cons, runSteps_succ_of_step (hturn es tr₁), turnsIn_sequencer,
        runSteps_succ_of_step (halone tr₂)]
      exact ih hrest t _ _ (by rw [memoryAccesses_append, memoryAccesses_append, htr])
    | reset => cases he
    | store => cases he

/-- Settles O60, by induction on the agenda: a read shows a value, and a turn goes the same way in both runs. -/
theorem interleavedReadsChangeNothing : Obligations.InterleavedReadsChangeNothing := by
  intro s hs
  obtain ⟨t, _, _, hrun, hturns, hmem⟩ := run_with_reads_beside_turns s.agenda hs s s.trace s.trace rfl
  exact ⟨_, _, hrun, hturns, rfl, hmem⟩

end Sys2Proof.Machine
end

section
/-! SUPPORT. Everything a completed step can do to the block's registers, and what it leaves of the operands
(R13, R36 to R38, R46, R47). -/

namespace Sys2Proof.Machine

/-- A host access that completes shows at most a value; or, on an idle block, sets operands or is an accepted START. -/
theorem exec_host_next {i : Instr} (hi : i.format = .host) {s t : State} (h : exec i s = .next t) :
    (∃ tr, t = { s with trace := tr }) ∨
    (s.busy = false ∧ ∃ a n d, t = { s with src := a, len := n, dst := d }) ∨
    (s.busy = false ∧ s.startRefusal = none ∧ t = s.started) := by
  rcases exec_host_cases hi s with ⟨_, _, he⟩ | he | ⟨hb, x, he⟩ | ⟨hb, x, he⟩ | ⟨hb, x, he⟩ | ⟨_, _, hb, _, hr, he⟩ |
    ⟨_, _, _, _, _, _, he⟩
  · exact .inl ⟨_, (Host.Outcome.next.inj (he.symm.trans h)).symm⟩
  · exact .inl ⟨_, (Host.Outcome.next.inj (he.symm.trans h)).symm⟩
  · exact .inr (.inl ⟨hb, x, s.len, s.dst, (Host.Outcome.next.inj (he.symm.trans h)).symm⟩)
  · exact .inr (.inl ⟨hb, s.src, x, s.dst, (Host.Outcome.next.inj (he.symm.trans h)).symm⟩)
  · exact .inr (.inl ⟨hb, s.src, s.len, x, (Host.Outcome.next.inj (he.symm.trans h)).symm⟩)
  · exact .inr (.inr ⟨hb, hr, (Host.Outcome.next.inj (he.symm.trans h)).symm⟩)
  · exact absurd (he.symm.trans h) (by simp)

/-- Everything a step that completes can do (R13): leave the block's registers (a host read, a lost write, another
master's store), set operands of an idle block, accept a START, take the sequencer's turn, or reset. -/
theorem step_next_cases {s t : State} (h : step s = .next t) :
    (∃ m es tr, t = { s with mem := m, agenda := es, trace := tr }) ∨
    (¬ s.sequencerTurn ∧ s.busy = false ∧ ∃ a n d es, t = { s with src := a, len := n, dst := d, agenda := es }) ∨
    (s.busy = false ∧ s.startRefusal = none ∧ t = s.turned.started) ∨
    exec s.phase.instr s.turned = .next t ∨
    (∃ es, s.agenda = .reset :: es) ∧ t = s.turned.resetEvent := by
  rcases step_cases s with ⟨x, es, ha, he⟩ | ⟨_, he⟩ | ⟨es, ha, he⟩ | ⟨a, v, es, ha, he⟩
  · rcases exec_host_next (decodeAccess_format x) (he.symm.trans h) with ⟨_, rfl⟩ | ⟨hb, a, n, d, rfl⟩ | ⟨hb, hr, rfl⟩
    · exact .inl ⟨_, _, _, rfl⟩
    · exact .inr (.inl ⟨by simp [State.sequencerTurn, ha], hb, a, n, d, _, rfl⟩)
    · exact .inr (.inr (.inl ⟨hb, hr, rfl⟩))
  · exact .inr (.inr (.inr (.inl (he.symm.trans h))))
  · exact .inr (.inr (.inr (.inr ⟨⟨es, ha⟩, (Host.Outcome.next.inj (he.symm.trans h)).symm⟩)))
  · rcases masterStore_cases s.turned a v with ⟨_, hm⟩ | ⟨_, hm⟩
    · exact .inl ⟨_, _, _, (Host.Outcome.next.inj ((he.trans hm).symm.trans h)).symm⟩
    · exact absurd ((he.trans hm).symm.trans h) (by simp)

/-! ### The operands and the platform -/

/-- The state has the operands and the platform's parameters of another. -/
structure KeepsOperands (s t : State) : Prop where
  platform : t.platform = s.platform
  src : t.src = s.src
  len : t.len = s.len
  dst : t.dst = s.dst

/-- No micro-operation writes an operand (R47). -/
theorem turn_keepsOperands (p : Phase) (s : State) : ∃ t, exec p.instr s = .next t ∧ KeepsOperands s t := by
  cases p with
  | fetch =>
    rcases exec_fetch_cases s with ⟨_, h⟩ | ⟨_, _, h⟩ | ⟨_, _, v, _, h⟩ | ⟨_, _, _, h⟩ <;>
      exact ⟨_, h, rfl, rfl, rfl, rfl⟩
  | padz => rcases exec_padz_cases s with ⟨_, h⟩ | ⟨_, h⟩ <;> exact ⟨_, h, rfl, rfl, rfl, rfl⟩
  | next => rcases exec_next_cases s with ⟨_, h⟩ | ⟨_, _, h⟩ | ⟨_, _, h⟩ <;> exact ⟨_, h, rfl, rfl, rfl, rfl⟩
  | ser => rcases exec_ser_cases s with ⟨_, h⟩ | ⟨_, h⟩ <;> exact ⟨_, h, rfl, rfl, rfl, rfl⟩
  | idle => exact ⟨_, exec_idle s, rfl, rfl, rfl, rfl⟩
  | init => exact ⟨_, exec_init s, rfl, rfl, rfl, rfl⟩
  | pad80 => exact ⟨_, exec_pad80 s, rfl, rfl, rfl, rfl⟩
  | padlen => exact ⟨_, exec_padlen s, rfl, rfl, rfl, rfl⟩
  | wload => exact ⟨_, exec_wload s, rfl, rfl, rfl, rfl⟩
  | wexp => exact ⟨_, exec_wexp s, rfl, rfl, rfl, rfl⟩
  | seed => exact ⟨_, exec_seed s, rfl, rfl, rfl, rfl⟩
  | round => exact ⟨_, exec_round s, rfl, rfl, rfl, rfl⟩
  | addbk => exact ⟨_, exec_addbk s, rfl, rfl, rfl, rfl⟩
  | finish => exact ⟨_, exec_finish s, rfl, rfl, rfl, rfl⟩

/-- Settles O48: operands are set on an idle block by the host, and by reset. -/
theorem operandsAreStable : Obligations.OperandsAreStable := by
  intro s t h
  rcases step_next_cases h with ⟨_, _, _, rfl⟩ | ⟨hturn, hidle, _, _, _, _, rfl⟩ | ⟨_, _, rfl⟩ | hexec | ⟨hreset, rfl⟩
  case inr.inl =>
    refine ⟨rfl, fun hor => ?_⟩
    rcases hor with hbusy | hseq
    · simp [hidle] at hbusy
    · exact absurd hseq hturn
  case inr.inr.inr.inl =>
    obtain ⟨u, hu, hkeep⟩ := turn_keepsOperands s.phase s.turned
    obtain rfl : u = t := Host.Outcome.next.inj (hu.symm.trans hexec)
    exact ⟨hkeep.platform, fun _ => .inr ⟨hkeep.src, hkeep.len, hkeep.dst⟩⟩
  case inr.inr.inr.inr => exact ⟨rfl, fun _ => .inl hreset⟩
  all_goals exact ⟨rfl, fun _ => .inr ⟨rfl, rfl, rfl⟩⟩

end Sys2Proof.Machine
end

section
/-! SUPPORT. The flags and counters stay legal at every phase (R24 to R27, R30 to R35, R45). -/

namespace Sys2Proof.Machine

/-! ### The phase invariant as one fact per phase -/

/-- The part of the phase invariant that is the same at every phase. -/
structure CountersLegal (s : State) : Prop where
  done_of_busy : s.busy = true → s.done = false
  fill_le : s.fill.toNat ≤ 64
  t_le : s.t.toNat ≤ 64
  sidx_le : s.sidx.toNat ≤ 32
  ptr_lt : s.ptr.toNat < 2 ^ s.platform.aw
  dptr_lt : s.dptr.toNat < 2 ^ s.platform.aw

/-- What the phase invariant says of a state at one phase. -/
def LegalAt (s : State) : Phase → Prop
  | .idle | .init => True
  | .fetch => s.padded = false ∧ s.final = false
  | .pad80 => s.fill.toNat ≤ 63 ∧ s.padded = false ∧ s.final = false
  | .padz => 1 ≤ s.fill.toNat ∧ s.padded = true ∧ s.final = false
  | .padlen => s.fill.toNat = 56 ∧ s.padded = true ∧ s.final = false
  | .wload => (s.t.toNat ≤ 15 ∧ s.fill.toNat = 64) ∧ (s.final = true → s.padded = true)
  | .wexp => (16 ≤ s.t.toNat ∧ s.t.toNat ≤ 63) ∧ (s.final = true → s.padded = true)
  | .round => s.t.toNat ≤ 63 ∧ (s.final = true → s.padded = true)
  | .seed | .addbk | .next => s.final = true → s.padded = true
  | .ser => (s.sidx.toNat ≤ 31 ∧ s.final = true) ∧ s.padded = true
  | .finish => (s.sidx.toNat = 32 ∧ s.final = true) ∧ s.padded = true

theorem PhaseInv.countersLegal {s : State} (h : PhaseInv s) : CountersLegal s :=
  ⟨h.not_busy_and_done, h.fill_le, h.t_le, h.sidx_le, h.ptr_lt, h.dptr_lt⟩

theorem PhaseInv.legalAt {s : State} (h : PhaseInv s) {p : Phase} (hp : s.phase = p) : LegalAt s p := by
  have hfinal := h.final_padded
  rw [hp] at hfinal
  cases p with
  | idle | init => trivial
  | fetch => exact h.at_fetch hp
  | pad80 => exact h.at_pad80 hp
  | padz => exact h.at_padz hp
  | padlen => exact h.at_padlen hp
  | wload => exact ⟨h.at_wload hp, hfinal (by decide) (by decide)⟩
  | wexp => exact ⟨h.at_wexp hp, hfinal (by decide) (by decide)⟩
  | round => exact ⟨h.at_round hp, hfinal (by decide) (by decide)⟩
  | seed | addbk | next => exact hfinal (by decide) (by decide)
  | ser => exact ⟨h.at_ser hp, hfinal (by decide) (by decide) (h.at_ser hp).2⟩
  | finish => exact ⟨h.at_finish hp, hfinal (by decide) (by decide) (h.at_finish hp).2⟩

theorem phaseInv_of_legalAt {s : State} (hb : s.busy = true ↔ s.phase ≠ .idle) (hc : CountersLegal s)
    (hl : LegalAt s s.phase) : PhaseInv s := by
  have hat : ∀ {p}, s.phase = p → LegalAt s p := fun hp => hp ▸ hl
  exact {
    busy_iff := hb
    not_busy_and_done := hc.done_of_busy
    fill_le := hc.fill_le
    t_le := hc.t_le
    sidx_le := hc.sidx_le
    ptr_lt := hc.ptr_lt
    dptr_lt := hc.dptr_lt
    at_fetch := fun hp => hat hp
    at_pad80 := fun hp => hat hp
    at_padz := fun hp => hat hp
    at_padlen := fun hp => hat hp
    at_wload := fun hp => (hat hp).1
    at_wexp := fun hp => (hat hp).1
    at_round := fun hp => (hat hp).1
    at_ser := fun hp => (hat hp).1
    at_finish := fun hp => (hat hp).1
    final_padded := fun hidle hinit hfinal => by
      cases hp : s.phase with
      | idle => exact absurd hp hidle
      | init => exact absurd hp hinit
      | fetch => exact absurd ((hat hp).2.symm.trans hfinal) (by decide)
      | pad80 => exact absurd ((hat hp).2.2.symm.trans hfinal) (by decide)
      | padz | padlen => exact (hat hp).2.1
      | wload | wexp | round => exact (hat hp).2 hfinal
      | seed | addbk | next => exact hat hp hfinal
      | ser | finish => exact (hat hp).2 }

/-- The phase invariant does not speak of the operands, the memory, the agenda or the trace. -/
theorem PhaseInv.of_registers_eq {s : State} (h : PhaseInv s) (a n d : Dword) (m : Memory) (es : List Event)
    (tr : List Observation) :
    PhaseInv { s with src := a, len := n, dst := d, mem := m, agenda := es, trace := tr } := by
  obtain ⟨⟩ := h
  constructor <;> assumption

/-! ### Each micro-operation -/

theorem counter_succ {x : BitVec 7} {n : Nat} (h : x.toNat ≤ n) (hn : n < 127 := by decide) :
    (x + 1).toNat = x.toNat + 1 := by
  bv_omega

/-- A turn that ends in a busy phase, with the flags as they were, needs the counters and the facts of that phase. -/
theorem phaseInv_of_busy {s : State} (hb : s.busy = true) (hp : s.phase ≠ .idle) (hc : CountersLegal s)
    (hl : LegalAt s s.phase) : PhaseInv s :=
  phaseInv_of_legalAt (iff_of_true hb hp) hc hl

section
variable {s : State}

/-- INIT (R121). -/
theorem init_keepsPhaseInv (hb : s.busy = true) (hc : CountersLegal s) :
    ∃ t, exec .init s = .next t ∧ PhaseInv t :=
  ⟨_, exec_init s, phaseInv_of_busy hb (by simp) { hc with fill_le := by simp } ⟨rfl, rfl⟩⟩

/-- FETCH (R122). -/
theorem fetch_keepsPhaseInv (h : PhaseInv s) (hb : s.busy = true) (hp : s.phase = .fetch) :
    ∃ t, exec .fetch s = .next t ∧ PhaseInv t := by
  have hc := h.countersLegal
  have hl : s.padded = false ∧ s.final = false := h.legalAt hp
  have hlt : s.fill ≠ 64 → s.fill.toNat ≤ 63 := by have := hc.fill_le; bv_omega
  rcases exec_fetch_cases s with ⟨hfull, he⟩ | ⟨hfull, _, he⟩ | ⟨hfull, _, v, _, he⟩ | ⟨_, _, _, he⟩
  · exact ⟨_, he, phaseInv_of_busy hb (by simp) { hc with t_le := by simp }
      ⟨⟨by simp, by simp [hfull]⟩, by simp [hl]⟩⟩
  · exact ⟨_, he, phaseInv_of_busy hb (by simp) { hc with } ⟨hlt hfull, hl⟩⟩
  · have hfill : (s.fill + 1).toNat ≤ 64 := by
      rw [counter_succ (hlt hfull)]
      exact Nat.succ_le_succ (hlt hfull)
    exact ⟨_, he, phaseInv_of_busy hb (by simp [hp])
      { hc with fill_le := hfill, ptr_lt := truncAddr_lt _ _ } (by simpa [hp, LegalAt] using hl)⟩
  · exact ⟨_, he, h⟩

/-- PAD80 (R123). -/
theorem pad80_keepsPhaseInv (hb : s.busy = true) (hc : CountersLegal s) (hl : LegalAt s .pad80) :
    ∃ t, exec .pad80 s = .next t ∧ PhaseInv t := by
  obtain ⟨hlt, _, hfinal⟩ := hl
  have hfill : (s.fill + 1).toNat = s.fill.toNat + 1 := counter_succ hlt
  exact ⟨_, exec_pad80 s, phaseInv_of_busy hb (by simp) { hc with fill_le := by simp only [hfill]; omega }
    ⟨by simp only [hfill]; omega, rfl, hfinal⟩⟩

/-- PADZ (R124). -/
theorem padz_keepsPhaseInv (hb : s.busy = true) (hc : CountersLegal s) (hl : LegalAt s .padz) :
    ∃ t, exec .padz s = .next t ∧ PhaseInv t := by
  obtain ⟨_, hpadded, hfinal⟩ := hl
  rcases exec_padz_cases s with ⟨_, he⟩ | ⟨_, he⟩
  · exact ⟨_, he, phaseInv_of_busy hb (by simp)
      ⟨hc.done_of_busy, by simp, hc.t_le, hc.sidx_le, hc.ptr_lt, hc.dptr_lt⟩ ⟨by simp, hpadded, hfinal⟩⟩
  · exact ⟨_, he, phaseInv_of_busy hb (by simp)
      ⟨hc.done_of_busy, by simp, by simp, hc.sidx_le, hc.ptr_lt, hc.dptr_lt⟩ ⟨⟨by simp, by simp⟩, fun _ => hpadded⟩⟩

/-- PADLEN (R125). -/
theorem padlen_keepsPhaseInv (hb : s.busy = true) (hc : CountersLegal s) (hl : LegalAt s .padlen) :
    ∃ t, exec .padlen s = .next t ∧ PhaseInv t := by
  obtain ⟨_, hpadded, _⟩ := hl
  exact ⟨_, exec_padlen s, phaseInv_of_busy hb (by simp)
      ⟨hc.done_of_busy, by simp, by simp, hc.sidx_le, hc.ptr_lt, hc.dptr_lt⟩ ⟨⟨by simp, by simp⟩, fun _ => hpadded⟩⟩

/-- WLOAD (R152). -/
theorem wload_keepsPhaseInv (hb : s.busy = true) (hc : CountersLegal s) (hl : LegalAt s .wload) :
    ∃ t, exec .wload s = .next t ∧ PhaseInv t := by
  obtain ⟨⟨ht, hfill⟩, hfinal⟩ := hl
  have hsucc : (s.t + 1).toNat = s.t.toNat + 1 := counter_succ ht
  have hc' : (s.t + 1).toNat ≤ 64 := by omega
  refine ⟨_, exec_wload s, ?_⟩
  by_cases hlast : s.t = 15
  · rw [if_pos hlast]
    exact phaseInv_of_busy hb (by simp) { hc with t_le := hc' } ⟨by simp [hlast], hfinal⟩
  · rw [if_neg hlast]
    have hnext : (s.t + 1).toNat ≤ 15 := by bv_omega
    exact phaseInv_of_busy hb (by simp) { hc with t_le := hc' } ⟨⟨hnext, hfill⟩, hfinal⟩

/-- WEXP (R153). -/
theorem wexp_keepsPhaseInv (hb : s.busy = true) (hc : CountersLegal s) (hl : LegalAt s .wexp) :
    ∃ t, exec .wexp s = .next t ∧ PhaseInv t := by
  obtain ⟨⟨hlo, hhi⟩, hfinal⟩ := hl
  have hsucc : (s.t + 1).toNat = s.t.toNat + 1 := counter_succ hhi
  have hc' : (s.t + 1).toNat ≤ 64 := by omega
  refine ⟨_, exec_wexp s, ?_⟩
  by_cases hlast : s.t = 63
  · rw [if_pos hlast]
    exact phaseInv_of_busy hb (by simp) { hc with t_le := hc' } hfinal
  · rw [if_neg hlast]
    have hnext : 16 ≤ (s.t + 1).toNat ∧ (s.t + 1).toNat ≤ 63 := by bv_omega
    exact phaseInv_of_busy hb (by simp) { hc with t_le := hc' } ⟨hnext, hfinal⟩

/-- SEED (R175). -/
theorem seed_keepsPhaseInv (hb : s.busy = true) (hc : CountersLegal s) (hl : LegalAt s .seed) :
    ∃ t, exec .seed s = .next t ∧ PhaseInv t :=
  ⟨_, exec_seed s, phaseInv_of_busy hb (by simp) { hc with t_le := by simp } ⟨by simp, hl⟩⟩

/-- ROUND (R176). -/
theorem round_keepsPhaseInv (hb : s.busy = true) (hc : CountersLegal s) (hl : LegalAt s .round) :
    ∃ t, exec .round s = .next t ∧ PhaseInv t := by
  obtain ⟨hhi, hfinal⟩ := hl
  have hsucc : (s.t + 1).toNat = s.t.toNat + 1 := counter_succ hhi
  have hc' : (s.t + 1).toNat ≤ 64 := by omega
  refine ⟨_, exec_round s, ?_⟩
  by_cases hlast : s.t = 63
  · rw [if_pos hlast]
    exact phaseInv_of_busy hb (by simp) { hc with t_le := hc' } hfinal
  · rw [if_neg hlast]
    have hnext : (s.t + 1).toNat ≤ 63 := by bv_omega
    exact phaseInv_of_busy hb (by simp) { hc with t_le := hc' } ⟨hnext, hfinal⟩

/-- ADDBK (R177). -/
theorem addbk_keepsPhaseInv (hb : s.busy = true) (hc : CountersLegal s) (hl : LegalAt s .addbk) :
    ∃ t, exec .addbk s = .next t ∧ PhaseInv t :=
  ⟨_, exec_addbk s, phaseInv_of_busy hb (by simp) { hc with } hl⟩

/-- NEXT (R126). -/
theorem next_keepsPhaseInv (hb : s.busy = true) (hc : CountersLegal s) (hl : LegalAt s .next) :
    ∃ t, exec .next s = .next t ∧ PhaseInv t := by
  rcases exec_next_cases s with ⟨hfinal, he⟩ | ⟨hfinal, hpadded, he⟩ | ⟨hfinal, hpadded, he⟩
  · exact ⟨_, he, phaseInv_of_busy hb (by simp) { hc with sidx_le := by simp } ⟨⟨by simp, hfinal⟩, hl hfinal⟩⟩
  · exact ⟨_, he, phaseInv_of_busy hb (by simp)
      ⟨hc.done_of_busy, by simp, hc.t_le, hc.sidx_le, hc.ptr_lt, hc.dptr_lt⟩ ⟨by simp, hpadded, hfinal⟩⟩
  · exact ⟨_, he, phaseInv_of_busy hb (by simp)
      ⟨hc.done_of_busy, by simp, hc.t_le, hc.sidx_le, hc.ptr_lt, hc.dptr_lt⟩ ⟨hpadded, hfinal⟩⟩

/-- SER (R200). -/
theorem ser_keepsPhaseInv (h : PhaseInv s) (hb : s.busy = true) (hp : s.phase = .ser) :
    ∃ t, exec .ser s = .next t ∧ PhaseInv t := by
  have hc := h.countersLegal
  obtain ⟨⟨hidx, hfinal⟩, hpadded⟩ : LegalAt s .ser := h.legalAt hp
  rcases exec_ser_cases s with ⟨_, he⟩ | ⟨_, he⟩
  · have hsucc : (s.sidx + 1).toNat = s.sidx.toNat + 1 := by bv_omega
    have hc' : CountersLegal s.serialized := { hc with sidx_le := by simp only [State.serialized_sidx]; omega }
    refine ⟨_, he, ?_⟩
    by_cases hlast : s.sidx = 31
    · have hphase : s.serialized.phase = .finish := if_pos hlast
      exact phaseInv_of_busy hb (by rw [hphase]; simp) hc' (hphase ▸ ⟨⟨by simp [hlast], hfinal⟩, hpadded⟩)
    · have hphase : s.serialized.phase = .ser := if_neg hlast
      have hnext : (s.sidx + 1).toNat ≤ 31 := by bv_omega
      exact phaseInv_of_busy hb (by rw [hphase]; simp) hc' (hphase ▸ ⟨⟨hnext, hfinal⟩, hpadded⟩)
  · exact ⟨_, he, h⟩

/-- FINISH (R201). -/
theorem finish_keepsPhaseInv (hc : CountersLegal s) : ∃ t, exec .finish s = .next t ∧ PhaseInv t :=
  ⟨_, exec_finish s, phaseInv_of_legalAt (by simp) { hc with done_of_busy := by simp } trivial⟩

end

/-- The turn of every phase keeps the phase invariant. -/
theorem turn_keepsPhaseInv {s : State} (h : PhaseInv s) : ∃ t, exec s.phase.instr s = .next t ∧ PhaseInv t := by
  have hc := h.countersLegal
  have hl := h.legalAt rfl
  have hb : s.phase ≠ .idle → s.busy = true := h.busy_iff.mpr
  cases hp : s.phase <;> simp only [hp, ne_eq, reduceCtorEq, not_false_eq_true, not_true, forall_const] at hl hb
  case idle => exact ⟨s, exec_idle s, h⟩
  case init => exact init_keepsPhaseInv hb hc
  case fetch => exact fetch_keepsPhaseInv h hb hp
  case pad80 => exact pad80_keepsPhaseInv hb hc hl
  case padz => exact padz_keepsPhaseInv hb hc hl
  case padlen => exact padlen_keepsPhaseInv hb hc hl
  case wload => exact wload_keepsPhaseInv hb hc hl
  case wexp => exact wexp_keepsPhaseInv hb hc hl
  case seed => exact seed_keepsPhaseInv hb hc hl
  case round => exact round_keepsPhaseInv hb hc hl
  case addbk => exact addbk_keepsPhaseInv hb hc hl
  case next => exact next_keepsPhaseInv hb hc hl
  case ser => exact ser_keepsPhaseInv h hb hp
  case finish => exact finish_keepsPhaseInv hc

/-! ### Every step -/

theorem freeCounter_toNat_le (n legal draw : Nat) (r : Config.Hidden) : (freeCounter n legal draw r).toNat ≤ legal := by
  rw [freeCounter, BitVec.toNat_ofNat]
  exact (Nat.mod_le _ _).trans (Nat.le_of_lt_succ (Nat.mod_lt _ legal.succ_pos))

/-- Reset reaches the phase invariant from every state (R44, R250; log 6). -/
theorem resetEvent_phaseInv (s : State) : PhaseInv s.resetEvent :=
  phaseInv_of_legalAt (by simp) {
    done_of_busy := by simp
    fill_le := freeCounter_toNat_le ..
    t_le := freeCounter_toNat_le ..
    sidx_le := freeCounter_toNat_le ..
    ptr_lt := truncAddr_lt _ _
    dptr_lt := truncAddr_lt _ _ } trivial

/-- An accepted START enters INIT with truncated addresses (R100). -/
theorem PhaseInv.started {s : State} (h : PhaseInv s) : PhaseInv s.started :=
  phaseInv_of_busy rfl (by simp)
    { h.countersLegal with done_of_busy := by simp, ptr_lt := truncAddr_lt _ _, dptr_lt := truncAddr_lt _ _ } trivial

/-- Settles O44: a host access, another master's store and reset keep the invariant, and so does the turn of every
phase. -/
theorem stepKeepsPhaseInvariant : Obligations.StepKeepsPhaseInvariant := by
  intro s t h hstep
  have hturned : PhaseInv s.turned := h.of_registers_eq ..
  rcases step_next_cases hstep with ⟨_, _, _, rfl⟩ | ⟨_, _, _, _, _, _, rfl⟩ | ⟨_, _, rfl⟩ | hexec | ⟨_, rfl⟩
  · exact h.of_registers_eq ..
  · exact h.of_registers_eq ..
  · exact PhaseInv.started hturned
  · obtain ⟨u, hu, hinv⟩ := turn_keepsPhaseInv hturned
    obtain rfl : u = t := Host.Outcome.next.inj (hu.symm.trans hexec)
    exact hinv
  · exact resetEvent_phaseInv _

/-- Settles O37. -/
theorem resetStateAsTheSpecGivesIt : Obligations.ResetStateAsTheSpecGivesIt := ⟨rfl, rfl, rfl, rfl, rfl, rfl, rfl⟩

end Sys2Proof.Machine
end

section
/-! SUPPORT. The running copies of the command stay in step with the operands (R27 to R30, R99, R122, R123). -/

namespace Sys2Proof.Machine

/-! ### The command invariant as one fact per phase -/

/-- The part of the command invariant that is the same at every phase of a computation. -/
structure CommandLoaded (s : State) : Prop where
  operands : ValidOperands s
  total_eq : s.total = s.len
  dptr_eq : s.dptr.toNat = dstAddr s
  rem_le : s.rem.toNat ≤ s.len.toNat
  ptr_eq : s.ptr.toNat = (srcAddr s + (s.len.toNat - s.rem.toNat)) % 2 ^ s.platform.aw

/-- What the command invariant says of a computation at one phase. -/
def ReadAt (s : State) : Phase → Prop
  | .init => s.rem = s.len
  | .fetch => (s.fill.toNat ≤ s.len.toNat - s.rem.toNat ∧ (s.len.toNat - s.rem.toNat - s.fill.toNat) % 64 = 0) ∧
      (s.padded = true → s.rem = 0)
  | .pad80 => (s.rem = 0 ∧ s.fill.toNat = s.len.toNat % 64) ∧ (s.padded = true → s.rem = 0)
  | .padz => s.fill.toNat = s.len.toNat % 64 + 1 ∧ (s.padded = true → s.rem = 0)
  | .wload | .wexp | .seed | .round | .addbk | .next =>
      (s.padded = false → (s.len.toNat - s.rem.toNat) % 64 = 0) ∧ (s.padded = true → s.rem = 0)
  | .idle | .padlen | .ser | .finish => s.padded = true → s.rem = 0

theorem CommandInv.commandLoaded {s : State} (h : CommandInv s) (hb : s.busy = true) : CommandLoaded s :=
  ⟨h.operands hb, h.total_eq hb, h.dptr_eq hb, h.rem_le hb, h.ptr_eq hb⟩

theorem CommandInv.readAt {s : State} (h : CommandInv s) (hb : s.busy = true) {p : Phase} (hp : s.phase = p) :
    ReadAt s p := by
  have hread := h.all_read hb
  have hfull := h.full_chunks hb
  rw [hp] at hread hfull
  cases p with
  | init => exact h.at_init hb hp
  | fetch => exact ⟨h.at_fetch hb hp, hread (by decide)⟩
  | pad80 => exact ⟨h.at_pad80 hb hp, hread (by decide)⟩
  | padz => exact ⟨h.at_padz hb hp, hread (by decide)⟩
  | wload | wexp | seed | round | addbk | next => exact ⟨hfull rfl, hread (by decide)⟩
  | idle | padlen | ser | finish => exact hread (by decide)

/-- Of an idle block the command invariant asks only for a legal platform. -/
theorem commandInv_of_idle {s : State} (hplat : s.platform.wellFormed = true) (hb : s.busy = false) : CommandInv s := by
  constructor <;> simp [hplat, hb]

theorem commandInv_of_readAt {s : State} (hplat : s.platform.wellFormed = true) (hc : CommandLoaded s)
    (hr : ReadAt s s.phase) : CommandInv s := by
  have hat : ∀ {p}, s.phase = p → ReadAt s p := fun hp => hp ▸ hr
  exact {
    platform := hplat
    operands := fun _ => hc.operands
    total_eq := fun _ => hc.total_eq
    dptr_eq := fun _ => hc.dptr_eq
    rem_le := fun _ => hc.rem_le
    ptr_eq := fun _ => hc.ptr_eq
    at_init := fun _ hp => hat hp
    at_fetch := fun _ hp => (hat hp).1
    at_pad80 := fun _ hp => (hat hp).1
    at_padz := fun _ hp => (hat hp).1
    full_chunks := fun _ hcomp => by
      cases hp : s.phase with
      | wload | wexp | seed | round | addbk | next => exact (hat hp).1
      | idle | init | fetch | pad80 | padz | padlen | ser | finish => simp [hp, compressing] at hcomp
    all_read := fun _ hinit => by
      cases hp : s.phase with
      | init => exact absurd hp hinit
      | fetch | pad80 | padz | wload | wexp | seed | round | addbk | next => exact (hat hp).2
      | idle | padlen | ser | finish => exact hat hp }

/-- The running copies of the command and its operands are those of another state. -/
structure KeepsCommand (s t : State) : Prop extends KeepsOperands s t where
  total : t.total = s.total
  dptr : t.dptr = s.dptr
  rem : t.rem = s.rem
  ptr : t.ptr = s.ptr

theorem KeepsOperands.srcAddr_eq {s t : State} (h : KeepsOperands s t) : srcAddr t = srcAddr s := by
  rw [srcAddr, srcAddr, h.platform, h.src]

theorem KeepsOperands.dstAddr_eq {s t : State} (h : KeepsOperands s t) : dstAddr t = dstAddr s := by
  rw [dstAddr, dstAddr, h.platform, h.dst]

/-- The operands' validity rests on the operands and the platform only. -/
theorem ValidOperands.of_keepsOperands {s t : State} (h : ValidOperands s) (hk : KeepsOperands s t) :
    ValidOperands t := by
  obtain ⟨hlength, hmessage, hdigest, hdisjoint⟩ := h
  constructor <;> simpa only [hk.srcAddr_eq, hk.dstAddr_eq, hk.platform, hk.len]

theorem CommandLoaded.of_keepsCommand {s t : State} (h : CommandLoaded s) (hk : KeepsCommand s t) :
    CommandLoaded t where
  operands := h.operands.of_keepsOperands hk.toKeepsOperands
  total_eq := by rw [hk.total, hk.len, h.total_eq]
  dptr_eq := by rw [hk.dptr, hk.dstAddr_eq, h.dptr_eq]
  rem_le := by rw [hk.rem, hk.len]; exact h.rem_le
  ptr_eq := by rw [hk.ptr, hk.srcAddr_eq, hk.len, hk.rem, hk.platform, h.ptr_eq]

/-- The command invariant does not speak of the memory, the agenda or the trace. -/
theorem CommandInv.of_registers_eq {s : State} (h : CommandInv s) (m : Memory) (es : List Event)
    (tr : List Observation) : CommandInv { s with mem := m, agenda := es, trace := tr } := by
  have hoperands : s.busy = true → ValidOperands { s with mem := m, agenda := es, trace := tr } :=
    fun hb => (h.operands hb).of_keepsOperands ⟨rfl, rfl, rfl, rfl⟩
  obtain ⟨⟩ := h
  constructor <;> assumption

/-! ### Each micro-operation that moves a counter the invariant speaks of -/

/-- A turn that reads no message byte needs what the invariant says of the phase it ends in. -/
theorem commandInv_of_keepsCommand {s t : State} (hplat : s.platform.wellFormed = true) (hc : CommandLoaded s)
    (hr : ReadAt t t.phase)
    (hk : KeepsCommand s t := by exact ⟨⟨rfl, rfl, rfl, rfl⟩, rfl, rfl, rfl, rfl⟩) : CommandInv t :=
  commandInv_of_readAt (hk.platform ▸ hplat) (hc.of_keepsCommand hk) hr

theorem Platform.aw_le {p : Platform} (h : p.wellFormed = true) : p.aw ≤ 64 := by
  simp only [Platform.wellFormed, Bool.and_eq_true, decide_eq_true_eq] at h
  obtain ⟨⟨_, haw⟩, _⟩ := h
  exact haw

/-- The 64-bit sum that FETCH truncates is the next address of `2^AW` (R122; log 19). -/
theorem truncAddr_succ_toNat {aw : Nat} (haw : aw ≤ 64) (x : Dword) :
    (truncAddr aw (x + 1)).toNat = (x.toNat + 1) % 2 ^ aw := by
  rw [truncAddr_toNat, BitVec.toNat_add]
  exact Nat.mod_mod_of_dvd _ (Nat.pow_dvd_pow 2 haw)

theorem pred_toNat {x : Dword} (h : x ≠ 0) : (x - 1).toNat = x.toNat - 1 ∧ 0 < x.toNat := by bv_omega

/-- A byte read moves `ptr` and `rem` on together (R122). -/
theorem CommandLoaded.fetched {s : State} (hplat : s.platform.wellFormed = true) (hc : CommandLoaded s)
    (hrem : s.rem ≠ 0) (v : Byte) : CommandLoaded (s.fetched v) := by
  obtain ⟨hpred, hpos⟩ := pred_toNat hrem
  have hle := hc.rem_le
  refine ⟨hc.operands.of_keepsOperands ⟨rfl, rfl, rfl, rfl⟩, hc.total_eq, hc.dptr_eq, ?_, ?_⟩
  · rw [State.fetched_rem, hpred]
    exact (Nat.sub_le _ _).trans hle
  · have hread : s.len.toNat - (s.rem.toNat - 1) = s.len.toNat - s.rem.toNat + 1 := by omega
    show (truncAddr s.platform.aw (s.ptr + 1)).toNat =
      (srcAddr s + (s.len.toNat - (s.rem - 1).toNat)) % 2 ^ s.platform.aw
    rw [truncAddr_succ_toNat (Platform.aw_le hplat), hc.ptr_eq, hpred, hread, Nat.mod_add_mod, Nat.add_assoc]

section
variable {s : State}

/-- FETCH counts the byte it reads in `fill`, and hands over `fill = L mod 64` (R122). -/
theorem fetch_keepsCommandInv (h : CommandInv s) (hc : CommandLoaded s) (hfill : s.fill.toNat ≤ 64)
    (hp : s.phase = .fetch) (hr : ReadAt s .fetch) : ∃ t, exec .fetch s = .next t ∧ CommandInv t := by
  obtain ⟨⟨hle, hmod⟩, hpadded⟩ := hr
  rcases exec_fetch_cases s with ⟨hfull, he⟩ | ⟨hfull, hrem, he⟩ | ⟨hfull, hrem, v, _, he⟩ | ⟨_, _, _, he⟩
  · have hfull : s.fill.toNat = 64 := by simp [hfull]
    have hchunks : (s.len.toNat - s.rem.toNat) % 64 = 0 := by omega
    exact ⟨_, he, commandInv_of_keepsCommand h.platform hc ⟨fun _ => hchunks, hpadded⟩⟩
  · have hlast : s.fill.toNat = s.len.toNat % 64 := by
      have hlt : s.fill.toNat < 64 := by bv_omega
      have hzero : s.rem.toNat = 0 := by simp [hrem]
      omega
    exact ⟨_, he, commandInv_of_keepsCommand h.platform hc ⟨⟨hrem, hlast⟩, fun _ => hrem⟩⟩
  · have hsucc : (s.fill + 1).toNat = s.fill.toNat + 1 := counter_succ hfill
    obtain ⟨hpred, hpos⟩ := pred_toNat hrem
    have hremle := hc.rem_le
    refine ⟨_, he, commandInv_of_readAt h.platform (hc.fetched h.platform hrem v) ?_⟩
    rw [State.fetched_phase, hp]
    refine ⟨⟨?_, ?_⟩, fun hpad => absurd (hpadded hpad) hrem⟩
    all_goals
      simp only [State.fetched_fill, State.fetched_len, State.fetched_rem, hsucc, hpred]
      omega
  · exact ⟨_, he, h⟩

/-- NEXT leaves `fill = 0` for the next chunk only where whole chunks were read (R126). -/
theorem next_keepsCommandInv (hplat : s.platform.wellFormed = true) (hc : CommandLoaded s) (hr : ReadAt s .next) :
    ∃ t, exec .next s = .next t ∧ CommandInv t := by
  obtain ⟨hfull, hread⟩ := hr
  rcases exec_next_cases s with ⟨_, he⟩ | ⟨_, _, he⟩ | ⟨_, hpadded, he⟩
  · exact ⟨_, he, commandInv_of_keepsCommand hplat hc hread⟩
  · exact ⟨_, he, commandInv_of_keepsCommand hplat hc hread⟩
  · exact ⟨_, he, commandInv_of_keepsCommand hplat hc ⟨⟨Nat.zero_le _, hfull hpadded⟩, hread⟩⟩

/-- PADZ ends in the chunk it is in or in one more (R124). -/
theorem padz_keepsCommandInv (hplat : s.platform.wellFormed = true) (hc : CommandLoaded s)
    (hpadded : s.padded = true) (hr : ReadAt s .padz) : ∃ t, exec .padz s = .next t ∧ CommandInv t := by
  obtain ⟨_, hread⟩ := hr
  rcases exec_padz_cases s with ⟨_, he⟩ | ⟨_, he⟩
  · exact ⟨_, he, commandInv_of_keepsCommand hplat hc hread⟩
  · exact ⟨_, he, commandInv_of_keepsCommand hplat hc ⟨fun hnot => by simp [hpadded] at hnot, hread⟩⟩

end

/-- The turn of every phase of a computation keeps the command invariant. -/
theorem turn_keepsCommandInv {s : State} (hphase : PhaseInv s) (h : CommandInv s) :
    ∃ t, exec s.phase.instr s = .next t ∧ CommandInv t := by
  by_cases hidle : s.phase = .idle
  · exact ⟨s, by rw [hidle]; exact exec_idle s, h⟩
  have hb : s.busy = true := hphase.busy_iff.mpr hidle
  have hplat := h.platform
  have hc := h.commandLoaded hb
  have hl := hphase.legalAt rfl
  have hr := h.readAt hb rfl
  cases hp : s.phase <;> rw [hp] at hl hr
  case idle => exact absurd hp hidle
  case init =>
    have hstart : s.rem = s.len := hr
    exact ⟨_, exec_init s, commandInv_of_keepsCommand hplat hc ⟨⟨Nat.zero_le _, by simp [hstart]⟩, by simp⟩⟩
  case fetch => exact fetch_keepsCommandInv h hc hphase.fill_le hp hr
  case pad80 =>
    obtain ⟨⟨hrem, hfill⟩, _⟩ := hr
    obtain ⟨hlt, _⟩ := hl
    have hsucc : (s.fill + 1).toNat = s.len.toNat % 64 + 1 := by rw [counter_succ hlt, hfill]
    exact ⟨_, exec_pad80 s, commandInv_of_keepsCommand hplat hc ⟨hsucc, fun _ => hrem⟩⟩
  case padz =>
    obtain ⟨_, hpadded, _⟩ := hl
    exact padz_keepsCommandInv hplat hc hpadded hr
  case padlen =>
    obtain ⟨_, hpadded, _⟩ := hl
    exact ⟨_, exec_padlen s, commandInv_of_keepsCommand hplat hc ⟨fun hnot => by simp [hpadded] at hnot, hr⟩⟩
  case wload => exact ⟨_, exec_wload s, commandInv_of_keepsCommand hplat hc (by dsimp only; split <;> exact hr)⟩
  case wexp => exact ⟨_, exec_wexp s, commandInv_of_keepsCommand hplat hc (by dsimp only; split <;> exact hr)⟩
  case seed => exact ⟨_, exec_seed s, commandInv_of_keepsCommand hplat hc hr⟩
  case round => exact ⟨_, exec_round s, commandInv_of_keepsCommand hplat hc (by dsimp only; split <;> exact hr)⟩
  case addbk => exact ⟨_, exec_addbk s, commandInv_of_keepsCommand hplat hc hr⟩
  case next => exact next_keepsCommandInv hplat hc hr
  case ser =>
    rcases exec_ser_cases s with ⟨_, he⟩ | ⟨_, he⟩
    · exact ⟨_, he, commandInv_of_keepsCommand hplat hc (by rw [State.serialized_phase]; split <;> exact hr)⟩
    · exact ⟨_, he, h⟩
  case finish => exact ⟨_, exec_finish s, commandInv_of_idle hplat rfl⟩

/-! ### Every step -/

/-- What START does not refuse is valid (R100, R221, R259). -/
theorem validOperands_of_startRefusal {s : State} (h : s.startRefusal = none) : ValidOperands s := by
  have hsrc : s.startSrc = srcAddr s := truncAddr_toNat _ _
  have hdst : s.startDst = dstAddr s := truncAddr_toNat _ _
  unfold State.startRefusal at h
  split_ifs at h with hlength hmessage hdigest hoverlap
  simp only [State.lengthTooLarge, State.messageWraps, State.digestWraps, State.rangesOverlap, hsrc, hdst,
    Bool.and_eq_true, decide_eq_true_eq] at hlength hmessage hdigest hoverlap
  constructor <;> omega

/-- An accepted START loads the command (R100). -/
theorem started_commandInv {s : State} (hplat : s.platform.wellFormed = true) (h : s.startRefusal = none) :
    CommandInv s.started := by
  have hvalid : ValidOperands s.started := (validOperands_of_startRefusal h).of_keepsOperands ⟨rfl, rfl, rfl, rfl⟩
  refine commandInv_of_readAt hplat ⟨hvalid, rfl, truncAddr_toNat _ _, Nat.le_refl _, ?_⟩ rfl
  simp [srcAddr]

/-- Settles O45: an accepted START loads the command, and the turn of every phase keeps it in step. -/
theorem stepKeepsCommandInvariant : Obligations.StepKeepsCommandInvariant := by
  intro s t hphase h hstep
  have hturned : PhaseInv s.turned := hphase.of_registers_eq ..
  rcases step_next_cases hstep with ⟨_, _, _, rfl⟩ | ⟨_, hidle, _, _, _, _, rfl⟩ | ⟨_, hvalid, rfl⟩ | hexec | ⟨_, rfl⟩
  · exact h.of_registers_eq ..
  · exact commandInv_of_idle h.platform hidle
  · exact started_commandInv h.platform hvalid
  · obtain ⟨u, hu, hinv⟩ := turn_keepsCommandInv hturned (h.of_registers_eq ..)
    obtain rfl : u = t := Host.Outcome.next.inj (hu.symm.trans hexec)
    exact hinv
  · exact commandInv_of_idle h.platform rfl

/-- Settles O43. -/
theorem resetMeetsTheInvariants : Obligations.ResetMeetsTheInvariants :=
  ⟨⟨List.Pairwise.nil, by simp [State.reset]⟩,
    phaseInv_of_legalAt (by decide) (by constructor <;> decide) trivial,
    commandInv_of_idle (by decide) rfl⟩

end Sys2Proof.Machine
end

section
/-! SUPPORT. Two runs that differ in hidden registers only. A host access goes the same way in both; and at every phase
the two agree on the hidden registers that are still to be read there (R43 to R45, R47). -/

namespace Sys2Proof.Machine

/-! ### States that differ in hidden registers only -/

/-- The state with the hidden registers of another. -/
def State.withHiddenOf (s u : State) : State :=
  { s with
    hash := u.hash, work := u.work, w := u.w, buf := u.buf, fill := u.fill, t := u.t, sidx := u.sidx,
    ptr := u.ptr, rem := u.rem, total := u.total, dptr := u.dptr, padded := u.padded, final := u.final }

theorem SameButHidden.exists_withHiddenOf {s t : State} (h : SameButHidden s t) : ∃ u, t = s.withHiddenOf u :=
  ⟨t, h⟩

section
variable {s t : State}

theorem SameButHidden.turned (h : SameButHidden s t) : SameButHidden s.turned t.turned := by
  obtain ⟨u, rfl⟩ := h.exists_withHiddenOf
  rfl

theorem SameButHidden.phase_eq (h : SameButHidden s t) : t.phase = s.phase := by
  obtain ⟨_, rfl⟩ := h.exists_withHiddenOf
  rfl

theorem SameButHidden.mem_eq (h : SameButHidden s t) : t.mem = s.mem := by
  obtain ⟨_, rfl⟩ := h.exists_withHiddenOf
  rfl

theorem SameButHidden.platform_eq (h : SameButHidden s t) : t.platform = s.platform := by
  obtain ⟨_, rfl⟩ := h.exists_withHiddenOf
  rfl

theorem SameButHidden.agenda_eq (h : SameButHidden s t) : t.agenda = s.agenda := by
  obtain ⟨_, rfl⟩ := h.exists_withHiddenOf
  rfl

theorem SameButHidden.draws_eq (h : SameButHidden s t) : t.draws = s.draws := by
  obtain ⟨_, rfl⟩ := h.exists_withHiddenOf
  rfl

end

/-! ### Host accesses -/

/-- The host sets the operands and the trace of both states to the same values. -/
def SetAlike (s₁ s₂ t₁ t₂ : State) : Prop :=
  ∃ a n d tr, t₁ = { s₁ with src := a, len := n, dst := d, trace := tr } ∧
    t₂ = { s₂ with src := a, len := n, dst := d, trace := tr }

theorem SameButHidden.setAlike {s₁ s₂ t₁ t₂ : State} (h : SameButHidden s₁ s₂) (hset : SetAlike s₁ s₂ t₁ t₂) :
    SameButHidden t₁ t₂ := by
  obtain ⟨_, _, _, _, rfl, rfl⟩ := hset
  obtain ⟨u, rfl⟩ := h.exists_withHiddenOf
  rfl

theorem whenIdle_of_busy {s t : State} (h : s.busy = true) : whenIdle s t = .next s := congrArg _ (if_pos h)

theorem whenIdle_of_idle {s t : State} (h : ¬ s.busy = true) : whenIdle s t = .next t := congrArg _ (if_neg h)

/-- An operand write is lost in both states or done in both (R99). -/
theorem whenIdle_lockstep {s t : State} (u : State) (a n d : Dword)
    (h : whenIdle s { s with src := a, len := n, dst := d } = .next t) :
    ∃ t', whenIdle (s.withHiddenOf u) { s.withHiddenOf u with src := a, len := n, dst := d } = .next t' ∧
      SetAlike s (s.withHiddenOf u) t t' := by
  by_cases hb : s.busy = true
  · obtain rfl := Host.Outcome.next.inj ((whenIdle_of_busy hb).symm.trans h)
    exact ⟨_, whenIdle_of_busy hb, s.src, s.len, s.dst, s.trace, rfl, rfl⟩
  · obtain rfl := Host.Outcome.next.inj ((whenIdle_of_idle hb).symm.trans h)
    exact ⟨_, whenIdle_of_idle hb, a, n, d, s.trace, rfl, rfl⟩

/-- A START is refused in both states or accepted in both (R100). -/
theorem start_lockstep {s t : State} (u : State) (h : start s = .next t) :
    ∃ t', start (s.withHiddenOf u) = .next t' ∧ t = s.started ∧ t' = (s.withHiddenOf u).started := by
  have hsame : (s.withHiddenOf u).startRefusal = s.startRefusal := rfl
  rcases start_cases s with ⟨_, _, he⟩ | ⟨hr, he⟩
  · exact absurd (he.symm.trans h) (by simp)
  · exact ⟨_, by rw [start, hsame, hr], (Host.Outcome.next.inj (he.symm.trans h)).symm, rfl⟩

/-- A host access that completes in one of two states that differ in hidden registers only goes the same way in the
other: it sets visible registers alike, or it starts both (R43, R90, R100). -/
theorem exec_host_lockstep {i : Instr} (hi : i.format = .host) {s₁ s₂ t₁ : State} (hsame : SameButHidden s₁ s₂)
    (h : exec i s₁ = .next t₁) :
    ∃ t₂, exec i s₂ = .next t₂ ∧ (SetAlike s₁ s₂ t₁ t₂ ∨ (t₁ = s₁.started ∧ t₂ = s₂.started)) := by
  obtain ⟨u, rfl⟩ := hsame.exists_withHiddenOf
  cases i with
  | rdCtrl | rdStatus | rdSrcLo | rdSrcHi | rdLenLo | rdLenHi | rdDstLo | rdDstHi | wrStatus =>
    obtain rfl := Host.Outcome.next.inj h
    exact ⟨_, rfl, .inl ⟨_, _, _, _, rfl, rfl⟩⟩
  | wrCtrl d =>
    have hbusy : (s₁.withHiddenOf u).busy = s₁.busy := rfl
    rw [exec_wrCtrl] at h ⊢
    rw [hbusy]
    by_cases hb : s₁.busy = true
    · rw [if_pos hb] at h ⊢
      obtain rfl := Host.Outcome.next.inj h
      exact ⟨_, rfl, .inl ⟨_, _, _, _, rfl, rfl⟩⟩
    rw [if_neg hb] at h ⊢
    by_cases hstart : startBit d = true
    · rw [if_pos hstart] at h ⊢
      exact (start_lockstep u h).imp fun _ ⟨he, ht⟩ => ⟨he, .inr ht⟩
    · rw [if_neg hstart] at h ⊢
      obtain rfl := Host.Outcome.next.inj h
      exact ⟨_, rfl, .inl ⟨_, _, _, _, rfl, rfl⟩⟩
  | wrSrcLo d | wrSrcHi d | wrLenLo d | wrLenHi d | wrDstLo d | wrDstHi d =>
    obtain ⟨t₂, he, hset⟩ := whenIdle_lockstep u _ _ _ h
    exact ⟨t₂, he, .inl hset⟩
  | _ => exact absurd hi (by decide)

/-- Settles O17: of the hidden registers a host access writes START's copies only, and it goes the same way in both
states. -/
theorem hostCannotReachHiddenState : Obligations.HostCannotReachHiddenState := by
  refine ⟨fun s t i hi h => ?_, fun s₁ s₂ t₁ i hi hsame h => ?_⟩
  · rcases exec_host_next hi h with ⟨_, rfl⟩ | ⟨_, _, _, _, rfl⟩ | ⟨_, _, rfl⟩ <;>
      exact ⟨rfl, rfl, rfl, rfl, rfl, rfl, rfl, rfl, rfl, rfl⟩
  · obtain ⟨t₂, he, hset | ⟨rfl, rfl⟩⟩ := exec_host_lockstep hi hsame h
    · exact ⟨t₂, he, hsame.setAlike hset⟩
    · obtain ⟨u, rfl⟩ := hsame.exists_withHiddenOf
      exact ⟨_, he, rfl⟩

end Sys2Proof.Machine
end

section
/-! SUPPORT. Two runs from idle states that differ in hidden registers only: at every phase they agree on the hidden
registers that are still to be read there, so nothing visible ever differs (R43 to R45, R47). -/

namespace Sys2Proof.Machine

/-! ### Register files that agree below an index -/

/-- Two register files hold the same in their first `n` registers. -/
def AgreeBelow {α : Type} {m : Nat} (n : Nat) (x y : Vector α m) : Prop :=
  ∀ i (h : i < m), i < n → y[i] = x[i]

section
variable {α : Type} {m n k : Nat} {x y : Vector α m}

theorem agreeBelow_zero : AgreeBelow 0 x y := fun _ _ h => absurd h (Nat.not_lt_zero _)

theorem AgreeBelow.mono (h : AgreeBelow n x y) (hk : k ≤ n) : AgreeBelow k x y :=
  fun i hi hlt => h i hi (Nat.lt_of_lt_of_le hlt hk)

theorem AgreeBelow.eq (h : AgreeBelow m x y) : y = x := Vector.ext fun i hi => h i hi hi

/-- The register after the agreed ones is written alike. -/
theorem AgreeBelow.setIfInBounds (h : AgreeBelow n x y) (v : α) :
    AgreeBelow (n + 1) (x.setIfInBounds n v) (y.setIfInBounds n v) := by
  intro i hi hlt
  rw [Vector.getElem_setIfInBounds hi, Vector.getElem_setIfInBounds hi]
  split
  · rfl
  · exact h i hi (by omega)

end

/-- The zero bytes go on from the agreed ones (R124). -/
theorem AgreeBelow.zeroRun {x y : Vector Byte 64} {lo : Nat} (h : AgreeBelow lo x y) (hi : Nat) :
    AgreeBelow hi (zeroRun x lo hi) (zeroRun y lo hi) := by
  intro i hi64 hlt
  rw [zeroRun_getElem _ _ _ _ hi64, zeroRun_getElem _ _ _ _ hi64]
  split
  · rfl
  · exact h i hi64 (by omega)

/-- The length field makes the chunk whole (R125). -/
theorem AgreeBelow.lengthField {x y : Vector Byte 64} (h : AgreeBelow 56 x y) (bits : Dword) :
    AgreeBelow 64 (lengthField x bits) (lengthField y bits) := by
  intro i hi _
  rw [lengthField_getElem _ _ _ hi, lengthField_getElem _ _ _ hi]
  split
  · rfl
  · exact h i hi (by omega)

/-! ### What is still to be read at each phase -/

/-- Two states hold the same copies of the command, which START writes. -/
structure CommandAgrees (s t : State) : Prop where
  ptr : t.ptr = s.ptr
  rem : t.rem = s.rem
  total : t.total = s.total
  dptr : t.dptr = s.dptr

/-- Two states hold the same copies of the command, hash state and chunk flags, which START and INIT write. -/
structure ChunksAgree (s t : State) : Prop where
  ptr : t.ptr = s.ptr
  rem : t.rem = s.rem
  total : t.total = s.total
  dptr : t.dptr = s.dptr
  hash : t.hash = s.hash
  fill : t.fill = s.fill
  padded : t.padded = s.padded
  final : t.final = s.final

/-- Two states hold the same in every hidden register that the steps from a phase on can read before they write it. -/
def LiveAgree (s t : State) : Phase → Prop
  | .idle | .finish => True
  | .init => CommandAgrees s t
  | .fetch | .pad80 | .padz => ChunksAgree s t ∧ AgreeBelow s.fill.toNat s.buf t.buf
  | .padlen => ChunksAgree s t ∧ AgreeBelow 56 s.buf t.buf
  | .wload => ChunksAgree s t ∧ t.buf = s.buf ∧ t.t = s.t ∧ AgreeBelow s.t.toNat s.w t.w
  | .wexp => ChunksAgree s t ∧ t.t = s.t ∧ AgreeBelow s.t.toNat s.w t.w
  | .seed => ChunksAgree s t ∧ t.w = s.w
  | .round => ChunksAgree s t ∧ t.w = s.w ∧ t.t = s.t ∧ t.work = s.work
  | .addbk => ChunksAgree s t ∧ t.work = s.work
  | .next => ChunksAgree s t
  | .ser => ChunksAgree s t ∧ t.sidx = s.sidx

/-- Two states that differ in hidden registers only, and in none that is still to be read at their phase. -/
structure Twins (s t : State) : Prop where
  same : SameButHidden s t
  live : LiveAgree s t s.phase

/-- One micro-operation completes in both states and leaves twins. -/
def TurnsAlike (i : Instr) (s t : State) : Prop :=
  ∃ s' t', exec i s = .next s' ∧ exec i t = .next t' ∧ Twins s' t'

/-! ### Each micro-operation -/

theorem wAt_eq_of_agreeBelow {s t : State} {n i : Nat} (h : AgreeBelow n s.w t.w) (hd : t.draws = s.draws)
    (hi : i < n ∨ 64 ≤ i) : t.wAt i = s.wAt i := by
  by_cases h64 : i < 64
  · rw [wAt_eq t h64, wAt_eq s h64]
    exact h i h64 (by omega)
  · simp only [State.wAt, Vector.getElem?_eq_none (Nat.le_of_not_lt h64), hd]

/-- An index `t - d` is below `t`, or it wraps to one that names no word (R153; log 7). -/
theorem tMinus_lt_or_ge (s : State) {d : Nat} (hpos : 0 < d) (hd : d ≤ 16) :
    s.tMinus d < s.t.toNat ∨ 64 ≤ s.tMinus d := by
  have := s.t.isLt
  rw [State.tMinus, BitVec.toNat_sub, BitVec.toNat_ofNat]
  omega

theorem loadedWord_eq {s t : State} (hbuf : t.buf = s.buf) (ht : t.t = s.t) (hd : t.draws = s.draws) :
    t.loadedWord = s.loadedWord := by
  simp only [State.loadedWord, State.bufAt, hbuf, ht, hd]

/-- The word WEXP computes rests on the words already written (R153). -/
theorem expandedWord_eq {s t : State} (h : AgreeBelow s.t.toNat s.w t.w) (ht : t.t = s.t) (hd : t.draws = s.draws) :
    t.expandedWord = s.expandedWord := by
  have hword : ∀ d, 0 < d → d ≤ 16 → t.wAt (t.tMinus d) = s.wAt (s.tMinus d) := fun d hpos hle => by
    rw [State.tMinus, ht]
    exact wAt_eq_of_agreeBelow h hd (tMinus_lt_or_ge s hpos hle)
  simp only [State.expandedWord, hword _ (by decide : 0 < 16), hword _ (by decide : 0 < 15),
    hword _ (by decide : 0 < 7), hword _ (by decide : 0 < 2), Nat.reduceLeDiff]

theorem bitVec_succ_toNat_le {n : Nat} (x : BitVec n) (hn : 0 < n) : (x + 1).toNat ≤ x.toNat + 1 := by
  rw [BitVec.toNat_add]
  exact (Nat.mod_le _ _).trans (by simp [Nat.mod_eq_of_lt (Nat.one_lt_two_pow hn.ne')])

theorem readByte_eq {s t : State} (h : SameButHidden s t) (a : Nat) : t.readByte a = s.readByte a := by
  rw [State.readByte, State.readByte, h.platform_eq, h.mem_eq]

theorem serAddress_eq {s t : State} (h : SameButHidden s t) (hdptr : t.dptr = s.dptr) (hidx : t.sidx = s.sidx) :
    t.serAddress = s.serAddress := by
  rw [State.serAddress, State.serAddress, hdptr, hidx, h.platform_eq]

theorem serByte_eq {s t : State} (h : SameButHidden s t) (hhash : t.hash = s.hash) (hidx : t.sidx = s.sidx) :
    t.serByte = s.serByte := by
  rw [State.serByte, State.serByte, State.hashAt, State.hashAt, hhash, hidx, h.draws_eq]

section
variable {s t : State}

/-- INIT gives the chunk registers their values (R121). -/
theorem init_turnsAlike (hsame : SameButHidden s t) (hl : LiveAgree s t .init) : TurnsAlike .init s t := by
  obtain ⟨u, rfl⟩ := hsame.exists_withHiddenOf
  obtain ⟨hptr, hrem, htotal, hdptr⟩ := hl
  exact ⟨_, _, exec_init _, exec_init _, rfl, ⟨hptr, hrem, htotal, hdptr, rfl, rfl, rfl, rfl⟩, agreeBelow_zero⟩

/-- FETCH reads the same byte into both buffers (R122). -/
theorem fetch_turnsAlike (hsame : SameButHidden s t) (hp : s.phase = .fetch) (hl : LiveAgree s t .fetch) :
    TurnsAlike .fetch s t := by
  have hread := readByte_eq hsame
  obtain ⟨hc, hbuf⟩ := id hl
  obtain ⟨u, rfl⟩ := hsame.exists_withHiddenOf
  rcases exec_fetch_cases s with ⟨hfull, he⟩ | ⟨hfull, hzero, he⟩ | ⟨hfull, hpos, v, hv, he⟩ | ⟨hfull, hpos, hv, he⟩
  · rw [hfull] at hbuf
    exact ⟨_, _, he, exec_fetch_full (hc.fill.trans hfull), rfl, { hc with }, hbuf.eq, rfl, agreeBelow_zero⟩
  · exact ⟨_, _, he, exec_fetch_exhausted (hc.fill ▸ hfull) (hc.rem.trans hzero), rfl, { hc with }, hbuf⟩
  · have hsame' : SameButHidden (s.fetched v) ((s.withHiddenOf u).fetched v) := by
      simp only [SameButHidden, State.fetched, State.showRead, hc.ptr]
      rfl
    refine ⟨_, _, he, exec_fetch_read (hc.fill ▸ hfull) (hc.rem ▸ hpos) (by rw [hc.ptr, hread, hv]), hsame', ?_⟩
    rw [State.fetched_phase, hp]
    refine ⟨{ hc with
      ptr := by rw [State.fetched_ptr, State.fetched_ptr, hc.ptr]; rfl
      rem := by rw [State.fetched_rem, State.fetched_rem, hc.rem]
      fill := by rw [State.fetched_fill, State.fetched_fill, hc.fill] }, ?_⟩
    rw [State.fetched_buf, State.fetched_buf, hc.fill]
    exact (hbuf.setIfInBounds v).mono (bitVec_succ_toNat_le _ (by decide))
  · exact ⟨_, _, he, exec_fetch_stuck (hc.fill ▸ hfull) (hc.rem ▸ hpos) (by rw [hc.ptr, hread, hv]), hsame, hp ▸ hl⟩

/-- PAD80 puts the marker behind the agreed bytes (R123). -/
theorem pad80_turnsAlike (hsame : SameButHidden s t) (hl : LiveAgree s t .pad80) : TurnsAlike .pad80 s t := by
  obtain ⟨hc, hbuf⟩ := hl
  obtain ⟨u, rfl⟩ := hsame.exists_withHiddenOf
  refine ⟨_, _, exec_pad80 _, exec_pad80 _, rfl, { hc with fill := ?_, padded := rfl }, ?_⟩
  · rw [hc.fill]
  · rw [hc.fill]
    exact (hbuf.setIfInBounds _).mono (bitVec_succ_toNat_le _ (by decide))

/-- PADZ fills both buffers up from the same `fill` (R124). -/
theorem padz_turnsAlike (hsame : SameButHidden s t) (hl : LiveAgree s t .padz) : TurnsAlike .padz s t := by
  obtain ⟨hc, hbuf⟩ := hl
  obtain ⟨u, rfl⟩ := hsame.exists_withHiddenOf
  by_cases hshort : s.fill.toNat ≤ 56
  · refine ⟨_, _, exec_padz_short hshort, exec_padz_short (hc.fill ▸ hshort), rfl,
      ⟨hc.ptr, hc.rem, hc.total, hc.dptr, hc.hash, rfl, hc.padded, hc.final⟩, ?_⟩
    rw [hc.fill]
    exact hbuf.zeroRun 56
  · refine ⟨_, _, exec_padz_long hshort, exec_padz_long (hc.fill ▸ hshort), rfl,
      ⟨hc.ptr, hc.rem, hc.total, hc.dptr, hc.hash, rfl, hc.padded, hc.final⟩, ?_, rfl, agreeBelow_zero⟩
    rw [hc.fill]
    exact (hbuf.zeroRun 64).eq

/-- PADLEN writes the same length behind the agreed bytes (R125). -/
theorem padlen_turnsAlike (hsame : SameButHidden s t) (hl : LiveAgree s t .padlen) : TurnsAlike .padlen s t := by
  obtain ⟨hc, hbuf⟩ := hl
  obtain ⟨u, rfl⟩ := hsame.exists_withHiddenOf
  refine ⟨_, _, exec_padlen _, exec_padlen _, rfl,
    ⟨hc.ptr, hc.rem, hc.total, hc.dptr, hc.hash, rfl, hc.padded, rfl⟩, ?_, rfl, agreeBelow_zero⟩
  rw [hc.total]
  exact (hbuf.lengthField _).eq

/-- WLOAD forms the same word in both schedules (R152). -/
theorem wload_turnsAlike (hsame : SameButHidden s t) (hl : LiveAgree s t .wload) : TurnsAlike .wload s t := by
  obtain ⟨hc, hbuf, ht, hw⟩ := hl
  have hword := loadedWord_eq hbuf ht hsame.draws_eq
  have hw' := (hw.setIfInBounds s.loadedWord).mono (bitVec_succ_toNat_le s.t (by decide))
  obtain ⟨u, rfl⟩ := hsame.exists_withHiddenOf
  refine ⟨_, _, exec_wload _, exec_wload _, ?_⟩
  rw [ht, hword]
  refine ⟨rfl, ?_⟩
  dsimp only
  split
  · exact ⟨{ hc with }, rfl, hw'⟩
  · exact ⟨{ hc with }, hbuf, rfl, hw'⟩

/-- WEXP computes the same word from the words already written (R153, R155). -/
theorem wexp_turnsAlike (hsame : SameButHidden s t) (hl : LiveAgree s t .wexp) : TurnsAlike .wexp s t := by
  obtain ⟨hc, ht, hw⟩ := hl
  have hword := expandedWord_eq hw ht hsame.draws_eq
  have hw' := hw.setIfInBounds s.expandedWord
  obtain ⟨u, rfl⟩ := hsame.exists_withHiddenOf
  refine ⟨_, _, exec_wexp _, exec_wexp _, ?_⟩
  rw [ht, hword]
  refine ⟨rfl, ?_⟩
  by_cases hlast : s.t = 63
  · rw [if_pos hlast, hlast]
    rw [hlast] at hw'
    exact ⟨{ hc with }, hw'.eq⟩
  · rw [if_neg hlast]
    exact ⟨{ hc with }, rfl, hw'.mono (bitVec_succ_toNat_le s.t (by decide))⟩

/-- SEED copies the same hash state (R175). -/
theorem seed_turnsAlike (hsame : SameButHidden s t) (hl : LiveAgree s t .seed) : TurnsAlike .seed s t := by
  obtain ⟨hc, hw⟩ := hl
  obtain ⟨u, rfl⟩ := hsame.exists_withHiddenOf
  exact ⟨_, _, exec_seed _, exec_seed _, rfl, { hc with }, hw, rfl, congrArg workOfHash hc.hash⟩

/-- ROUND mixes the same schedule word (R176). -/
theorem round_turnsAlike (hsame : SameButHidden s t) (hl : LiveAgree s t .round) : TurnsAlike .round s t := by
  obtain ⟨hc, hw, ht, hwork⟩ := hl
  have hk : t.kAt s.t.toNat = s.kAt s.t.toNat := by rw [State.kAt, State.kAt, hsame.draws_eq]
  have hword : t.wAt s.t.toNat = s.wAt s.t.toNat := by rw [State.wAt, State.wAt, hw, hsame.draws_eq]
  obtain ⟨u, rfl⟩ := hsame.exists_withHiddenOf
  refine ⟨_, _, exec_round _, exec_round _, ?_⟩
  rw [ht, hk, hword, hwork]
  refine ⟨rfl, ?_⟩
  dsimp only
  split
  · exact ⟨{ hc with }, rfl⟩
  · exact ⟨{ hc with }, hw, rfl, rfl⟩

/-- ADDBK adds the same working variables (R177). -/
theorem addbk_turnsAlike (hsame : SameButHidden s t) (hl : LiveAgree s t .addbk) : TurnsAlike .addbk s t := by
  obtain ⟨hc, hwork⟩ := hl
  obtain ⟨u, rfl⟩ := hsame.exists_withHiddenOf
  exact ⟨_, _, exec_addbk _, exec_addbk _, rfl, { hc with hash := by rw [hc.hash, hwork] }⟩

/-- NEXT takes the same branch, and clears what it does not leave behind (R126). -/
theorem next_turnsAlike (hsame : SameButHidden s t) (hc : ChunksAgree s t) : TurnsAlike .next s t := by
  obtain ⟨u, rfl⟩ := hsame.exists_withHiddenOf
  rcases exec_next_cases s with ⟨hfinal, he⟩ | ⟨hfinal, hpadded, he⟩ | ⟨hfinal, hpadded, he⟩
  · exact ⟨_, _, he, exec_next_final (hc.final.trans hfinal), rfl, { hc with }, rfl⟩
  · exact ⟨_, _, he, exec_next_padded (hc.final.trans hfinal) (hc.padded.trans hpadded), rfl,
      ⟨hc.ptr, hc.rem, hc.total, hc.dptr, hc.hash, rfl, hc.padded, hc.final⟩,
      (agreeBelow_zero.zeroRun 64).mono (by decide)⟩
  · exact ⟨_, _, he, exec_next_more (hc.final.trans hfinal) (hc.padded.trans hpadded), rfl, { hc with fill := rfl },
      agreeBelow_zero⟩

/-- SER writes the same byte at the same address (R200). -/
theorem ser_turnsAlike (hsame : SameButHidden s t) (hp : s.phase = .ser) (hl : LiveAgree s t .ser) :
    TurnsAlike .ser s t := by
  obtain ⟨hc, hidx⟩ := id hl
  have haddr := serAddress_eq hsame hc.dptr hidx
  have hbyte := serByte_eq hsame hc.hash hidx
  obtain ⟨u, rfl⟩ := hsame.exists_withHiddenOf
  rcases exec_ser_cases s with ⟨hw, he⟩ | ⟨hw, he⟩
  · have hsame' : SameButHidden s.serialized (s.withHiddenOf u).serialized := by
      simp only [SameButHidden, State.serialized, State.writeByte, haddr, hbyte, hidx]
      rfl
    refine ⟨_, _, he, exec_ser_write (haddr ▸ hw), hsame', ?_⟩
    rw [State.serialized_phase]
    split
    · trivial
    · exact ⟨{ hc with }, by rw [State.serialized_sidx, State.serialized_sidx, hidx]⟩
  · exact ⟨_, _, he, exec_ser_stuck (haddr ▸ hw), hsame, hp ▸ hl⟩

/-- FINISH leaves nothing to be read (R47, R201). -/
theorem finish_turnsAlike (hsame : SameButHidden s t) : TurnsAlike .finish s t := by
  obtain ⟨u, rfl⟩ := hsame.exists_withHiddenOf
  exact ⟨_, _, exec_finish _, exec_finish _, rfl, trivial⟩

/-- The turn of every phase leaves twins. -/
theorem Twins.turnsAlike (h : Twins s t) : TurnsAlike s.phase.instr s t := by
  obtain ⟨hsame, hl⟩ := id h
  cases hp : s.phase <;> rw [hp] at hl
  case idle => exact ⟨s, t, exec_idle s, exec_idle t, h⟩
  case init => exact init_turnsAlike hsame hl
  case fetch => exact fetch_turnsAlike hsame hp hl
  case pad80 => exact pad80_turnsAlike hsame hl
  case padz => exact padz_turnsAlike hsame hl
  case padlen => exact padlen_turnsAlike hsame hl
  case wload => exact wload_turnsAlike hsame hl
  case wexp => exact wexp_turnsAlike hsame hl
  case seed => exact seed_turnsAlike hsame hl
  case round => exact round_turnsAlike hsame hl
  case addbk => exact addbk_turnsAlike hsame hl
  case next => exact next_turnsAlike hsame hl
  case ser => exact ser_turnsAlike hsame hp hl
  case finish => exact finish_turnsAlike hsame

end

/-! ### Every step -/

/-- What the next turn runs in the state with the head of the agenda taken off (log 1, log 2). -/
theorem step_of_sequencerTurn {s : State} (h : s.sequencerTurn) : step s = exec s.phase.instr s.turned := by
  rcases h with h | ⟨es, h⟩
  · rw [step_of_agenda_nil h, turned_eq_self h]
  · rw [step_of_sequencer h, turned_of_agenda_cons h]

theorem step_of_reset {s : State} {es : List Event} (h : s.agenda = .reset :: es) :
    step s = .next s.turned.resetEvent := by
  simp only [step, State.fetchBytes, State.environmentMove, h]

theorem step_of_store {s : State} {a : Nat} {v : Byte} {es : List Event} (h : s.agenda = .store a v :: es) :
    step s = s.turned.masterStore a v := by
  simp only [step, State.fetchBytes, State.environmentMove, h]

/-- The agreement is about hidden registers only. -/
theorem LiveAgree.withHiddenOf {s₁ s₂ : State} {p : Phase} (h : LiveAgree s₁ s₂ p) (t₁ t₂ : State) :
    LiveAgree (t₁.withHiddenOf s₁) (t₂.withHiddenOf s₂) p := by
  cases p with
  | idle | finish => trivial
  | init | next => exact { h with }
  | fetch | pad80 | padz | padlen | wload | wexp | seed | round | addbk | ser =>
    obtain ⟨hc, hrest⟩ := h
    exact ⟨{ hc with }, hrest⟩

section
variable {s₁ s₂ t₁ : State}

theorem Twins.turned (h : Twins s₁ s₂) : Twins s₁.turned s₂.turned :=
  ⟨h.same.turned, h.live.withHiddenOf s₁.turned s₂.turned⟩

/-- A host access leaves twins: it writes no hidden register, or it starts both and so gives both the same copies of the
command (R100). -/
theorem Twins.exec_host (h : Twins s₁ s₂) {i : Instr} (hi : i.format = .host) (he : exec i s₁ = .next t₁) :
    ∃ t₂, exec i s₂ = .next t₂ ∧ Twins t₁ t₂ := by
  obtain ⟨t₂, he₂, hset | ⟨rfl, rfl⟩⟩ := exec_host_lockstep hi h.same he
  · refine ⟨t₂, he₂, h.same.setAlike hset, ?_⟩
    obtain ⟨a, n, d, tr, rfl, rfl⟩ := hset
    exact h.live.withHiddenOf { s₁ with src := a, len := n, dst := d, trace := tr }
      { s₂ with src := a, len := n, dst := d, trace := tr }
  · obtain ⟨u, rfl⟩ := h.same.exists_withHiddenOf
    exact ⟨_, he₂, rfl, rfl, rfl, rfl, rfl⟩

/-- Another master's store leaves twins, or faults in both (R50, R65). -/
theorem Twins.masterStore (h : Twins s₁ s₂) {a : Nat} {v : Byte} (he : s₁.masterStore a v = .next t₁) :
    ∃ t₂, s₂.masterStore a v = .next t₂ ∧ Twins t₁ t₂ := by
  rcases masterStore_cases s₁ a v with ⟨hlt, hs⟩ | ⟨_, hs⟩
  · obtain rfl := Host.Outcome.next.inj (hs.symm.trans he)
    refine ⟨_, if_pos (h.same.platform_eq ▸ hlt), ?_,
      h.live.withHiddenOf { s₁ with mem := s₁.mem.store a v } { s₂ with mem := s₂.mem.store a v }⟩
    obtain ⟨u, rfl⟩ := h.same.exists_withHiddenOf
    rfl
  · exact absurd (hs.symm.trans he) (by simp)

/-- Reset leaves both idle, with the operands clear (R44, R250). -/
theorem SameButHidden.resetEvent_twins (h : SameButHidden s₁ s₂) : Twins s₁.resetEvent s₂.resetEvent := by
  obtain ⟨u, rfl⟩ := h.exists_withHiddenOf
  exact ⟨rfl, trivial⟩

/-- Twins take every step alike and stay twins. -/
theorem Twins.step_alike (h : Twins s₁ s₂) (hstep : step s₁ = .next t₁) : ∃ t₂, step s₂ = .next t₂ ∧ Twins t₁ t₂ := by
  have hagenda := h.same.agenda_eq
  rcases step_cases s₁ with ⟨x, es, ha, he⟩ | ⟨ha, he⟩ | ⟨es, ha, he⟩ | ⟨a, v, es, ha, he⟩
  · rw [step_of_access (hagenda.trans ha), ← turned_of_agenda_cons (hagenda.trans ha)]
    exact h.turned.exec_host (decodeAccess_format x) (he.symm.trans hstep)
  · have ha₂ : s₂.sequencerTurn := by rw [State.sequencerTurn, hagenda]; exact ha
    obtain ⟨s', t', hs', ht', htwins⟩ := h.turned.turnsAlike
    obtain rfl : s' = t₁ := Host.Outcome.next.inj (hs'.symm.trans (he.symm.trans hstep))
    exact ⟨t', by rw [step_of_sequencerTurn ha₂, h.same.phase_eq]; exact ht', htwins⟩
  · obtain rfl := Host.Outcome.next.inj (he.symm.trans hstep)
    exact ⟨_, step_of_reset (hagenda.trans ha), h.same.turned.resetEvent_twins⟩
  · rw [step_of_store (hagenda.trans ha)]
    exact h.turned.masterStore (he.symm.trans hstep)

end

/-- A run that is longer by a step begins with a step that completes. -/
theorem runSteps_succ_next {n : Nat} {s t : State} (h : runSteps (n + 1) s = .next t) :
    ∃ u, step s = .next u ∧ runSteps n u = .next t := by
  rw [runSteps] at h
  split at h
  · exact ⟨_, ‹_›, h⟩
  · cases h
  · cases h

theorem Twins.runSteps_alike {n : Nat} {s₁ s₂ t₁ : State} (h : Twins s₁ s₂) (hrun : runSteps n s₁ = .next t₁) :
    ∃ t₂, runSteps n s₂ = .next t₂ ∧ Twins t₁ t₂ := by
  induction n generalizing s₁ s₂ with
  | zero =>
    obtain rfl := Host.Outcome.next.inj hrun
    exact ⟨s₂, rfl, h⟩
  | succ n ih =>
    obtain ⟨u₁, hstep, hrest⟩ := runSteps_succ_next hrun
    obtain ⟨u₂, hstep₂, htwins⟩ := h.step_alike hstep
    rw [runSteps_succ_of_step hstep₂]
    exact ih htwins hrest

/-- Settles O59: idle states that differ in hidden registers only are twins, and twins stay twins. -/
theorem hiddenLeftoversAreNeverSeen : Obligations.HiddenLeftoversAreNeverSeen := by
  intro s₁ s₂ t₁ n hidle _ hsame hrun
  have htwins : Twins s₁ s₂ := ⟨hsame, by rw [hidle]; trivial⟩
  obtain ⟨t₂, hrun₂, hend⟩ := htwins.runSteps_alike hrun
  exact ⟨t₂, hrun₂, hend.same⟩

end Sys2Proof.Machine
end

section
/-! SUPPORT. What a store leaves at every address, when a read is admitted, and everything a step can do to `Mem` and show
of it (R50 to R52, R58, R61, R65). -/

namespace Sys2Proof.Machine

/-! ### Reads after stores -/

/-- R51, R52, for a memory in any order. -/
theorem Memory.lookup_store (m : Memory) (a b : Nat) (v : Byte) :
    (m.store a v).lookup b = if b = a then some v else m.lookup b := by
  induction m with
  | nil => simp only [Memory.store, Memory.lookup, eq_comm]
  | cons c rest ih =>
    obtain ⟨k, x⟩ := c
    rcases Nat.lt_trichotomy a k with hlt | rfl | hgt
    · rw [Memory.store, if_pos hlt, Memory.lookup]
      simp only [eq_comm]
    · rw [Memory.store, if_neg (lt_irrefl a), if_pos rfl, Memory.lookup, Memory.lookup]
      by_cases hb : a = b
      · rw [if_pos hb, if_pos hb.symm]
      · rw [if_neg hb, if_neg hb, if_neg (Ne.symm hb)]
    · rw [Memory.store, if_neg (Nat.not_lt.mpr hgt.le), if_neg hgt.ne', Memory.lookup, Memory.lookup, ih]
      by_cases hk : k = b
      · rw [if_pos hk, if_pos hk, if_neg (by omega)]
      · rw [if_neg hk, if_neg hk]

/-- Settles O39. -/
theorem storedByteIsRead : Obligations.StoredByteIsRead := Memory.lookup_store

/-! ### Admitted reads -/

theorem readable_iff (p : Platform) (a : Nat) : readable p a = true ↔
    a < 2 ^ p.aw ∧ ∃ r ∈ p.regions, r.read = true ∧ r.base ≤ a ∧ a < r.base + r.size := by
  simp only [readable, Region.holds, Bool.and_eq_true, decide_eq_true_eq, List.any_eq_true]

theorem readByte_eq_some_iff (s : State) (a : Nat) (v : Byte) :
    s.readByte a = some v ↔ readable s.platform a = true ∧ s.mem.lookup a = some v := by
  rw [State.readByte]
  split_ifs with h <;> simp [h]

/-- Settles O40: a read needs the platform's leave and a listed byte. -/
theorem admittedReadsGiveTheByte : Obligations.AdmittedReadsGiveTheByte := by
  intro s a v
  rw [readByte_eq_some_iff, readable_iff]
  exact ⟨fun ⟨⟨hlt, hregion⟩, hbyte⟩ => ⟨hlt, hbyte, hregion⟩, fun ⟨hlt, hbyte, hregion⟩ => ⟨⟨hlt, hregion⟩, hbyte⟩⟩

/-- Settles O38: inside the space the byte is stored, outside it the store faults. -/
theorem otherMasterStoresAreSeenAtOnce : Obligations.OtherMasterStoresAreSeenAtOnce := by
  intro s a v es ha
  rw [step_of_store ha, turned_of_agenda_cons ha]
  refine ⟨fun hlt => ⟨s.mem.store a v, if_pos hlt, ?_, fun b hb => ?_⟩, fun hge => if_neg (Nat.not_lt.mpr hge)⟩
  · rw [Memory.lookup_store, if_pos rfl]
  · rw [Memory.lookup_store, if_neg hb]

/-! ### An access that is not admitted -/

/-- A state that steps to itself stays for ever. -/
theorem runSteps_of_step_eq_self {s : State} (h : step s = .next s) (n : Nat) : runSteps n s = .next s := by
  induction n with
  | zero => rfl
  | succ n ih => rw [runSteps_succ_of_step h, ih]

/-- Settles O58: FETCH and SER step to the state they are in. -/
theorem unadmittedAccessIsStuck : Obligations.UnadmittedAccessIsStuck := by
  refine ⟨fun s ha hp hfill hrem hread => ?fetch, fun s ha hp hwrite => ?ser⟩
  case fetch =>
    have hnotFull : s.fill ≠ 64 := by rintro h; simp [h] at hfill
    exact runSteps_of_step_eq_self (by rw [step_of_agenda_nil ha, hp]; exact exec_fetch_stuck hnotFull hrem hread)
  case ser => exact runSteps_of_step_eq_self (by rw [step_of_agenda_nil ha, hp]; exact exec_ser_stuck hwrite)

/-! ### What a step does to `Mem` -/

@[simp] theorem memoryAccesses_memRead (a : Nat) (v : Byte) (tr : List Observation) :
    memoryAccesses (.memRead a v :: tr) = .memRead a v :: memoryAccesses tr := rfl

@[simp] theorem memoryAccesses_memWrite (a : Nat) (v : Byte) (tr : List Observation) :
    memoryAccesses (.memWrite a v :: tr) = .memWrite a v :: memoryAccesses tr := rfl

/-- From `s` to `t` the memory and the accesses shown change in one of four ways (R50, R58). -/
inductive MemoryMove (s t : State) : Prop where
  /-- SER stores its byte where `Mem` admits it (R200). -/
  | serWrites (turn : s.sequencerTurn) (phase : s.phase = .ser) (admitted : writable s.platform s.serAddress = true)
      (mem : t.mem = s.mem.store s.serAddress s.serByte)
      (shown : memoryAccesses t.trace = .memWrite s.serAddress s.serByte :: memoryAccesses s.trace)
  /-- FETCH reads a byte at `ptr` (R122). -/
  | fetchReads (v : Byte) (turn : s.sequencerTurn) (phase : s.phase = .fetch) (read : s.readByte s.ptr.toNat = some v)
      (mem : t.mem = s.mem) (shown : memoryAccesses t.trace = .memRead s.ptr.toNat v :: memoryAccesses s.trace)
  /-- Another master stores a byte inside the space (R50, R65). -/
  | masterStores (a : Nat) (v : Byte) (es : List Event) (agenda : s.agenda = .store a v :: es)
      (inSpace : a < 2 ^ s.platform.aw) (mem : t.mem = s.mem.store a v)
      (shown : memoryAccesses t.trace = memoryAccesses s.trace)
  /-- The block does not access `Mem` and nobody stores. -/
  | untouched (mem : t.mem = s.mem) (shown : memoryAccesses t.trace = memoryAccesses s.trace)

section
variable {s t : State}

/-- Of the micro-operations only FETCH and SER access `Mem` (R58). -/
theorem turn_memoryMove (hturn : s.sequencerTurn) : ∃ t, exec s.phase.instr s.turned = .next t ∧ MemoryMove s t := by
  cases hp : s.phase with
  | fetch =>
    rcases exec_fetch_cases s.turned with ⟨_, he⟩ | ⟨_, _, he⟩ | ⟨_, _, v, hv, he⟩ | ⟨_, _, _, he⟩
    case inr.inr.inl => exact ⟨_, he, .fetchReads v hturn hp hv rfl rfl⟩
    all_goals exact ⟨_, he, .untouched rfl rfl⟩
  | ser =>
    rcases exec_ser_cases s.turned with ⟨hw, he⟩ | ⟨_, he⟩
    · exact ⟨_, he, .serWrites hturn hp hw rfl rfl⟩
    · exact ⟨_, he, .untouched rfl rfl⟩
  | padz => rcases exec_padz_cases s.turned with ⟨_, he⟩ | ⟨_, he⟩ <;> exact ⟨_, he, .untouched rfl rfl⟩
  | next =>
    rcases exec_next_cases s.turned with ⟨_, he⟩ | ⟨_, _, he⟩ | ⟨_, _, he⟩ <;> exact ⟨_, he, .untouched rfl rfl⟩
  | idle => exact ⟨_, exec_idle _, .untouched rfl rfl⟩
  | init => exact ⟨_, exec_init _, .untouched rfl rfl⟩
  | pad80 => exact ⟨_, exec_pad80 _, .untouched rfl rfl⟩
  | padlen => exact ⟨_, exec_padlen _, .untouched rfl rfl⟩
  | wload => exact ⟨_, exec_wload _, .untouched rfl rfl⟩
  | wexp => exact ⟨_, exec_wexp _, .untouched rfl rfl⟩
  | seed => exact ⟨_, exec_seed _, .untouched rfl rfl⟩
  | round => exact ⟨_, exec_round _, .untouched rfl rfl⟩
  | addbk => exact ⟨_, exec_addbk _, .untouched rfl rfl⟩
  | finish => exact ⟨_, exec_finish _, .untouched rfl rfl⟩

/-- No host access accesses `Mem` (R90, R99). -/
theorem exec_host_mem {i : Instr} (hi : i.format = .host) (h : exec i s = .next t) :
    t.mem = s.mem ∧ memoryAccesses t.trace = memoryAccesses s.trace := by
  rcases exec_host_cases hi s with ⟨_, _, he⟩ | he | ⟨_, _, he⟩ | ⟨_, _, he⟩ | ⟨_, _, he⟩ | ⟨_, _, _, _, _, he⟩ |
    ⟨_, _, _, _, _, _, he⟩
  case inr.inr.inr.inr.inr.inr => exact absurd (he.symm.trans h) (by simp)
  all_goals
    obtain rfl := Host.Outcome.next.inj (he.symm.trans h)
    exact ⟨rfl, rfl⟩

/-- Everything a step can do to `Mem` and show of it. -/
theorem step_memoryMove (h : step s = .next t) : MemoryMove s t := by
  rcases step_cases s with ⟨x, es, _, he⟩ | ⟨hturn, he⟩ | ⟨_, _, he⟩ | ⟨a, v, es, ha, he⟩
  · obtain ⟨hmem, hshown⟩ := exec_host_mem (decodeAccess_format x) (he.symm.trans h)
    exact .untouched hmem hshown
  · obtain ⟨u, hu, hmove⟩ := turn_memoryMove hturn
    obtain rfl : u = t := Host.Outcome.next.inj (hu.symm.trans (he.symm.trans h))
    exact hmove
  · obtain rfl := Host.Outcome.next.inj (he.symm.trans h)
    exact .untouched rfl rfl
  · rcases masterStore_cases s.turned a v with ⟨hlt, hm⟩ | ⟨_, hm⟩
    · obtain rfl := Host.Outcome.next.inj (hm.symm.trans (he.symm.trans h))
      exact .masterStores a v es ha hlt rfl rfl
    · exact absurd (hm.symm.trans (he.symm.trans h)) (by simp)

end

/-- Settles O41. -/
theorem onlySerWritesAndOnlyFetchReads : Obligations.OnlySerWritesAndOnlyFetchReads := by
  intro s t h
  cases step_memoryMove h with
  | serWrites hturn hp _ hmem hshown => exact .inl ⟨_, hturn, hp, hmem, hshown⟩
  | fetchReads v hturn hp hread hmem hshown => exact .inr (.inl ⟨v, hturn, hp, hread, hmem, hshown⟩)
  | masterStores a v es ha _ hmem hshown => exact .inr (.inr (.inl ⟨a, v, es, ha, hmem, hshown⟩))
  | untouched hmem hshown => exact .inr (.inr (.inr ⟨hmem, hshown⟩))

/-- The memory invariant is kept where the memory is kept, or a byte inside the space is stored. -/
theorem MemoryInv.of_store {s t : State} (h : MemoryInv s) (hplat : t.platform = s.platform) {a : Nat} {v : Byte}
    (ha : a < 2 ^ s.platform.aw) (hmem : t.mem = s.mem.store a v) : MemoryInv t where
  canonical := hmem ▸ Memory.store_wf h.canonical a v
  inSpace := by rw [hmem, hplat]; exact Memory.store_inSpace h.inSpace ha v

theorem MemoryInv.of_mem_eq {s t : State} (h : MemoryInv s) (hplat : t.platform = s.platform) (hmem : t.mem = s.mem) :
    MemoryInv t where
  canonical := hmem ▸ h.canonical
  inSpace := by rw [hmem, hplat]; exact h.inSpace

/-- Settles O42: the step stores one byte inside the space, or none. -/
theorem stepKeepsMemoryInvariant : Obligations.StepKeepsMemoryInvariant := by
  intro s t h hstep
  have hplat : t.platform = s.platform := (operandsAreStable s t hstep).1
  cases step_memoryMove hstep with
  | serWrites _ _ hw hmem _ => exact h.of_store hplat (writable_lt hw) hmem
  | fetchReads _ _ _ _ hmem _ => exact h.of_mem_eq hplat hmem
  | masterStores _ _ _ _ ha hmem _ => exact h.of_store hplat ha hmem
  | untouched hmem _ => exact h.of_mem_eq hplat hmem

end Sys2Proof.Machine
end

section
/-! SUPPORT. The chunks of `pad(M)` byte by byte (R127, R128), and how a buffer comes to hold one (R122 to R125). -/

namespace Sys2Proof.Machine

/-! ### The padded message as one sequence of bytes -/

/-- Chunk `k` of the padded message (R127). -/
def padChunk (m : List Byte) (k : Nat) : Chunk := chunkOfList ((pad m).getD k [])

/-- Byte `p` of the padded message: the message, the marker, zeros, and in the last eight bytes the bit length (R127). -/
def padByte (m : List Byte) (p : Nat) : Byte :=
  if p < m.length then m.getD p 0
  else if p = m.length then 0x80
  else if p < 64 * ((m.length + 8) / 64) + 56 then 0
  else byteOfDword (BitVec.ofNat 64 (8 * m.length)) (p - (64 * ((m.length + 8) / 64) + 56))

@[simp] theorem chunkOfList_getElem (l : List Byte) {i : Nat} (hi : i < 64) : (chunkOfList l)[i] = l.getD i 0 := by
  simp [chunkOfList]

theorem fullChunks_length (m : List Byte) (q : Nat) : (fullChunks m q).length = q := by simp [fullChunks]

theorem lastChunks_length (tail : List Byte) (len : Nat) :
    (lastChunks tail len).length = if tail.length < 56 then 1 else 2 := by
  rw [lastChunks]
  split <;> rfl

/-- R128. -/
theorem pad_length (m : List Byte) : (pad m).length = (m.length + 8) / 64 + 1 := by
  simp only [pad, List.length_append, fullChunks_length, lastChunks_length, List.length_drop]
  split <;> omega

theorem be64_getD (x : Dword) {i : Nat} (hi : i < 8) : (be64 x).getD i 0 = byteOfDword x i := by
  simp [be64, List.getD_eq_getElem?_getD, List.getElem?_range hi]

/-- Zeros, then other bytes. -/
theorem zeros_append_getD (n i : Nat) (rest : List Byte) :
    (zeros n ++ rest).getD i 0 = if i < n then 0 else rest.getD (i - n) 0 := by
  simp only [List.getD_eq_getElem?_getD, List.getElem?_append, zeros, List.length_replicate]
  split_ifs with h
  · rw [List.getElem?_replicate_of_lt h, Option.getD_some]
  · rfl

/-- Bytes, the marker, zeros, then other bytes. -/
theorem marked_getD (tail rest : List Byte) (n i : Nat) :
    (tail ++ [0x80] ++ zeros n ++ rest).getD i 0 =
      if i < tail.length then tail.getD i 0
      else if i = tail.length then 0x80
      else if i < tail.length + 1 + n then 0
      else rest.getD (i - (tail.length + 1 + n)) 0 := by
  rw [List.append_assoc, List.append_assoc]
  split_ifs with htail hmark hzero
  · exact List.getD_append _ _ _ _ htail
  · rw [hmark, List.getD_append_right _ _ _ _ le_rfl, Nat.sub_self]
    rfl
  all_goals
    obtain ⟨j, rfl⟩ : ∃ j, i = tail.length + (j + 1) := ⟨i - tail.length - 1, by omega⟩
    rw [List.getD_append_right _ _ _ _ (by omega), Nat.add_sub_cancel_left, List.singleton_append, List.getD_cons_succ,
      zeros_append_getD]
  · exact if_pos (by omega)
  · rw [if_neg (by omega)]
    congr 1
    omega

/-- A full chunk is 64 bytes of the message. -/
theorem fullChunk_getD {m : List Byte} {q k i : Nat} (hk : k < q) (hi : i < 64) :
    ((fullChunks m q).getD k []).getD i 0 = m.getD (64 * k + i) 0 := by
  simp only [fullChunks, List.getD_eq_getElem?_getD, List.getElem?_map, List.getElem?_range hk, Option.map_some,
    Option.getD_some, List.getElem?_take_of_lt hi, List.getElem?_drop]

section
variable {tail : List Byte} {len i : Nat}

/-- The chunk of the trailing bytes: these, the marker, zeros, and the bit length where it fits. -/
theorem lastChunks_getD_zero (htail : tail.length < 64) (hi : i < 64) :
    ((lastChunks tail len).getD 0 []).getD i 0 =
      if i < tail.length then tail.getD i 0
      else if i = tail.length then 0x80
      else if i < 56 ∨ 56 ≤ tail.length then 0
      else byteOfDword (BitVec.ofNat 64 (8 * len)) (i - 56) := by
  rw [lastChunks]
  by_cases hshort : tail.length < 56
  · have hend : tail.length + 1 + (55 - tail.length) = 56 := by omega
    rw [if_pos hshort, List.getD_cons_zero, marked_getD, be64_getD _ (by omega)]
    simp only [hend, Nat.not_le.mpr hshort, or_false]
  · have hzero : i < tail.length + 1 + (63 - tail.length) := by omega
    rw [if_neg hshort, List.getD_cons_zero, ← List.append_nil (_ ++ zeros _), marked_getD]
    simp only [if_pos hzero, if_pos (Or.inr (Nat.le_of_not_lt hshort))]

/-- The chunk of the bit length alone, where it did not fit. -/
theorem lastChunks_getD_one (htail : 56 ≤ tail.length) (hi : i < 64) :
    ((lastChunks tail len).getD 1 []).getD i 0 =
      if i < 56 then 0 else byteOfDword (BitVec.ofNat 64 (8 * len)) (i - 56) := by
  rw [lastChunks, if_neg (Nat.not_lt.mpr htail), List.getD_cons_succ, List.getD_cons_zero, zeros_append_getD,
    be64_getD _ (by omega)]

end

/-- Chunk `k` holds the bytes `64 k` to `64 k + 63` of the padded message. -/
theorem padChunk_getElem {m : List Byte} {k i : Nat} (hk : k < (m.length + 8) / 64 + 1) (hi : i < 64) :
    (padChunk m k)[i] = padByte m (64 * k + i) := by
  have hfull := fullChunks_length m (m.length / 64)
  have htail : (m.drop (64 * (m.length / 64))).length = m.length % 64 := by rw [List.length_drop]; omega
  rw [padChunk, chunkOfList_getElem _ hi, pad, padByte]
  obtain hlt | rfl | ⟨rfl, hlong⟩ :
      k < m.length / 64 ∨ k = m.length / 64 ∨ (k = m.length / 64 + 1 ∧ 56 ≤ m.length % 64) := by omega
  · rw [List.getD_append _ _ _ _ (hfull.symm ▸ hlt), fullChunk_getD hlt hi, if_pos (by omega)]
  · have hbyte : (m.drop (64 * (m.length / 64))).getD i 0 = m.getD (64 * (m.length / 64) + i) 0 := by
      simp only [List.getD_eq_getElem?_getD, List.getElem?_drop]
    have hmsg : 64 * (m.length / 64) + i < m.length ↔ i < m.length % 64 := by omega
    have hmark : 64 * (m.length / 64) + i = m.length ↔ i = m.length % 64 := by omega
    have hzero : 64 * (m.length / 64) + i < 64 * ((m.length + 8) / 64) + 56 ↔ i < 56 ∨ 56 ≤ m.length % 64 := by omega
    rw [List.getD_append_right _ _ _ _ hfull.le, hfull, Nat.sub_self, lastChunks_getD_zero (by omega) hi, htail, hbyte]
    simp only [hmsg, hmark, hzero]
    split_ifs
    · rfl
    · rfl
    · rfl
    · congr 1
      omega
  · have hmsg : ¬ 64 * (m.length / 64 + 1) + i < m.length := by omega
    have hmark : ¬ 64 * (m.length / 64 + 1) + i = m.length := by omega
    have hbase : 64 * ((m.length + 8) / 64) + 56 = 64 * (m.length / 64 + 1) + 56 := by omega
    rw [List.getD_append_right _ _ _ _ (by omega), hfull, Nat.add_sub_cancel_left,
      lastChunks_getD_one (htail.symm ▸ hlong) hi, if_neg hmsg, if_neg hmark, hbase]
    simp only [Nat.add_lt_add_iff_left, Nat.add_sub_add_left]

section
variable {m : List Byte} {p : Nat}

theorem padByte_of_message (h : p < m.length) : padByte m p = m.getD p 0 := if_pos h

theorem padByte_marker (m : List Byte) : padByte m m.length = 0x80 := by simp [padByte]

theorem padByte_of_zeros (h : m.length < p) (hp : p < 64 * ((m.length + 8) / 64) + 56) : padByte m p = 0 := by
  rw [padByte, if_neg (Nat.not_lt.mpr h.le), if_neg h.ne', if_pos hp]

theorem padByte_of_lengthField (hp : 64 * ((m.length + 8) / 64) + 56 ≤ p) : padByte m p =
    byteOfDword (BitVec.ofNat 64 (8 * m.length)) (p - (64 * ((m.length + 8) / 64) + 56)) := by
  rw [padByte, if_neg (by omega), if_neg (by omega), if_neg (by omega)]

end

/-! ### A buffer that holds the first bytes of a chunk -/

/-- The register after the agreed ones is given its value. -/
theorem AgreeBelow.push {α : Type} {n m : Nat} {x y : Vector α m} (h : AgreeBelow n x y) (hn : n < m) {v : α}
    (hv : x[n] = v) : AgreeBelow (n + 1) x (y.setIfInBounds n v) := by
  intro i hi hlt
  rw [Vector.getElem_setIfInBounds hi]
  split_ifs with heq
  · subst heq
    exact hv.symm
  · exact h i hi (by omega)

section
variable {x y : Vector Byte 64}

theorem AgreeBelow.zeros {lo hi n : Nat} (h : AgreeBelow lo x y) (hn : n ≤ hi)
    (hzero : ∀ i (_ : i < 64), lo ≤ i → i < n → x[i] = 0) : AgreeBelow n x (Machine.zeroRun y lo hi) := by
  intro i hi64 hlt
  rw [zeroRun_getElem _ _ _ _ hi64]
  split_ifs with hrun
  · exact (hzero i hi64 hrun.1 hlt).symm
  · exact h i hi64 (by omega)

theorem AgreeBelow.bitLength {bits : Dword} (h : AgreeBelow 56 x y)
    (hbits : ∀ i (_ : i < 64), 56 ≤ i → x[i] = byteOfDword bits (i - 56)) :
    AgreeBelow 64 x (Machine.lengthField y bits) := by
  intro i hi _
  rw [lengthField_getElem _ _ _ hi]
  split_ifs with hlast
  · exact (hbits i hi hlast).symm
  · exact h i hi (by omega)

end

/-- `total << 3` is the bit length of `total` bytes (R125). -/
theorem bitLength_eq (x : Dword) : bitLength x = BitVec.ofNat 64 (8 * x.toNat) := by
  apply BitVec.eq_of_toNat_eq
  rw [bitLength, BitVec.toNat_shiftLeft, BitVec.toNat_ofNat, Nat.shiftLeft_eq, Nat.mul_comm]

end Sys2Proof.Machine
end

section
/-! SUPPORT. The reference functions one step at a time: the schedule's words, the rounds, the chunks of a message and the
bytes of a digest (R109, R154, R178, R202). -/

namespace Sys2Proof.Machine

/-! ### The schedule -/

@[simp] theorem moreWords_length (ws : List Word) (n : Nat) : (moreWords ws n).length = ws.length + n := by
  induction n with
  | zero => rfl
  | succ n ih => rw [moreWords, List.length_cons, ih, Nat.add_assoc]

@[simp] theorem firstWords_length (c : Chunk) : (firstWords c).length = 16 := by simp [firstWords]

theorem schedule_length (c : Chunk) : (schedule c).length = 64 := by simp [schedule]

/-- New words go in front and leave those behind them. -/
theorem moreWords_add_getD (ws : List Word) (n d i : Nat) :
    (moreWords ws (n + d)).getD (d + i) 0 = (moreWords ws n).getD i 0 := by
  induction d with
  | zero => rw [Nat.zero_add]; rfl
  | succ d ih => rw [← Nat.add_assoc, moreWords, Nat.add_right_comm, List.getD_cons_succ, ih]

/-- Where word `j` of the schedule stands once `n` words are put in front of the first sixteen. -/
theorem schedule_getD_eq_moreWords (c : Chunk) {n j : Nat} (hn : n ≤ 48) (hj : j < 16 + n) :
    (schedule c).getD j 0 = (moreWords (firstWords c) n).getD (15 + n - j) 0 := by
  have hlast : 64 - 1 - j = (48 - n) + (15 + n - j) := by omega
  rw [schedule, List.getD_eq_getElem?_getD, List.getElem?_reverse (by simp; omega), ← List.getD_eq_getElem?_getD,
    moreWords_length, firstWords_length, hlast, ← moreWords_add_getD _ n (48 - n), Nat.add_sub_cancel' hn]

/-- Four bytes of the chunk in each of the first sixteen words (R154). -/
theorem schedule_getD_first (c : Chunk) {i : Nat} (hi : i < 16) : (schedule c).getD i 0 =
    wordOfBytes (c.toList.getD (4 * i) 0) (c.toList.getD (4 * i + 1) 0) (c.toList.getD (4 * i + 2) 0)
      (c.toList.getD (4 * i + 3) 0) := by
  rw [schedule_getD_eq_moreWords c (Nat.zero_le 48) hi, moreWords, firstWords, List.getD_eq_getElem?_getD,
    List.getElem?_reverse (by simp; omega), List.length_map, List.length_range, List.getElem?_map,
    List.getElem?_range (by omega)]
  have hindex : 16 - 1 - (15 + 0 - i) = i := by omega
  rw [hindex]
  rfl

/-- The recurrence of the later words (R154). -/
theorem schedule_getD_later (c : Chunk) {n : Nat} (hn : n < 48) : (schedule c).getD (16 + n) 0 =
    scheduleWord ((schedule c).getD n 0) ((schedule c).getD (n + 1) 0) ((schedule c).getD (n + 9) 0)
      ((schedule c).getD (n + 14) 0) := by
  have hword : ∀ j k, k + j = 15 + n → j < 16 + n →
      (schedule c).getD j 0 = (moreWords (firstWords c) n).getD k 0 := fun j k hk hj => by
    rw [schedule_getD_eq_moreWords c hn.le hj, Nat.sub_eq_of_eq_add hk.symm]
  rw [schedule_getD_eq_moreWords c (n := n + 1) hn (by omega), hword n 15 (by omega) (by omega),
    hword (n + 1) 14 (by omega) (by omega), hword (n + 9) 6 (by omega) (by omega),
    hword (n + 14) 1 (by omega) (by omega), Nat.sub_eq_of_eq_add (by omega : 15 + (n + 1) = 0 + (16 + n))]
  rfl

/-- The schedule of a chunk as the register file `W`. -/
def scheduleFile (c : Chunk) : Vector Word 64 := Vector.ofFn fun i => (schedule c).getD i.val 0

@[simp] theorem scheduleFile_getElem (c : Chunk) {i : Nat} (hi : i < 64) :
    (scheduleFile c)[i] = (schedule c).getD i 0 := by
  simp [scheduleFile]

section
variable {s : State} {c : Chunk}

/-- WLOAD forms the schedule's word from a buffer that holds the chunk (R152). -/
theorem loadedWord_eq_schedule (hbuf : s.buf = c) (ht : s.t.toNat < 16) :
    s.loadedWord = (schedule c).getD s.t.toNat 0 := by
  have hbyte : ∀ i, i < 64 → s.bufAt i = c.toList.getD i 0 := fun i hi => by
    rw [bufAt_eq s hi, List.getD_eq_getElem?_getD, Vector.getElem?_toList, Vector.getElem?_eq_getElem hi, Option.getD_some]
    simp only [hbuf]
  rw [State.loadedWord, schedule_getD_first c ht, hbyte _ (by omega), hbyte _ (by omega), hbyte _ (by omega),
    hbyte _ (by omega)]

/-- WEXP computes the schedule's word from the words before it (R153). -/
theorem expandedWord_eq_schedule (hw : AgreeBelow s.t.toNat (scheduleFile c) s.w) (hlo : 16 ≤ s.t.toNat)
    (hhi : s.t.toNat ≤ 63) : s.expandedWord = (schedule c).getD s.t.toNat 0 := by
  have hword : ∀ d, 0 < d → d ≤ 16 → s.wAt (s.tMinus d) = (schedule c).getD (s.t.toNat - d) 0 := fun d hpos hle => by
    have hlt : s.t.toNat - d < 64 := by omega
    rw [tMinus_eq s (hle.trans hlo), wAt_eq s hlt, hw _ hlt (by omega), scheduleFile_getElem c hlt]
  obtain ⟨n, hn⟩ := Nat.exists_eq_add_of_le hlo
  rw [State.expandedWord, hword 16 (by omega) (by omega), hword 15 (by omega) (by omega), hword 7 (by omega) (by omega),
    hword 2 (by omega) (by omega), hn, schedule_getD_later c (by omega)]
  congr 2 <;> omega

/-- ROUND is the reference's round (R176, R178). -/
theorem round_eq_roundsOf {v : Work} (hw : s.w = scheduleFile c) (hwork : s.work = roundsOf v (schedule c) s.t.toNat)
    (ht : s.t.toNat ≤ 63) : roundWork s.work (s.kAt s.t.toNat) (s.wAt s.t.toNat) =
      roundsOf v (schedule c) (s.t.toNat + 1) := by
  have hlt : s.t.toNat < 64 := Nat.lt_succ_of_le ht
  rw [roundsOf, kAt_eq s hlt, wAt_eq s hlt, hwork]
  simp only [hw, scheduleFile_getElem c hlt]

end

/-! ### The hash state after some chunks -/

/-- The hash state after the first `k` chunks of the padded message (R109). -/
def hashAfter (m : List Byte) (k : Nat) : Vector Word 8 := hashChunks ivTable ((pad m).take k)

theorem hashAfter_zero (m : List Byte) : hashAfter m 0 = ivTable := rfl

theorem hashAfter_succ {m : List Byte} {k : Nat} (hk : k < (pad m).length) :
    hashAfter m (k + 1) = compress (hashAfter m k) (padChunk m k) := by
  rw [hashAfter, hashChunks, List.take_succ_eq_append_getElem hk, List.foldl_append, padChunk,
    List.getD_eq_getElem _ _ hk]
  rfl

theorem serialize_hashAfter_all (m : List Byte) : serialize (hashAfter m (pad m).length) = sha256 m := by
  rw [hashAfter, List.take_length, sha256]

/-! ### The digest -/

theorem serializeWords_getElem? (ws : List Word) (j : Nat) :
    (ws.flatMap fun w => (List.range 4).map (byteOfWord w))[j]? = ws[j / 4]?.map fun w => byteOfWord w (j % 4) := by
  induction ws generalizing j with
  | nil => rfl
  | cons w ws ih =>
    rw [List.flatMap_cons, List.getElem?_append, List.length_map, List.length_range]
    split_ifs with hj
    · rw [List.getElem?_map, List.getElem?_range hj, Nat.div_eq_of_lt hj, Nat.mod_eq_of_lt hj]
      rfl
    · obtain ⟨i, rfl⟩ := Nat.exists_eq_add_of_le' (Nat.le_of_not_lt hj)
      rw [Nat.add_sub_cancel, ih, Nat.add_div_right i (by decide), Nat.add_mod_right]
      rfl

/-- Byte `j` of a digest (R202). -/
theorem serialize_getElem? (x : Vector Word 8) {j : Nat} (hj : j < 32) :
    (serialize x)[j]? = some (byteOfWord x[j / 4] (j % 4)) := by
  rw [serialize, serializeWords_getElem?, Vector.getElem?_toList, Vector.getElem?_eq_getElem (by omega), Option.map_some]

/-- SER writes the digest byte `sidx` selects (R200). -/
theorem serByte_eq_serialize {s : State} (hidx : s.sidx.toNat < 32) :
    (serialize s.hash)[s.sidx.toNat]? = some s.serByte := by
  rw [serialize_getElem? s.hash hidx, State.serByte, hashAt_eq s (by omega)]

end Sys2Proof.Machine
end

section
/-! SUPPORT. The states of a computation of a valid command, phase by phase: what the registers hold of the reference
functions, what has been read and written, and how many steps are left (R108, R109, R120, R129). -/

namespace Sys2Proof.Machine

/-! ### The accesses of `Mem` -/

/-- The reads of the first `n` message bytes, newest first (R58). -/
def messageReads (s : State) (n : Nat) : List Observation :=
  ((List.range n).map fun i => Observation.memRead (srcAddr s + i) ((message s).getD i 0)).reverse

/-- The writes of the first `j` digest bytes, newest first (R58). -/
def digestWrites (s : State) (j : Nat) : List Observation :=
  ((List.range j).map fun i => Observation.memWrite (dstAddr s + i) ((sha256 (message s)).getD i 0)).reverse

theorem messageReads_succ (s : State) (n : Nat) :
    messageReads s (n + 1) = .memRead (srcAddr s + n) ((message s).getD n 0) :: messageReads s n := by
  simp [messageReads, List.range_succ]

theorem digestWrites_succ (s : State) (j : Nat) :
    digestWrites s (j + 1) = .memWrite (dstAddr s + j) ((sha256 (message s)).getD j 0) :: digestWrites s j := by
  simp [digestWrites, List.range_succ]

@[simp] theorem message_length (s : State) : (message s).length = s.len.toNat := by simp [message]

/-- Since the START in `s` the block has read the message bytes that `rem` no longer counts and written the first `j`
digest bytes, and `Mem` is as it was but for these. -/
structure Accessed (s u : State) (j : Nat) : Prop where
  shown : memoryAccesses u.trace =
    digestWrites s j ++ (messageReads s (s.len.toNat - u.rem.toNat) ++ memoryAccesses s.trace)
  written : ∀ i, i < j → u.mem.lookup (dstAddr s + i) = (sha256 (message s))[i]?
  frame : ∀ a, a < dstAddr s ∨ dstAddr s + j ≤ a → u.mem.lookup a = s.mem.lookup a

theorem Accessed.of_eq {s u t : State} {j : Nat} (h : Accessed s u j) (hmem : t.mem = u.mem := by rfl)
    (htrace : t.trace = u.trace := by rfl) (hrem : t.rem = u.rem := by rfl) : Accessed s t j where
  shown := by rw [htrace, hrem, h.shown]
  written := hmem ▸ h.written
  frame := hmem ▸ h.frame

/-- Until a digest byte is written, every read is answered as at START. -/
theorem Accessed.readByte_eq {s u : State} (h : Accessed s u 0) (hplat : u.platform = s.platform) (a : Nat) :
    u.readByte a = s.readByte a := by
  rw [State.readByte, State.readByte, hplat, h.frame a (Nat.lt_or_ge _ _)]

/-- The digest bytes written, from the phase. -/
def bytesWrittenAt (u : State) : Phase → Nat
  | .idle | .finish => 32
  | .ser => u.sidx.toNat
  | .init | .fetch | .pad80 | .padz | .padlen | .wload | .wexp | .seed | .round | .addbk | .next => 0

/-! ### What the registers hold -/

/-- The hash state is that of the first `k` chunks, and the buffer holds the first `fill` bytes of chunk `k`. -/
structure Absorbing (s : State) (k : Nat) (u : State) : Prop where
  hash : u.hash = hashAfter (message s) k
  buf : AgreeBelow u.fill.toNat (padChunk (message s) k) u.buf

/-- Chunk `k` is in the compression, and the flags say whether it is the last, whether the length is still to come, or
whether message bytes are (R126). -/
structure CompressingChunk (s : State) (k : Nat) (u : State) : Prop where
  last : u.final = true → k = (s.len.toNat + 8) / 64
  lengthToCome : u.final = false → u.padded = true →
    k + 1 = (s.len.toNat + 8) / 64 ∧ s.len.toNat < 64 * (k + 1)
  bytesToCome : u.padded = false → 64 * (k + 1) + u.rem.toNat = s.len.toNat

/-- What the registers hold of the reference functions at one phase of a computation, `k` chunks having been hashed. -/
def ComputedAt (s : State) (k : Nat) (u : State) : Phase → Prop
  | .idle => u.done = true ∧ u.rem = 0
  | .init | .finish => True
  | .fetch | .pad80 => 64 * k + u.fill.toNat + u.rem.toNat = s.len.toNat ∧ Absorbing s k u
  | .padz => 64 * k + u.fill.toNat = s.len.toNat + 1 ∧ Absorbing s k u
  | .padlen => k = (s.len.toNat + 8) / 64 ∧ Absorbing s k u
  | .wload => Absorbing s k u ∧ CompressingChunk s k u ∧
      AgreeBelow u.t.toNat (scheduleFile (padChunk (message s) k)) u.w
  | .wexp => u.hash = hashAfter (message s) k ∧ CompressingChunk s k u ∧
      AgreeBelow u.t.toNat (scheduleFile (padChunk (message s) k)) u.w
  | .seed => u.hash = hashAfter (message s) k ∧ CompressingChunk s k u ∧ u.w = scheduleFile (padChunk (message s) k)
  | .round => u.hash = hashAfter (message s) k ∧ CompressingChunk s k u ∧ u.w = scheduleFile (padChunk (message s) k) ∧
      u.work = roundsOf (workOfHash (hashAfter (message s) k)) (schedule (padChunk (message s) k)) u.t.toNat
  | .addbk => u.hash = hashAfter (message s) k ∧ CompressingChunk s k u ∧
      u.work = roundsOf (workOfHash (hashAfter (message s) k)) (schedule (padChunk (message s) k)) 64
  | .next => u.hash = hashAfter (message s) (k + 1) ∧ CompressingChunk s k u
  | .ser => u.hash = hashAfter (message s) (pad (message s)).length

/-! ### The steps left -/

/-- The steps left in FETCH, with `fill` bytes of a chunk read and `rem` to come. -/
def stepsFromFetch (fill rem : Nat) : Nat := rem + (fill + rem) / 64 + 131 * ((fill + rem + 8) / 64 + 1) + 37

/-- The steps left after NEXT by `final`, `padded` and `rem`: the digest alone, or one chunk more, or the rest of the
message (R126). -/
def stepsAfterChunk : Bool → Bool → Nat → Nat
  | true, _, _ => 33
  | false, true, _ => 165
  | false, false, rem => stepsFromFetch 0 rem

/-- The steps left of a computation at a phase (R129). -/
def stepsLeftAt (u : State) : Phase → Nat
  | .idle => 0
  | .init => stepCount u.rem.toNat
  | .fetch => stepsFromFetch u.fill.toNat u.rem.toNat
  | .pad80 => 131 * ((u.fill.toNat + 8) / 64 + 1) + 36
  | .padz => 131 * ((u.fill.toNat + 7) / 64 + 1) + 35
  | .padlen => 165
  | .wload | .wexp => 131 - u.t.toNat + stepsAfterChunk u.final u.padded u.rem.toNat
  | .seed => 67 + stepsAfterChunk u.final u.padded u.rem.toNat
  | .round => 66 - u.t.toNat + stepsAfterChunk u.final u.padded u.rem.toNat
  | .addbk => 2 + stepsAfterChunk u.final u.padded u.rem.toNat
  | .next => 1 + stepsAfterChunk u.final u.padded u.rem.toNat
  | .ser => 33 - u.sidx.toNat
  | .finish => 1

/-- The steps left of a computation (R129). -/
def State.stepsLeft (u : State) : Nat := stepsLeftAt u u.phase

/-! ### A step of a computation -/

/-- What a computation that began with the START in `s` has done so far is as it should be. -/
structure OnCourse (s u : State) : Prop where
  accessed : Accessed s u (bytesWrittenAt u u.phase)
  computed : ∃ k, ComputedAt s k u u.phase

/-- The micro-operation of phase `p` completes, keeps the computation on course and is one of the steps left. -/
def MovesOn (s u : State) (p : Phase) : Prop :=
  ∃ t, exec p.instr u = .next t ∧ OnCourse s t ∧ t.stepsLeft + 1 = stepsLeftAt u p

theorem movesOn_of {s u t : State} {p : Phase} {k : Nat} (q : Phase) (he : exec p.instr u = .next t) (hq : t.phase = q)
    (ha : Accessed s t (bytesWrittenAt t q)) (hk : ComputedAt s k t q) (hsteps : stepsLeftAt t q + 1 = stepsLeftAt u p) :
    MovesOn s u p := by
  subst hq
  exact ⟨t, he, ⟨ha, k, hk⟩, hsteps⟩

theorem counter_zero (n : Nat) : (0 : BitVec n).toNat = 0 := by simp

/-- The compression writes none of the registers that decide what follows it. -/
theorem CompressingChunk.of_eq {s u t : State} {k : Nat} (h : CompressingChunk s k u)
    (hfinal : t.final = u.final := by rfl) (hpadded : t.padded = u.padded := by rfl) (hrem : t.rem = u.rem := by rfl) :
    CompressingChunk s k t where
  last := hfinal ▸ h.last
  lengthToCome := hfinal ▸ hpadded ▸ h.lengthToCome
  bytesToCome := hpadded ▸ hrem ▸ h.bytesToCome

theorem CompressingChunk.index_lt {s u : State} {k : Nat} (h : CompressingChunk s k u) :
    k < (s.len.toNat + 8) / 64 + 1 := by
  cases hfinal : u.final with
  | true => exact Nat.lt_succ_of_le (h.last hfinal).le
  | false =>
    cases hpadded : u.padded with
    | true => have := (h.lengthToCome hfinal hpadded).1; omega
    | false => have := h.bytesToCome hpadded; omega

theorem padChunk_message_getElem {s : State} {k i : Nat} (hk : k < (s.len.toNat + 8) / 64 + 1) (hi : i < 64) :
    (padChunk (message s) k)[i] = padByte (message s) (64 * k + i) :=
  padChunk_getElem (by rwa [message_length]) hi

theorem stepCount_eq (len : Nat) : stepCount len = stepsFromFetch 0 len + 1 := by
  rw [stepCount, stepsFromFetch, Nat.zero_add]

/-- A whole chunk read is handed over to one compression. -/
theorem stepsFromFetch_full (rem : Nat) : 131 + stepsFromFetch 0 rem + 1 = stepsFromFetch 64 rem := by
  simp only [stepsFromFetch]
  omega

theorem stepsFromFetch_exhausted {fill : Nat} (h : fill < 64) :
    131 * ((fill + 8) / 64 + 1) + 36 + 1 = stepsFromFetch fill 0 := by
  simp only [stepsFromFetch]
  omega

theorem stepsFromFetch_read (fill : Nat) {rem : Nat} (h : 0 < rem) :
    stepsFromFetch (fill + 1) (rem - 1) + 1 = stepsFromFetch fill rem := by
  have hsum : fill + 1 + (rem - 1) = fill + rem := by omega
  simp only [stepsFromFetch, hsum]
  omega

end Sys2Proof.Machine
end

section
/-! SUPPORT. INIT, FETCH, PAD80, PADZ and PADLEN put the chunks of the padded message into the buffer (R121 to R125). -/

namespace Sys2Proof.Machine

section
variable {s u : State} {k : Nat}

/-- INIT makes the hash state that of no chunk (R121). -/
theorem init_movesOn (hops : KeepsOperands s u) (ha : Accessed s u 0) (hr : ReadAt u .init) : MovesOn s u .init := by
  have hrem : u.rem = s.len := Eq.trans hr hops.len
  refine movesOn_of (k := 0) .fetch (exec_init u) rfl ha.of_eq ⟨by simp [hrem], rfl, agreeBelow_zero⟩ ?_
  simp only [stepsLeftAt, counter_zero, stepCount_eq]

/-- The read of FETCH is admitted and gives the next byte of the message (R122). -/
theorem fetch_readByte (hv : ValidCommand s) (hops : KeepsOperands s u) (hc : CommandLoaded u) (ha : Accessed s u 0)
    (hpos : 64 * k + u.fill.toNat + u.rem.toNat = s.len.toNat) (hrem : u.rem ≠ 0) :
    u.ptr.toNat = srcAddr s + (s.len.toNat - u.rem.toNat) ∧
      ∃ v, u.readByte u.ptr.toNat = some v ∧ v = (message s).getD (s.len.toNat - u.rem.toNat) 0 := by
  obtain ⟨_, hremPos⟩ := pred_toNat hrem
  have hfits := hv.operands.messageFits
  have hlt : s.len.toNat - u.rem.toNat < s.len.toNat := by omega
  have hptr : u.ptr.toNat = srcAddr s + (s.len.toNat - u.rem.toNat) := by
    rw [hc.ptr_eq, hops.srcAddr_eq, hops.len, hops.platform]
    exact Nat.mod_eq_of_lt (by omega)
  obtain ⟨v, hbyte⟩ := Option.isSome_iff_exists.mp (hv.readsAdmitted _ hlt)
  refine ⟨hptr, v, by rw [hptr, ha.readByte_eq hops.platform, hbyte], ?_⟩
  rw [message, List.getD_eq_getElem?_getD, List.getElem?_map, List.getElem?_range hlt, Option.map_some, Option.getD_some,
    hbyte, Option.getD_some]

/-- FETCH shows the read and counts it. -/
theorem Accessed.fetched (ha : Accessed s u 0) {v : Byte} (hle : u.rem.toNat ≤ s.len.toNat) (hrem : u.rem ≠ 0)
    (hptr : u.ptr.toNat = srcAddr s + (s.len.toNat - u.rem.toNat))
    (hv : v = (message s).getD (s.len.toNat - u.rem.toNat) 0) : Accessed s (u.fetched v) 0 where
  shown := by
    obtain ⟨hpred, hpos⟩ := pred_toNat hrem
    have hread : s.len.toNat - (u.rem.toNat - 1) = s.len.toNat - u.rem.toNat + 1 := by omega
    rw [State.fetched_trace, State.fetched_rem, memoryAccesses_memRead, ha.shown, hpred, hread, messageReads_succ, hptr, hv]
    rfl
  written := ha.written
  frame := ha.frame

/-- FETCH puts the next byte of the padded message into the buffer, or hands the buffer over (R122). -/
theorem fetch_movesOn (hv : ValidCommand s) (hops : KeepsOperands s u) (hc : CommandLoaded u) (ha : Accessed s u 0)
    (hp : u.phase = .fetch) (hle : u.fill.toNat ≤ 64) (hl : LegalAt u .fetch) (h : ComputedAt s k u .fetch) :
    MovesOn s u .fetch := by
  obtain ⟨hpadded, hfinal⟩ := hl
  obtain ⟨hpos, habs⟩ := h
  by_cases hfull : u.fill = 64
  · have hfill : u.fill.toNat = 64 := by simp [hfull]
    have hchunk : CompressingChunk s k u :=
      ⟨by simp [hfinal], by simp [hpadded], fun _ => by omega⟩
    refine movesOn_of .wload (exec_fetch_full hfull) rfl ha.of_eq
      ⟨⟨habs.hash, habs.buf⟩, hchunk.of_eq, agreeBelow_zero⟩ ?_
    simp only [stepsLeftAt, State.enterWload_t, counter_zero, State.enterWload_final, State.enterWload_padded,
      State.enterWload_rem, hfinal, hpadded, stepsAfterChunk, hfill, ← stepsFromFetch_full]
  have hlt : u.fill.toNat < 64 := by bv_omega
  by_cases hrem : u.rem = 0
  · refine movesOn_of .pad80 (exec_fetch_exhausted hfull hrem) rfl ha.of_eq ⟨hpos, ⟨habs.hash, habs.buf⟩⟩ ?_
    simp only [stepsLeftAt, hrem, counter_zero, stepsFromFetch_exhausted hlt]
  · obtain ⟨hptr, v, hread, hbyte⟩ := fetch_readByte hv hops hc ha hpos hrem
    obtain ⟨hpred, hremPos⟩ := pred_toNat hrem
    have hsucc : (u.fill + 1).toNat = u.fill.toNat + 1 := counter_succ hle
    have hindex : 64 * k + u.fill.toNat = s.len.toNat - u.rem.toNat := by omega
    have hnext : (padChunk (message s) k)[u.fill.toNat] = v := by
      rw [padChunk_message_getElem (by omega) hlt, padByte_of_message (by rw [message_length]; omega), hindex, hbyte]
    refine movesOn_of .fetch (exec_fetch_read hfull hrem hread) hp (ha.fetched (by omega) hrem hptr hbyte)
      ⟨?_, habs.hash, ?_⟩ ?_
    · rw [State.fetched_fill, State.fetched_rem, hsucc, hpred]
      omega
    · rw [State.fetched_fill, State.fetched_buf, hsucc]
      exact habs.buf.push hlt hnext
    · simp only [stepsLeftAt, State.fetched_fill, State.fetched_rem, hsucc, hpred, stepsFromFetch_read _ hremPos]

/-- PAD80 appends the marker (R123). -/
theorem pad80_movesOn (ha : Accessed s u 0) (hl : LegalAt u .pad80) (hrem : u.rem = 0) (h : ComputedAt s k u .pad80) :
    MovesOn s u .pad80 := by
  obtain ⟨hle, _⟩ := hl
  obtain ⟨hpos, habs⟩ := h
  have hlt : u.fill.toNat < 64 := Nat.lt_succ_of_le hle
  have hsucc : (u.fill + 1).toNat = u.fill.toNat + 1 := counter_succ hle
  have hpos : 64 * k + u.fill.toNat = s.len.toNat := by simpa [hrem] using hpos
  have hmark : (padChunk (message s) k)[u.fill.toNat] = 0x80 := by
    rw [padChunk_message_getElem (by omega) hlt, hpos, ← message_length, padByte_marker]
  refine movesOn_of (k := k) .padz (exec_pad80 u) rfl ha.of_eq ⟨?_, habs.hash, ?_⟩ ?_
  · simp only [hsucc, ← hpos, Nat.add_assoc]
  · simp only [hsucc]
    exact habs.buf.push hlt hmark
  · simp only [stepsLeftAt, hsucc]

/-- PADZ fills up with zeros to the length field, or to the end of the chunk (R124). -/
theorem padz_movesOn (ha : Accessed s u 0) (hle : u.fill.toNat ≤ 64) (hl : LegalAt u .padz) (h : ComputedAt s k u .padz) :
    MovesOn s u .padz := by
  obtain ⟨hpos, hpadded, hfinal⟩ := hl
  obtain ⟨hat, habs⟩ := h
  have hzero : ∀ hi, 64 * k + hi ≤ 64 * ((s.len.toNat + 8) / 64) + 56 → ∀ i (_ : i < 64), u.fill.toNat ≤ i → i < hi →
      (padChunk (message s) k)[i] = 0 := fun hi hend i hi64 hlo hlt => by
    rw [padChunk_message_getElem (by omega) hi64, padByte_of_zeros] <;> rw [message_length] <;> omega
  by_cases hshort : u.fill.toNat ≤ 56
  · refine movesOn_of (k := k) .padlen (exec_padz_short hshort) rfl ha.of_eq ⟨?_, habs.hash, ?_⟩ ?_
    · omega
    · exact habs.buf.zeros le_rfl (hzero 56 (by omega))
    · simp only [stepsLeftAt]
      omega
  · have hchunk : CompressingChunk s k u :=
      ⟨by simp [hfinal], fun _ _ => ⟨by omega, by omega⟩, by simp [hpadded]⟩
    refine movesOn_of .wload (exec_padz_long hshort) rfl ha.of_eq
      ⟨⟨habs.hash, ?_⟩, hchunk.of_eq, agreeBelow_zero⟩ ?_
    · exact habs.buf.zeros le_rfl (hzero 64 (by omega))
    · simp only [stepsLeftAt, counter_zero, hfinal, hpadded, stepsAfterChunk]
      omega

/-- PADLEN writes the length field (R125). -/
theorem padlen_movesOn (hops : KeepsOperands s u) (hc : CommandLoaded u) (ha : Accessed s u 0) (hl : LegalAt u .padlen)
    (h : ComputedAt s k u .padlen) : MovesOn s u .padlen := by
  obtain ⟨hfill, hpadded, _⟩ := hl
  obtain ⟨hlast, habs⟩ := h
  have hbits : ∀ i (_ : i < 64), 56 ≤ i →
      (padChunk (message s) k)[i] = byteOfDword (bitLength u.total) (i - 56) := fun i hi hlo => by
    rw [padChunk_message_getElem (by omega) hi, padByte_of_lengthField (by rw [message_length]; omega), bitLength_eq,
      hc.total_eq, hops.len, message_length, hlast, Nat.add_sub_add_left]
  refine movesOn_of (k := k) .wload (exec_padlen u) rfl ha.of_eq ⟨⟨habs.hash, ?_⟩, ?_, agreeBelow_zero⟩ ?_
  · exact AgreeBelow.bitLength (hfill ▸ habs.buf) hbits
  · exact ⟨fun _ => hlast, by simp, by simp [hpadded]⟩
  · simp only [stepsLeftAt, counter_zero, stepsAfterChunk]

end

end Sys2Proof.Machine
end

section
/-! SUPPORT. The compression computes the reference schedule and rounds, and NEXT goes on to the next chunk (R126, R152, R153,
R175 to R177). -/

namespace Sys2Proof.Machine

section
variable {s u : State} {k : Nat}

/-- WLOAD forms the next of the first sixteen schedule words (R152). -/
theorem wload_movesOn (ha : Accessed s u 0) (hl : LegalAt u .wload) (h : ComputedAt s k u .wload) :
    MovesOn s u .wload := by
  obtain ⟨⟨ht, hfill⟩, _⟩ := hl
  obtain ⟨habs, hchunk, hw⟩ := h
  have hsucc : (u.t + 1).toNat = u.t.toNat + 1 := counter_succ ht
  have hlt : u.t.toNat < 64 := by omega
  have hbuf : u.buf = padChunk (message s) k := by
    have hagree := habs.buf
    rw [hfill] at hagree
    exact hagree.eq
  have hw' := hw.push hlt (v := u.loadedWord) (by
    rw [scheduleFile_getElem _ hlt, loadedWord_eq_schedule hbuf (Nat.lt_succ_of_le ht)])
  rw [← hsucc] at hw'
  have he := exec_wload u
  by_cases hlast : u.t = 15
  · rw [if_pos hlast] at he
    refine movesOn_of .wexp he rfl ha.of_eq ⟨habs.hash, hchunk.of_eq, hw'⟩ ?_
    simp only [stepsLeftAt, hsucc]
    omega
  · rw [if_neg hlast] at he
    refine movesOn_of .wload he rfl ha.of_eq ⟨⟨habs.hash, habs.buf⟩, hchunk.of_eq, hw'⟩ ?_
    simp only [stepsLeftAt, hsucc]
    omega

/-- WEXP computes the next of the later schedule words (R153). -/
theorem wexp_movesOn (ha : Accessed s u 0) (hl : LegalAt u .wexp) (h : ComputedAt s k u .wexp) : MovesOn s u .wexp := by
  obtain ⟨⟨hlo, hhi⟩, _⟩ := hl
  obtain ⟨hhash, hchunk, hw⟩ := h
  have hsucc : (u.t + 1).toNat = u.t.toNat + 1 := counter_succ hhi
  have hlt : u.t.toNat < 64 := Nat.lt_succ_of_le hhi
  have hw' := hw.push hlt (v := u.expandedWord) (by
    rw [scheduleFile_getElem _ hlt, expandedWord_eq_schedule hw hlo hhi])
  have he := exec_wexp u
  by_cases hlast : u.t = 63
  · have ht : u.t.toNat = 63 := by simp [hlast]
    rw [if_pos hlast] at he
    refine movesOn_of .seed he rfl ha.of_eq ⟨hhash, hchunk.of_eq, AgreeBelow.eq (ht ▸ hw')⟩ ?_
    simp only [stepsLeftAt, ht]
    omega
  · rw [if_neg hlast] at he
    refine movesOn_of .wexp he rfl ha.of_eq ⟨hhash, hchunk.of_eq, hsucc ▸ hw'⟩ ?_
    simp only [stepsLeftAt, hsucc]
    omega

/-- SEED makes the working variables those of no round (R175). -/
theorem seed_movesOn (ha : Accessed s u 0) (h : ComputedAt s k u .seed) : MovesOn s u .seed := by
  obtain ⟨hhash, hchunk, hw⟩ := h
  refine movesOn_of .round (exec_seed u) rfl ha.of_eq ⟨hhash, hchunk.of_eq, hw, congrArg workOfHash hhash⟩ ?_
  simp only [stepsLeftAt, counter_zero]
  omega

/-- ROUND makes one round of the reference (R176). -/
theorem round_movesOn (ha : Accessed s u 0) (hl : LegalAt u .round) (h : ComputedAt s k u .round) :
    MovesOn s u .round := by
  obtain ⟨hhi, _⟩ := hl
  obtain ⟨hhash, hchunk, hw, hwork⟩ := h
  have hsucc : (u.t + 1).toNat = u.t.toNat + 1 := counter_succ hhi
  have hround := round_eq_roundsOf hw hwork hhi
  have he := exec_round u
  by_cases hlast : u.t = 63
  · have ht : u.t.toNat = 63 := by simp [hlast]
    rw [if_pos hlast] at he
    refine movesOn_of .addbk he rfl ha.of_eq ⟨hhash, hchunk.of_eq, hround.trans (by rw [ht])⟩ ?_
    simp only [stepsLeftAt, ht]
    omega
  · rw [if_neg hlast] at he
    refine movesOn_of .round he rfl ha.of_eq ⟨hhash, hchunk.of_eq, hw, hround.trans (by rw [hsucc])⟩ ?_
    simp only [stepsLeftAt, hsucc]
    omega

/-- ADDBK makes the hash state that of one chunk more (R177). -/
theorem addbk_movesOn (ha : Accessed s u 0) (h : ComputedAt s k u .addbk) : MovesOn s u .addbk := by
  obtain ⟨hhash, hchunk, hwork⟩ := h
  have hk : k < (pad (message s)).length := by rw [pad_length, message_length]; exact hchunk.index_lt
  have hadd : addWork u.hash u.work = hashAfter (message s) (k + 1) := by
    rw [hashAfter_succ hk, compress, hhash, hwork]
  refine movesOn_of .next (exec_addbk u) rfl ha.of_eq ⟨hadd, hchunk.of_eq⟩ ?_
  simp only [stepsLeftAt]
  omega

/-- NEXT goes on to the digest, to the chunk that holds the length alone, or to the next message bytes (R126). -/
theorem next_movesOn (ha : Accessed s u 0) (h : ComputedAt s k u .next) : MovesOn s u .next := by
  obtain ⟨hhash, hchunk⟩ := h
  cases hfinal : u.final with
  | true =>
    have hall : k + 1 = (pad (message s)).length := by rw [pad_length, message_length, hchunk.last hfinal]
    refine movesOn_of (k := k) .ser (exec_next_final hfinal) rfl ha.of_eq (hhash.trans (by rw [hall])) ?_
    simp only [stepsLeftAt, counter_zero, hfinal, stepsAfterChunk]
  | false =>
    cases hpadded : u.padded with
    | true =>
      obtain ⟨hlength, hlt⟩ := hchunk.lengthToCome hfinal hpadded
      have hzero : ∀ i (_ : i < 64), 0 ≤ i → i < 56 → (padChunk (message s) (k + 1))[i] = 0 := fun i hi _ hlo => by
        rw [padChunk_message_getElem (by omega) hi, padByte_of_zeros] <;> rw [message_length] <;> omega
      refine movesOn_of (k := k + 1) .padlen (exec_next_padded hfinal hpadded) rfl ha.of_eq ⟨hlength, hhash, ?_⟩ ?_
      · exact agreeBelow_zero.zeros (n := 56) (by decide) hzero
      · simp only [stepsLeftAt, hfinal, hpadded, stepsAfterChunk]
    | false =>
      have hmore := hchunk.bytesToCome hpadded
      refine movesOn_of (k := k + 1) .fetch (exec_next_more hfinal hpadded) rfl ha.of_eq
        ⟨by simpa using hmore, hhash, agreeBelow_zero⟩ ?_
      simp only [stepsLeftAt, counter_zero, hfinal, hpadded, stepsAfterChunk]
      omega

end

end Sys2Proof.Machine
end

section
/-! SUPPORT. SER writes the digest in ascending order and FINISH ends the computation (R200, R201). -/

namespace Sys2Proof.Machine

section
variable {s u : State} {k : Nat}

/-- SER writes where the digest's next byte belongs (R200). -/
theorem serAddress_eq_dstAddr (hv : ValidCommand s) (hops : KeepsOperands s u) (hc : CommandLoaded u)
    (hidx : u.sidx.toNat < 32) : u.serAddress = dstAddr s + u.sidx.toNat := by
  have hfits := hv.operands.digestFits
  rw [State.serAddress, hc.dptr_eq, hops.dstAddr_eq, hops.platform]
  exact Nat.mod_eq_of_lt (by omega)

/-- SER shows the write and stores the byte. -/
theorem Accessed.serialized {j : Nat} (ha : Accessed s u j) (haddr : u.serAddress = dstAddr s + j)
    (hbyte : (sha256 (message s))[j]? = some u.serByte) : Accessed s u.serialized (j + 1) where
  shown := by
    have hget : (sha256 (message s)).getD j 0 = u.serByte := by rw [List.getD_eq_getElem?_getD, hbyte, Option.getD_some]
    rw [State.serialized_trace, State.serialized_rem, memoryAccesses_memWrite, ha.shown, haddr, digestWrites_succ, hget]
    rfl
  written i hi := by
    rw [State.serialized_mem, Memory.lookup_store, haddr]
    rcases Nat.lt_succ_iff_lt_or_eq.mp hi with hlt | rfl
    · rw [if_neg (by omega), ha.written i hlt]
    · rw [if_pos rfl, hbyte]
  frame a hout := by
    rw [State.serialized_mem, Memory.lookup_store, haddr, if_neg (by omega), ha.frame a (by omega)]

/-- SER writes the next digest byte (R200). -/
theorem ser_movesOn (hv : ValidCommand s) (hops : KeepsOperands s u) (hc : CommandLoaded u)
    (ha : Accessed s u u.sidx.toNat) (hl : LegalAt u .ser) (h : ComputedAt s k u .ser) : MovesOn s u .ser := by
  obtain ⟨⟨hle, _⟩, _⟩ := hl
  have hhash : u.hash = hashAfter (message s) (pad (message s)).length := h
  have hlt : u.sidx.toNat < 32 := Nat.lt_succ_of_le hle
  have hsucc : (u.sidx + 1).toNat = u.sidx.toNat + 1 := by bv_omega
  have haddr := serAddress_eq_dstAddr hv hops hc hlt
  have hadmitted : writable u.platform u.serAddress = true := by
    rw [hops.platform, haddr]
    exact hv.writesAdmitted _ hlt
  have hbyte : (sha256 (message s))[u.sidx.toNat]? = some u.serByte := by
    rw [← serialize_hashAfter_all, ← hhash, serByte_eq_serialize hlt]
  have ha' := ha.serialized haddr hbyte
  have he := exec_ser_write hadmitted
  by_cases hlast : u.sidx = 31
  · have hidx : u.sidx.toNat = 31 := by simp [hlast]
    rw [hidx] at ha'
    refine movesOn_of (k := 0) .finish he (if_pos hlast) ha' trivial ?_
    simp only [stepsLeftAt, hidx]
  · rw [← hsucc] at ha'
    refine movesOn_of (k := 0) .ser he (if_neg hlast) ha' hhash ?_
    simp only [stepsLeftAt, State.serialized_sidx, hsucc]
    omega

/-- FINISH ends the computation (R201). -/
theorem finish_movesOn (ha : Accessed s u 32) (hrem : u.rem = 0) : MovesOn s u .finish :=
  movesOn_of (k := 0) .idle (exec_finish u) rfl ha.of_eq ⟨rfl, hrem⟩ rfl

end

end Sys2Proof.Machine
end

section
/-! SUPPORT. A valid command's computation from START to FINISH (R58, R100, R108, R109). -/

namespace Sys2Proof.Machine

/-! ### Every step -/

/-- `u` is a state of the computation that the START in `s` began: both invariants hold, nothing else is to happen, the
operands are those of `s`, and the computation is on course. -/
structure Computing (s u : State) : Prop where
  phaseInv : PhaseInv u
  commandInv : CommandInv u
  agenda : u.agenda = []
  operands : KeepsOperands s u
  onCourse : OnCourse s u

/-- The micro-operations leave the agenda alone. -/
theorem turn_agenda {p : Phase} {s t : State} (h : exec p.instr s = .next t) : t.agenda = s.agenda := by
  obtain ⟨u, new, hrun⟩ := turn_runsApartFromPort p s
  obtain rfl := Host.Outcome.next.inj (hrun.exec_eq.symm.trans h)
  rfl

section
variable {s u : State}

/-- The turn of every phase of a valid computation moves it on. -/
theorem Computing.movesOn (hv : ValidCommand s) (h : Computing s u) (hidle : u.phase ≠ .idle) : MovesOn s u u.phase := by
  have hb : u.busy = true := h.phaseInv.busy_iff.mpr hidle
  have hc := h.commandInv.commandLoaded hb
  have hl := h.phaseInv.legalAt rfl
  have hr := h.commandInv.readAt hb rfl
  have hfill := h.phaseInv.fill_le
  have hops := h.operands
  obtain ⟨ha, k, hk⟩ := h.onCourse
  cases hp : u.phase <;> rw [hp] at hl hr ha hk
  case idle => exact absurd hp hidle
  case init => exact init_movesOn hops ha hr
  case fetch => exact fetch_movesOn hv hops hc ha hp hfill hl hk
  case pad80 =>
    obtain ⟨⟨hrem, _⟩, _⟩ := hr
    exact pad80_movesOn ha hl hrem hk
  case padz => exact padz_movesOn ha hfill hl hk
  case padlen => exact padlen_movesOn hops hc ha hl hk
  case wload => exact wload_movesOn ha hl hk
  case wexp => exact wexp_movesOn ha hl hk
  case seed => exact seed_movesOn ha hk
  case round => exact round_movesOn ha hl hk
  case addbk => exact addbk_movesOn ha hk
  case next => exact next_movesOn ha hk
  case ser => exact ser_movesOn hv hops hc ha hl hk
  case finish =>
    obtain ⟨_, hpadded⟩ := hl
    exact finish_movesOn ha (hr hpadded)

/-- Every step of a valid computation before its end is one of the steps left and keeps it one. -/
theorem Computing.step_computing (hv : ValidCommand s) (h : Computing s u) (hidle : u.phase ≠ .idle) :
    ∃ t, step u = .next t ∧ Computing s t ∧ t.stepsLeft + 1 = u.stepsLeft := by
  obtain ⟨t, he, hcourse, hsteps⟩ := h.movesOn hv hidle
  have hstep : step u = .next t := (step_of_agenda_nil h.agenda).trans he
  obtain ⟨t', he', hkeep⟩ := turn_keepsOperands u.phase u
  obtain rfl : t' = t := Host.Outcome.next.inj (he'.symm.trans he)
  obtain ⟨hplat, hsrc, hlen, hdst⟩ := h.operands
  exact ⟨t', hstep, {
    phaseInv := stepKeepsPhaseInvariant u t' h.phaseInv hstep
    commandInv := stepKeepsCommandInvariant u t' h.phaseInv h.commandInv hstep
    agenda := (turn_agenda he).trans h.agenda
    operands := ⟨hkeep.platform.trans hplat, hkeep.src.trans hsrc, hkeep.len.trans hlen, hkeep.dst.trans hdst⟩
    onCourse := hcourse }, hsteps⟩

theorem stepsLeft_of_idle (h : u.phase = .idle) : u.stepsLeft = 0 := by rw [State.stepsLeft, h, stepsLeftAt]

/-- Within its steps left a valid computation runs without a stop. -/
theorem Computing.runs (hv : ValidCommand s) {n : Nat} (h : Computing s u) (hn : n ≤ u.stepsLeft) :
    ∃ t, runSteps n u = .next t ∧ Computing s t ∧ t.stepsLeft + n = u.stepsLeft := by
  induction n generalizing u with
  | zero => exact ⟨u, rfl, h, rfl⟩
  | succ n ih =>
    have hidle : u.phase ≠ .idle := fun hp => by simp [stepsLeft_of_idle hp] at hn
    obtain ⟨u', hstep, h', hsteps⟩ := h.step_computing hv hidle
    obtain ⟨t, hrun, ht, hleft⟩ := ih h' (by omega)
    exact ⟨t, by rw [runSteps_succ_of_step hstep, hrun], ht, by omega⟩

end

/-! ### From START -/

/-- START refuses no valid command (R100, R221, R259). -/
theorem startRefusal_of_validOperands {s : State} (h : ValidOperands s) : s.startRefusal = none := by
  have hsrc : s.startSrc = srcAddr s := truncAddr_toNat _ _
  have hdst : s.startDst = dstAddr s := truncAddr_toNat _ _
  obtain ⟨hlength, hmessage, hdigest, hdisjoint⟩ := h
  have hV1 : s.lengthTooLarge = false := decide_eq_false (by omega)
  have hV4 : s.messageWraps = false := decide_eq_false (by omega)
  have hV4' : s.digestWraps = false := decide_eq_false (by omega)
  have hV5 : s.rangesOverlap = false := by
    simp only [State.rangesOverlap, hsrc, hdst, Bool.and_eq_false_iff, decide_eq_false_iff_not]
    omega
  simp only [State.startRefusal, hV1, hV4, hV4', hV5, Bool.false_eq_true, if_false]

theorem exec_start {s : State} {d : Word} (hb : s.busy = false) (hd : d.toNat % 2 = 1) (h : ValidOperands s) :
    exec (.wrCtrl d) s = .next s.started := by
  have hbit : startBit d = true := by rw [startBit_eq, decide_eq_true hd]
  simp only [exec_wrCtrl, hb, Bool.false_eq_true, if_false, hbit, if_true, start, startRefusal_of_validOperands h]

/-- An accepted START with the counters it leaves alone set to 0, which no step reads before it writes them. -/
def State.startedClear (s : State) : State := { s.started with fill := 0, t := 0, sidx := 0 }

theorem startedClear_twins (s : State) : Twins s.startedClear s.started := ⟨rfl, rfl, rfl, rfl, rfl⟩

section
variable (s : State)

@[simp] theorem State.startedClear_phase : s.startedClear.phase = .init := rfl
@[simp] theorem State.startedClear_fill : s.startedClear.fill = 0 := rfl
@[simp] theorem State.startedClear_t : s.startedClear.t = 0 := rfl
@[simp] theorem State.startedClear_sidx : s.startedClear.sidx = 0 := rfl
@[simp] theorem State.startedClear_rem : s.startedClear.rem = s.len := rfl
@[simp] theorem State.startedClear_trace : s.startedClear.trace = s.trace := rfl

theorem startedClear_accessed : Accessed s s.startedClear 0 where
  shown := by simp [digestWrites, messageReads]
  written := by simp
  frame _ _ := rfl

end

/-- A valid command begins a computation (R100). -/
theorem startedClear_computing {s : State} (hv : ValidCommand s) (hagenda : s.agenda = []) :
    Computing s s.startedClear := by
  have hstarted := started_commandInv hv.platform (startRefusal_of_validOperands hv.operands)
  exact {
    phaseInv := phaseInv_of_busy rfl (by simp)
      ⟨fun _ => rfl, by simp, by simp, by simp, truncAddr_lt _ _, truncAddr_lt _ _⟩ trivial
    commandInv := commandInv_of_keepsCommand (s := s.started) hv.platform (hstarted.commandLoaded rfl) rfl
    agenda := hagenda
    operands := ⟨rfl, rfl, rfl, rfl⟩
    onCourse := ⟨startedClear_accessed s, 0, trivial⟩ }

theorem startedClear_stepsLeft (s : State) : s.startedClear.stepsLeft = stepCount s.len.toNat := rfl

/-- Every state that the computation of a valid command reaches, apart from counters that are not read (R108). -/
theorem computation_reaches {s : State} (hv : ValidCommand s) (hagenda : s.agenda = []) {n : Nat}
    (hn : n ≤ stepCount s.len.toNat) :
    ∃ t u, runSteps n s.started = .next t ∧ Twins u t ∧ Computing s u ∧ u.stepsLeft + n = stepCount s.len.toNat := by
  rw [← startedClear_stepsLeft] at hn ⊢
  obtain ⟨u, hrun, hu, hleft⟩ := (startedClear_computing hv hagenda).runs hv hn
  obtain ⟨t, hrun', htwins⟩ := (startedClear_twins s).runSteps_alike hrun
  exact ⟨t, u, hrun', htwins, hu, hleft⟩

/-- A computation is idle only when no step of it is left. -/
theorem Computing.idle_of_stepsLeft {s u : State} (hv : ValidCommand s) (h : Computing s u) (hleft : u.stepsLeft = 0) :
    u.phase = .idle := by
  by_contra hidle
  obtain ⟨t, _, _, hsteps⟩ := h.step_computing hv hidle
  omega

/-- What a finished computation has read and written (R58). -/
theorem Computing.accesses_of_idle {s u : State} (h : Computing s u) (hidle : u.phase = .idle) :
    memoryAccesses u.trace = digestWrites s 32 ++ (messageReads s s.len.toNat ++ memoryAccesses s.trace) := by
  obtain ⟨ha, k, hk⟩ := h.onCourse
  rw [hidle] at ha hk
  obtain ⟨_, hrem⟩ := hk
  rw [ha.shown, hrem, counter_zero, Nat.sub_zero]
  rfl

theorem SameButHidden.trace_eq {s t : State} (h : SameButHidden s t) : t.trace = s.trace := by
  obtain ⟨_, rfl⟩ := h.exists_withHiddenOf
  rfl

/-- Settles O57: every step keeps the computation on course, and when no step is left it has read the message and
written its digest. -/
theorem computationAccessesMemoryInOrder : Obligations.ComputationAccessesMemoryInOrder := by
  intro s d hagenda hb hd hv
  obtain ⟨t, u, hrun, htwins, hu, hleft⟩ := computation_reaches hv hagenda le_rfl
  have hidle : u.phase = .idle := hu.idle_of_stepsLeft hv (by omega)
  refine ⟨s.started, t, exec_start hb hd hv.operands, hrun, ?_⟩
  rw [htwins.same.trace_eq, hu.accesses_of_idle hidle, List.append_assoc]
  rfl

end Sys2Proof.Machine
end

section
/-! SUPPORT. The two formats as words: the fields of an access, the bytes of a table word, and what the decoder makes of
them (R70 to R73, R83; log 13). -/

namespace Sys2Proof.Machine

/-! ### The fields of an access (R71) -/

section

variable (we : BitVec 1) (idx : BitVec 3) (d : Word)

theorem accessWord_toNat : (accessWord we idx d).toNat = we.toNat * 2 ^ 35 + idx.toNat * 2 ^ 32 + d.toNat := by
  have hidx := idx.isLt
  have hd := d.isLt
  simp only [accessWord, BitVec.toNat_append]
  rw [← Nat.shiftLeft_add_eq_or_of_lt hd, ← Nat.shiftLeft_add_eq_or_of_lt hidx]
  simp only [Nat.shiftLeft_eq]
  omega

theorem readWord_toNat : (accessWord 0 idx d).toNat = idx.toNat * 2 ^ 32 + d.toNat := by
  simp [accessWord_toNat]

theorem writeWord_toNat : (accessWord 1 idx d).toNat = 2 ^ 35 + idx.toNat * 2 ^ 32 + d.toNat := by
  simp [accessWord_toNat]

theorem accessWord_wdata : (accessWord we idx d).extractLsb' 0 32 = d := by
  apply BitVec.eq_of_toNat_eq
  rw [BitVec.extractLsb'_toNat, accessWord_toNat, Nat.shiftRight_zero]
  omega

theorem accessWord_idx : (accessWord we idx d).extractLsb' 32 3 = idx := by
  apply BitVec.eq_of_toNat_eq
  rw [BitVec.extractLsb'_toNat, accessWord_toNat, Nat.shiftRight_eq_div_pow]
  omega

theorem accessWord_we : (accessWord we idx d).getLsbD 35 = decide (we = 1) := by
  obtain rfl | rfl := BitVec.eq_zero_or_eq_one we <;> simp only [accessWord, BitVec.getLsbD_append] <;> rfl

end

/-! ### Every instruction is a read, a write or a micro-operation (R70) -/

theorem hostRegOfIndex_index (r : HostReg) : hostRegOfIndex r.index = r := by
  cases r <;> rfl

/-- With `we = 0` an access is the read of its register, whatever `wdata` (R71). -/
theorem decodeAccess_readWord (r : HostReg) (d : Word) :
    decodeAccess (accessWord 0 r.index d) = r.readInstr := by
  rw [decodeAccess_of_read (accessWord_we ..), accessWord_idx, hostRegOfIndex_index]

/-- With `we = 1` it is the write of its register, `wdata` whole (R71). -/
theorem decodeAccess_writeWord (r : HostReg) (d : Word) :
    decodeAccess (accessWord 1 r.index d) = r.writeInstr d := by
  rw [decodeAccess, accessWord_we, if_pos (by rfl), accessWord_idx, accessWord_wdata, hostRegOfIndex_index]

/-- Every instruction reads a host register, writes one, or is the micro-operation of a phase. -/
theorem instr_cases (i : Instr) :
    (∃ r : HostReg, i = r.readInstr) ∨ (∃ (r : HostReg) (d : Word), i = r.writeInstr d) ∨
      ∃ p : Phase, i = p.instr := by
  cases i with
  | rdCtrl => exact .inl ⟨.ctrl, rfl⟩
  | rdStatus => exact .inl ⟨.status, rfl⟩
  | rdSrcLo => exact .inl ⟨.srcLo, rfl⟩
  | rdSrcHi => exact .inl ⟨.srcHi, rfl⟩
  | rdLenLo => exact .inl ⟨.lenLo, rfl⟩
  | rdLenHi => exact .inl ⟨.lenHi, rfl⟩
  | rdDstLo => exact .inl ⟨.dstLo, rfl⟩
  | rdDstHi => exact .inl ⟨.dstHi, rfl⟩
  | wrCtrl d => exact .inr (.inl ⟨.ctrl, d, rfl⟩)
  | wrStatus d => exact .inr (.inl ⟨.status, d, rfl⟩)
  | wrSrcLo d => exact .inr (.inl ⟨.srcLo, d, rfl⟩)
  | wrSrcHi d => exact .inr (.inl ⟨.srcHi, d, rfl⟩)
  | wrLenLo d => exact .inr (.inl ⟨.lenLo, d, rfl⟩)
  | wrLenHi d => exact .inr (.inl ⟨.lenHi, d, rfl⟩)
  | wrDstLo d => exact .inr (.inl ⟨.dstLo, d, rfl⟩)
  | wrDstHi d => exact .inr (.inl ⟨.dstHi, d, rfl⟩)
  | idle => exact .inr (.inr ⟨.idle, rfl⟩)
  | init => exact .inr (.inr ⟨.init, rfl⟩)
  | fetch => exact .inr (.inr ⟨.fetch, rfl⟩)
  | pad80 => exact .inr (.inr ⟨.pad80, rfl⟩)
  | padz => exact .inr (.inr ⟨.padz, rfl⟩)
  | padlen => exact .inr (.inr ⟨.padlen, rfl⟩)
  | wload => exact .inr (.inr ⟨.wload, rfl⟩)
  | wexp => exact .inr (.inr ⟨.wexp, rfl⟩)
  | seed => exact .inr (.inr ⟨.seed, rfl⟩)
  | round => exact .inr (.inr ⟨.round, rfl⟩)
  | addbk => exact .inr (.inr ⟨.addbk, rfl⟩)
  | next => exact .inr (.inr ⟨.next, rfl⟩)
  | ser => exact .inr (.inr ⟨.ser, rfl⟩)
  | finish => exact .inr (.inr ⟨.finish, rfl⟩)

theorem encode_readInstr (r : HostReg) : encode r.readInstr = accessBytes (accessWord 0 r.index 0) := by
  cases r <;> rfl

theorem encode_writeInstr (r : HostReg) (d : Word) :
    encode (r.writeInstr d) = accessBytes (accessWord 1 r.index d) := by
  cases r <;> rfl

theorem encode_phaseInstr (p : Phase) : encode p.instr = phaseBytes p := by
  cases p <;> rfl

theorem decode_encode (i : Instr) : decode (encode i) = .instr i := by
  obtain ⟨r, rfl⟩ | ⟨r, d, rfl⟩ | ⟨p, rfl⟩ := instr_cases i
  · rw [encode_readInstr, decode_accessBytes, decodeAccess_readWord]
  · rw [encode_writeInstr, decode_accessBytes, decodeAccess_writeWord]
  · rw [encode_phaseInstr, decode_phaseBytes]

/-- Settles O1: both formats decode to what they encode, and every instruction has one of the two. -/
theorem decodeOfEncodeIsIdentity : Obligations.DecodeOfEncodeIsIdentity :=
  fun i _ => decode_encode i

/-- Settles O5: the printed bytes are the encodings of their instructions, and code 14 names no phase. -/
theorem wordsOfTheSpecDecode : Obligations.WordsOfTheSpecDecode :=
  ⟨decode_encode (.wrLenLo 3), decode_encode .rdStatus, decode_encode (.wrCtrl 0xFFFFFFFF),
    decode_encode (.wrSrcLo 0xDEADBEEF), decode_encode (.wrDstHi 0x80000000), decode_encode .fetch, decode_encode .wexp,
    decode_encode .ser, rfl⟩

/-! ### Table words as bytes (R83; log 13) -/

theorem leBytes_toNat (x : BitVec 36) : leBytes 5 x.toNat = accessBytes x := by
  have hx := x.isLt
  simp only [leBytes, accessBytes, List.cons.injEq, and_true]
  refine ⟨?_, ?_, ?_, ?_, ?_⟩ <;> apply BitVec.eq_of_toNat_eq <;>
    simp only [BitVec.toNat_ofNat, BitVec.toNat_setWidth, BitVec.extractLsb'_toNat, Nat.shiftRight_eq_div_pow] <;> omega

theorem leValue_accessBytes (x : BitVec 36) : leValue (accessBytes x) = x.toNat := by
  have hx := x.isLt
  simp only [accessBytes, leValue, BitVec.toNat_setWidth, BitVec.extractLsb'_toNat, Nat.shiftRight_eq_div_pow]
  omega

theorem decodeTableWord_of_instr {nbits w : Nat} {i : Instr} (hw : w < 256 ^ tableBytes nbits)
    (h : decode (leBytes (tableBytes nbits) w) = .instr i) : decodeTableWord nbits w = some i := by
  rw [decodeTableWord, if_pos hw, h]

theorem decodeTableWord_of_refused {nbits w : Nat} {why : DecodeRefusal}
    (h : decode (leBytes (tableBytes nbits) w) = .refused why) : decodeTableWord nbits w = none := by
  simp only [decodeTableWord, h, ite_self]

/-- A 36-bit table word decodes to the access those bits are. -/
theorem decodeTableWord_access (x : BitVec 36) : decodeTableWord 36 x.toNat = some (decodeAccess x) := by
  apply decodeTableWord_of_instr
  · exact x.isLt.trans (by decide)
  · exact (congrArg decode (leBytes_toNat x)).trans (decode_accessBytes x)

/-- No word with a bit above bit 35 is an access (R71): the fifth byte shows the bit, or five bytes do not hold it. -/
theorem decodeTableWord_beyondAccess {w : Nat} (hw : 2 ^ 36 ≤ w) : decodeTableWord 36 w = none := by
  by_cases hlt : w < 256 ^ 5
  · have hfifth : ¬ (BitVec.ofNat 8 (w / 256 / 256 / 256 / 256)).toNat < 16 := by
      rw [BitVec.toNat_ofNat]
      omega
    exact decodeTableWord_of_refused (if_neg hfifth)
  · exact if_neg hlt

/-- No word with a bit above bit 3 is a phase code (R72). -/
theorem decodeTableWord_beyondPhase {w : Nat} (hw : 16 ≤ w) : decodeTableWord 4 w = none := by
  by_cases hlt : w < 256
  · have hbyte : ¬ (BitVec.ofNat 8 w).toNat < 16 := by
      rw [BitVec.toNat_ofNat]
      omega
    exact decodeTableWord_of_refused (if_neg hbyte)
  · exact if_neg hlt

theorem decodeTableWord_read (r : HostReg) {d : Nat} (hd : d < 2 ^ 32) :
    decodeTableWord 36 (r.index.toNat * 2 ^ 32 + d) = some r.readInstr := by
  have h := decodeTableWord_access (accessWord 0 r.index (BitVec.ofNat 32 d))
  rwa [readWord_toNat, BitVec.toNat_ofNat, Nat.mod_eq_of_lt hd, decodeAccess_readWord] at h

theorem decodeTableWord_write (r : HostReg) {d : Nat} (hd : d < 2 ^ 32) :
    decodeTableWord 36 (2 ^ 35 + r.index.toNat * 2 ^ 32 + d) = some (r.writeInstr (BitVec.ofNat 32 d)) := by
  have h := decodeTableWord_access (accessWord 1 r.index (BitVec.ofNat 32 d))
  rwa [writeWord_toNat, BitVec.toNat_ofNat, Nat.mod_eq_of_lt hd, decodeAccess_writeWord] at h

/-- Settles O2: `we` and `idx` select the register and the direction, and `wdata` is the rest. -/
theorem everyAccessDecodesByWeAndIdx : Obligations.EveryAccessDecodesByWeAndIdx :=
  ⟨fun _ hd => ⟨decodeTableWord_read .ctrl hd, decodeTableWord_read .status hd, decodeTableWord_read .srcLo hd,
    decodeTableWord_read .srcHi hd, decodeTableWord_read .lenLo hd, decodeTableWord_read .lenHi hd,
    decodeTableWord_read .dstLo hd, decodeTableWord_read .dstHi hd, decodeTableWord_write .ctrl hd,
    decodeTableWord_write .status hd, decodeTableWord_write .srcLo hd, decodeTableWord_write .srcHi hd,
    decodeTableWord_write .lenLo hd, decodeTableWord_write .lenHi hd, decodeTableWord_write .dstLo hd,
    decodeTableWord_write .dstHi hd⟩, fun _ hw => decodeTableWord_beyondAccess hw⟩

/-- Settles O3: the sixteen codes in order, and nothing beyond four bits. -/
theorem phaseCodesDecode : Obligations.PhaseCodesDecode :=
  ⟨by decide, fun _ hw => decodeTableWord_beyondPhase hw⟩

/-! ### The rows of the opcode table (R83) -/

theorem exists_row_at {rows : List OpcodeRow} {mask size : Nat} {pattern : Nat → Nat}
    (hmask : ∀ r ∈ rows, r.mask = mask) (hpattern : rows.map OpcodeRow.pattern = (List.range size).map pattern)
    {n : Nat} (hn : n < size) :
    ∃ r, rows[n]? = some r ∧ r.mask = mask ∧ r.pattern = pattern n := by
  have hat : (rows[n]?).map OpcodeRow.pattern = some (pattern n) := by
    rw [← List.getElem?_map, hpattern, List.getElem?_map, List.getElem?_range hn, Option.map_some]
  obtain ⟨r, hr, hp⟩ := Option.map_eq_some_iff.mp hat
  exact ⟨r, hr, hmask r (List.mem_of_getElem? hr), hp⟩

/-- The mask of format H keeps `we` and `idx` and drops `wdata`. -/
theorem accessWord_and_mask (we : BitVec 1) (idx : BitVec 3) (d : Word) :
    (accessWord we idx d).toNat &&& 0xF00000000 = (accessWord we idx 0).toNat := by
  have hand : accessWord we idx d &&& accessWord (BitVec.allOnes 1) (BitVec.allOnes 3) 0 = accessWord we idx 0 := by
    refine (BitVec.and_append (x₁ := we ++ idx) (y₁ := d)).trans ?_
    rw [BitVec.and_append, BitVec.and_allOnes, BitVec.and_allOnes, BitVec.ofNat_eq_ofNat, BitVec.and_zero]
    rfl
  exact congrArg BitVec.toNat hand

theorem hostMask_of_mem : ∀ q ∈ opcodeRows, q.format = .host → q.mask = 0xF00000000 := by decide

/-- Which rows an access matches does not depend on `wdata`. -/
theorem filter_matches_access (we : BitVec 1) (idx : BitVec 3) (d : Word) :
    opcodeRows.filter (fun q => q.matches .host (accessWord we idx d).toNat) =
      opcodeRows.filter (fun q => q.matches .host (accessWord we idx 0).toNat) := by
  refine List.filter_congr fun q hq => ?_
  by_cases hf : q.format = .host
  · simp only [OpcodeRow.matches, hostMask_of_mem q hq hf, accessWord_and_mask]
  · simp only [OpcodeRow.matches, decide_eq_false hf, Bool.false_and]

/-- The row of a host access: its own mnemonic, the mask of its format, and its word with `wdata = 0`. -/
def accessRow (i : Instr) (we : BitVec 1) (r : HostReg) : OpcodeRow :=
  ⟨i.mnemonic, .host, 0xF00000000, (accessWord we r.index 0).toNat⟩

theorem readInstr_only_row (r : HostReg) :
    opcodeRows.filter (fun q => q.matches r.readInstr.format (leValue (encode r.readInstr))) =
      [accessRow r.readInstr 0 r] := by
  rw [encode_readInstr, leValue_accessBytes]
  cases r <;> decide

theorem writeInstr_only_row (r : HostReg) (d : Word) :
    opcodeRows.filter (fun q => q.matches (r.writeInstr d).format (leValue (encode (r.writeInstr d)))) =
      [accessRow (r.writeInstr d) 1 r] := by
  have hformat : (r.writeInstr d).format = .host := by cases r <;> rfl
  rw [encode_writeInstr, leValue_accessBytes, hformat, filter_matches_access]
  cases r <;> rfl

theorem phaseInstr_only_row (p : Phase) :
    opcodeRows.filter (fun q => q.matches p.instr.format (leValue (encode p.instr))) =
      [⟨p.instr.mnemonic, .sequencer, 0xF, p.code.toNat⟩] := by
  cases p <;> decide

/-- Settles O4: the rows stand in the order of their patterns, and `wdata` decides nothing about which row matches. -/
theorem everyWordHasExactlyItsRow : Obligations.EveryWordHasExactlyItsRow := by
  refine ⟨rfl, rfl, rfl, fun n hn => ?host, fun n hn => ?sequencer, fun i => ?instr⟩
  case host => exact exists_row_at (pattern := (· * 2 ^ 32)) (by decide) (by decide) hn
  case sequencer => exact exists_row_at (pattern := id) (by decide) (by decide) hn
  case instr =>
    obtain ⟨r, rfl⟩ | ⟨r, d, rfl⟩ | ⟨p, rfl⟩ := instr_cases i
    · exact ⟨_, rfl, readInstr_only_row r⟩
    · exact ⟨_, rfl, writeInstr_only_row r d⟩
    · exact ⟨_, rfl, phaseInstr_only_row p⟩

end Sys2Proof.Machine
end

section
/-! SUPPORT. Host programs that set operands, and what a read of `STATUS` shows (R74, R76, R81, R82, R253). -/

namespace Sys2Proof.Machine

/-! ### The halves of an operand (R74) -/

theorem withHiHalf_withLoHalf (x y : Dword) :
    withHiHalf (withLoHalf x (y.extractLsb' 0 32)) (y.extractLsb' 32 32) = y := by
  change withHiHalf (withLoHalf x (loHalf y)) (hiHalf y) = y
  apply BitVec.eq_of_toNat_eq
  simp only [withHiHalf_toNat, withLoHalf_toNat, loHalf_toNat, hiHalf_toNat]
  omega

theorem withLoHalf_withHiHalf (x y : Dword) :
    withLoHalf (withHiHalf x (y.extractLsb' 32 32)) (y.extractLsb' 0 32) = y := by
  change withLoHalf (withHiHalf x (hiHalf y)) (loHalf y) = y
  apply BitVec.eq_of_toNat_eq
  simp only [withHiHalf_toNat, withLoHalf_toNat, loHalf_toNat, hiHalf_toNat]
  omega

/-! ### Programs of operand writes (R81, R102 to R107) -/

/-- A line that writes a half of an operand. -/
def setsOperand : HostLine → Bool
  | .rd _ => false
  | .wr r _ => match r with
    | .ctrl | .status => false
    | .srcLo | .srcHi | .lenLo | .lenHi | .dstLo | .dstHi => true

/-- The state after such a line on an idle block. -/
def State.afterWrite (s : State) : HostLine → State
  | .rd _ => s
  | .wr r v => match r with
    | .ctrl | .status => s
    | .srcLo => { s with src := withLoHalf s.src v }
    | .srcHi => { s with src := withHiHalf s.src v }
    | .lenLo => { s with len := withLoHalf s.len v }
    | .lenHi => { s with len := withHiHalf s.len v }
    | .dstLo => { s with dst := withLoHalf s.dst v }
    | .dstHi => { s with dst := withHiHalf s.dst v }

theorem afterWrite_busy (s : State) (l : HostLine) : (s.afterWrite l).busy = s.busy := by
  cases l with
  | rd r => rfl
  | wr r v => cases r <;> rfl

/-- An operand write on an idle block sets its half, apart from the agenda and the trace (R102 to R107). -/
theorem step_operandWrite {l : HostLine} (hl : setsOperand l = true) {s : State} (hb : s.busy = false)
    (es : List Event) (tr : List Observation) :
    step (s.atPort (.access l.word :: es) tr) = .next ((s.afterWrite l).atPort es tr) := by
  have hidle : ¬ (s.atPort es tr).busy = true := by simp [State.atPort, hb]
  refine (step_of_access rfl).trans ?_
  cases l with
  | rd r => cases hl
  | wr r v =>
    rw [HostLine.word, decodeAccess_writeWord]
    cases r with
    | ctrl | status => cases hl
    | srcLo | srcHi | lenLo | lenHi | dstLo | dstHi => exact whenIdle_of_idle hidle

/-- A program of operand writes on an idle block performs them in order. -/
theorem runSteps_operandWrites {ls : List HostLine} (hls : ∀ l ∈ ls, setsOperand l = true) {s : State}
    (hb : s.busy = false) (tr : List Observation) :
    runSteps ls.length (s.atPort (ls.map fun l => .access l.word) tr) =
      .next ((ls.foldl State.afterWrite s).atPort [] tr) := by
  induction ls generalizing s with
  | nil => rfl
  | cons l ls ih =>
    obtain ⟨hl, hls⟩ := List.forall_mem_cons.mp hls
    exact (runSteps_succ_of_step (step_operandWrite hl hb _ tr) _).trans (ih hls ((afterWrite_busy s l).trans hb))

/-- The same, for a program that is the whole agenda. -/
theorem runSteps_operandProgram {s : State} {ls : List HostLine} (hs : s.agenda = ls.map fun l => .access l.word)
    (hls : ∀ l ∈ ls, setsOperand l = true) (hb : s.busy = false) :
    runSteps ls.length s = .next { ls.foldl State.afterWrite s with agenda := [], trace := s.trace } := by
  have hrun := runSteps_operandWrites hls hb s.trace
  rwa [← hs] at hrun

/-- Settles O18: the two halves of each operand come from one value, so they make it up again in either order. -/
theorem setOperandsProgramSetsOperands : Obligations.SetOperandsProgramSetsOperands := by
  intro s a n d hb
  refine ⟨fun hs => ?lowFirst, fun hs => ?highFirst⟩
  case lowFirst =>
    have hrun := runSteps_operandProgram hs (by simp [Pseudo.expand, setsOperand]) hb
    simpa [Pseudo.expand, State.afterWrite, withHiHalf_withLoHalf] using hrun
  case highFirst =>
    have hrun := runSteps_operandProgram hs (by simp [Pseudo.expand, setsOperand]) hb
    simpa [Pseudo.expand, State.afterWrite, withLoHalf_withHiHalf] using hrun

/-! ### `STATUS` (R76) -/

theorem statusWord_eq_one_iff (busy done : Bool) : statusWord busy done = 1 ↔ busy = true ∧ done = false := by
  cases busy <;> cases done <;> decide

/-- Settles O46: 3 would be BUSY and DONE at once, which the phase invariant excludes. -/
theorem statusReadsZeroOneOrTwo : Obligations.StatusReadsZeroOneOrTwo := by
  intro s h
  refine ⟨statusWord s.busy s.done, exec_rdStatus s, ?values, ?busy⟩
  case values =>
    cases hb : s.busy with
    | true => exact .inr (.inl ((statusWord_eq_one_iff ..).mpr ⟨rfl, h.not_busy_and_done hb⟩))
    | false =>
      cases s.done with
      | true => exact .inr (.inr rfl)
      | false => exact .inl rfl
  case busy =>
    rw [statusWord_eq_one_iff, ← h.busy_iff]
    exact and_iff_left_of_imp h.not_busy_and_done

end Sys2Proof.Machine
end

section
/-! SUPPORT. The compute contract: what a finished computation has left, and that it is busy until then
(R108, R109, R128, R129). -/

namespace Sys2Proof.Machine

section
variable {s t : State}

theorem SameButHidden.busy_eq (h : SameButHidden s t) : t.busy = s.busy := by
  obtain ⟨_, rfl⟩ := h.exists_withHiddenOf
  rfl

theorem SameButHidden.done_eq (h : SameButHidden s t) : t.done = s.done := by
  obtain ⟨_, rfl⟩ := h.exists_withHiddenOf
  rfl

theorem SameButHidden.keepsOperands (h : SameButHidden s t) : KeepsOperands s t := by
  obtain ⟨_, rfl⟩ := h.exists_withHiddenOf
  exact ⟨rfl, rfl, rfl, rfl⟩

end

section
variable {s u : State}

/-- A computation that is not idle shows BUSY and not DONE (R34, R35). -/
theorem Computing.busy_of_not_idle (h : Computing s u) (hidle : u.phase ≠ .idle) : u.busy = true ∧ u.done = false :=
  have hb : u.busy = true := h.phaseInv.busy_iff.mpr hidle
  ⟨hb, h.phaseInv.not_busy_and_done hb⟩

/-- A finished computation shows DONE and not BUSY (R201). -/
theorem Computing.done_of_idle (h : Computing s u) (hidle : u.phase = .idle) : u.busy = false ∧ u.done = true := by
  obtain ⟨_, k, hk⟩ := h.onCourse
  rw [hidle] at hk
  obtain ⟨hdone, _⟩ := hk
  exact ⟨Bool.eq_false_of_not_eq_true fun hb => h.phaseInv.busy_iff.mp hb hidle, hdone⟩

/-- A finished computation has written the digest and no other byte (R108). -/
theorem Computing.digest_of_idle (h : Computing s u) (hidle : u.phase = .idle) :
    (∀ j, j < 32 → u.mem.lookup (dstAddr s + j) = (sha256 (message s))[j]?) ∧
      ∀ a, a < dstAddr s ∨ dstAddr s + 32 ≤ a → u.mem.lookup a = s.mem.lookup a := by
  have ha := h.onCourse.accessed
  rw [hidle] at ha
  exact ⟨ha.written, ha.frame⟩

end

/-- Settles O55: the computation reaches the state in which no step is left, and there the digest stands in `Mem`. -/
theorem computationWritesTheSha256Digest : Obligations.ComputationWritesTheSha256Digest := by
  intro s d hagenda hb hd hv
  obtain ⟨t, u, hrun, htwins, hu, hleft⟩ := computation_reaches hv hagenda le_rfl
  have hidle : u.phase = .idle := hu.idle_of_stepsLeft hv (by omega)
  have hsame := htwins.same
  obtain ⟨hbusy, hdone⟩ := hu.done_of_idle hidle
  obtain ⟨hdigest, hframe⟩ := hu.digest_of_idle hidle
  have hops := hsame.keepsOperands
  have hops' := hu.operands
  refine ⟨s.started, t, exec_start hb hd hv.operands, hrun, ?_⟩
  rw [hsame.mem_eq, hsame.busy_eq, hsame.done_eq, hsame.phase_eq]
  exact ⟨hdigest, hframe, hbusy, hdone, hidle, hops.src.trans hops'.src, hops.len.trans hops'.len,
    hops.dst.trans hops'.dst⟩

/-- Settles O56: while a step is left the computation is not idle. -/
theorem computationIsBusyUntilFinish : Obligations.ComputationIsBusyUntilFinish := by
  intro s d n hagenda hb hd hv hn
  obtain ⟨t, u, hrun, htwins, hu, hleft⟩ := computation_reaches hv hagenda hn.le
  have hidle : u.phase ≠ .idle := fun hp => by
    rw [stepsLeft_of_idle hp] at hleft
    omega
  refine ⟨s.started, t, exec_start hb hd hv.operands, hrun, ?_⟩
  rw [htwins.same.busy_eq, htwins.same.done_eq]
  exact hu.busy_of_not_idle hidle

end Sys2Proof.Machine
end

section
/-! SUPPORT. The host accesses one by one: what a read shows, what a write sets on an idle block, that it is lost on a busy
one, and what ends a computation (R91 to R107). -/

namespace Sys2Proof.Machine

/-! ### Every access is a read or a write of a register (R71) -/

theorem decode_readWord (r : HostReg) (d : Word) :
    decode (accessBytes (accessWord 0 r.index d)) = .instr r.readInstr := by
  rw [decode_accessBytes, decodeAccess_readWord]

theorem decode_writeWord (r : HostReg) (d : Word) :
    decode (accessBytes (accessWord 1 r.index d)) = .instr (r.writeInstr d) := by
  rw [decode_accessBytes, decodeAccess_writeWord]

theorem decodeAccess_cases (x : BitVec 36) :
    (∃ r : HostReg, decodeAccess x = r.readInstr) ∨ ∃ (r : HostReg) (d : Word), decodeAccess x = r.writeInstr d := by
  unfold decodeAccess
  cases x.getLsbD 35 with
  | false => exact .inl ⟨_, rfl⟩
  | true => exact .inr ⟨_, _, rfl⟩

theorem exists_writeInstr_of_isHostWrite {i : Instr} (h : isHostWrite i = true) :
    ∃ (r : HostReg) (d : Word), i = r.writeInstr d := by
  obtain ⟨r, rfl⟩ | hwrite | ⟨p, rfl⟩ := instr_cases i
  · cases r <;> cases h
  · exact hwrite
  · cases p <;> cases h

/-! ### Reads -/

/-- Settles O11: an access with `we = 0` is a read whatever `wdata`, and it shows the stored register. -/
theorem readsReturnAndChangeNothing : Obligations.ReadsReturnAndChangeNothing := by
  refine ⟨fun d => ?decoding, fun s => ?reading⟩
  case decoding =>
    exact ⟨decode_readWord .ctrl d, decode_readWord .status d, decode_readWord .srcLo d, decode_readWord .srcHi d,
      decode_readWord .lenLo d, decode_readWord .lenHi d, decode_readWord .dstLo d, decode_readWord .dstHi d⟩
  case reading =>
    exact ⟨exec_rdCtrl s, ⟨_, statusWord_toNat s.busy s.done, exec_rdStatus s⟩, ⟨_, loHalf_toNat s.src, exec_rdSrcLo s⟩,
      ⟨_, hiHalf_toNat s.src, exec_rdSrcHi s⟩, ⟨_, loHalf_toNat s.len, exec_rdLenLo s⟩,
      ⟨_, hiHalf_toNat s.len, exec_rdLenHi s⟩, ⟨_, loHalf_toNat s.dst, exec_rdDstLo s⟩,
      ⟨_, hiHalf_toNat s.dst, exec_rdDstHi s⟩⟩

/-! ### Operand writes -/

section
variable (x : Dword) (v : Word)

theorem withLoHalf_toNat_mod : (withLoHalf x v).toNat % 2 ^ 32 = v.toNat := by
  rw [withLoHalf_toNat]
  omega

theorem withLoHalf_toNat_div : (withLoHalf x v).toNat / 2 ^ 32 = x.toNat / 2 ^ 32 := by
  rw [withLoHalf_toNat]
  omega

theorem withHiHalf_toNat_mod : (withHiHalf x v).toNat % 2 ^ 32 = x.toNat % 2 ^ 32 := by
  rw [withHiHalf_toNat]
  omega

theorem withHiHalf_toNat_div : (withHiHalf x v).toNat / 2 ^ 32 = v.toNat := by
  rw [withHiHalf_toNat]
  omega

end

/-- On a busy block every host write is lost (R99). -/
theorem exec_writeInstr_of_busy (r : HostReg) (d : Word) {s : State} (hb : s.busy = true) :
    exec (r.writeInstr d) s = .next s := by
  cases r with
  | ctrl => exact if_pos hb
  | status => exact exec_wrStatus d s
  | srcLo | srcHi | lenLo | lenHi | dstLo | dstHi => exact whenIdle_of_busy hb

/-- Settles O12: on an idle block the new operand is the old one with one half replaced; on a busy one the write is lost. -/
theorem operandWritesSetTheirHalf : Obligations.OperandWritesSetTheirHalf := by
  refine ⟨fun d => ?decoding, fun s d hb => ?idle, fun s d hb => ?busy⟩
  case decoding =>
    exact ⟨decode_writeWord .srcLo d, decode_writeWord .srcHi d, decode_writeWord .lenLo d, decode_writeWord .lenHi d,
      decode_writeWord .dstLo d, decode_writeWord .dstHi d⟩
  case idle =>
    have hidle : ¬ s.busy = true := by simp [hb]
    exact ⟨⟨_, withLoHalf_toNat_mod s.src d, withLoHalf_toNat_div s.src d, whenIdle_of_idle hidle⟩,
      ⟨_, withHiHalf_toNat_div s.src d, withHiHalf_toNat_mod s.src d, whenIdle_of_idle hidle⟩,
      ⟨_, withLoHalf_toNat_mod s.len d, withLoHalf_toNat_div s.len d, whenIdle_of_idle hidle⟩,
      ⟨_, withHiHalf_toNat_div s.len d, withHiHalf_toNat_mod s.len d, whenIdle_of_idle hidle⟩,
      ⟨_, withLoHalf_toNat_mod s.dst d, withLoHalf_toNat_div s.dst d, whenIdle_of_idle hidle⟩,
      ⟨_, withHiHalf_toNat_div s.dst d, withHiHalf_toNat_mod s.dst d, whenIdle_of_idle hidle⟩⟩
  case busy =>
    exact ⟨exec_writeInstr_of_busy .srcLo d hb, exec_writeInstr_of_busy .srcHi d hb, exec_writeInstr_of_busy .lenLo d hb,
      exec_writeInstr_of_busy .lenHi d hb, exec_writeInstr_of_busy .dstLo d hb, exec_writeInstr_of_busy .dstHi d hb⟩

/-! ### What ends a computation -/

/-- Of the micro-operations only FINISH writes BUSY or DONE (R34, R35, R201). -/
theorem turn_keepsFlags {p : Phase} (hp : p ≠ .finish) (s : State) :
    ∃ t, exec p.instr s = .next t ∧ t.busy = s.busy ∧ t.done = s.done := by
  cases p with
  | finish => exact absurd rfl hp
  | fetch =>
    rcases exec_fetch_cases s with ⟨_, h⟩ | ⟨_, _, h⟩ | ⟨_, _, v, _, h⟩ | ⟨_, _, _, h⟩ <;> exact ⟨_, h, rfl, rfl⟩
  | padz => rcases exec_padz_cases s with ⟨_, h⟩ | ⟨_, h⟩ <;> exact ⟨_, h, rfl, rfl⟩
  | next => rcases exec_next_cases s with ⟨_, h⟩ | ⟨_, _, h⟩ | ⟨_, _, h⟩ <;> exact ⟨_, h, rfl, rfl⟩
  | ser => rcases exec_ser_cases s with ⟨_, h⟩ | ⟨_, h⟩ <;> exact ⟨_, h, rfl, rfl⟩
  | idle => exact ⟨_, exec_idle s, rfl, rfl⟩
  | init => exact ⟨_, exec_init s, rfl, rfl⟩
  | pad80 => exact ⟨_, exec_pad80 s, rfl, rfl⟩
  | padlen => exact ⟨_, exec_padlen s, rfl, rfl⟩
  | wload => exact ⟨_, exec_wload s, rfl, rfl⟩
  | wexp => exact ⟨_, exec_wexp s, rfl, rfl⟩
  | seed => exact ⟨_, exec_seed s, rfl, rfl⟩
  | round => exact ⟨_, exec_round s, rfl, rfl⟩
  | addbk => exact ⟨_, exec_addbk s, rfl, rfl⟩

/-- On a busy block an access at most shows a value (R90, R99). -/
theorem step_access_of_busy {s : State} {x : BitVec 36} {es : List Event} (hb : s.busy = true)
    (ha : s.agenda = .access x :: es) : ∃ tr, step s = .next { s with agenda := es, trace := tr } := by
  rw [step_of_access ha]
  rcases decodeAccess_cases x with ⟨r, hr⟩ | ⟨r, d, hr⟩ <;> rw [hr]
  · obtain ⟨_, _, he⟩ := exec_readInstr r { s with agenda := es }
    exact ⟨_, he⟩
  · exact ⟨s.trace, exec_writeInstr_of_busy r d hb⟩

/-- A step that clears BUSY is a reset or FINISH (R99). -/
theorem step_clears_busy {s t : State} (hb : s.busy = true) (h : step s = .next t) (ht : t.busy = false) :
    (∃ es, s.agenda = .reset :: es) ∨ (s.sequencerTurn ∧ s.phase = .finish) := by
  have hne : t.busy ≠ s.busy := by simp [hb, ht]
  rcases step_cases s with ⟨x, es, ha, _⟩ | ⟨hturn, he⟩ | ⟨es, ha, _⟩ | ⟨a, v, _, _, he⟩
  · obtain ⟨_, he⟩ := step_access_of_busy hb ha
    obtain rfl := Host.Outcome.next.inj (he.symm.trans h)
    exact absurd rfl hne
  · refine .inr ⟨hturn, by_contra fun hp => ?_⟩
    obtain ⟨u, hu, hbusy, _⟩ := turn_keepsFlags hp s.turned
    obtain rfl := Host.Outcome.next.inj (hu.symm.trans (he.symm.trans h))
    exact hne hbusy
  · exact .inl ⟨es, ha⟩
  · rcases masterStore_cases s.turned a v with ⟨_, hm⟩ | ⟨_, hm⟩
    · obtain rfl := Host.Outcome.next.inj (hm.symm.trans (he.symm.trans h))
      exact absurd rfl hne
    · exact absurd (hm.symm.trans (he.symm.trans h)) (by simp)

/-- Settles O13: writes are lost one register at a time, and no step but reset and FINISH clears BUSY. -/
theorem writesWhileBusyAreLost : Obligations.WritesWhileBusyAreLost := by
  refine ⟨fun s i hb hi => ?_, fun s x es hb ha => step_access_of_busy hb ha, fun s t hb h ht => step_clears_busy hb h ht⟩
  obtain ⟨r, d, rfl⟩ := exists_writeInstr_of_isHostWrite hi
  exact exec_writeInstr_of_busy r d hb

/-! ### `CTRL` and `STATUS` -/

/-- A START outside the valid domain is refused (R100, R221). -/
theorem exec_start_refused {s : State} {d : Word} (hb : s.busy = false) (hd : d.toNat % 2 = 1)
    (h : ¬ ValidOperands s) : ∃ r, exec (.wrCtrl d) s = .refused r := by
  have hbit : startBit d = true := by rw [startBit_eq, decide_eq_true hd]
  have hstart : exec (.wrCtrl d) s = start s := by simp [exec_wrCtrl, hb, hbit]
  rw [hstart]
  rcases start_cases s with ⟨r, _, he⟩ | ⟨hnone, _⟩
  · exact ⟨r, he⟩
  · exact absurd (validOperands_of_startRefusal hnone) h

/-- With bit 0 clear a write to `CTRL` is no START (R75, R100). -/
theorem exec_wrCtrl_of_even {d : Word} (hd : d.toNat % 2 = 0) (s : State) : exec (.wrCtrl d) s = .next s := by
  have hbit : startBit d = false := by rw [startBit_eq, decide_eq_false (by omega)]
  simp [exec_wrCtrl, hbit]

/-- Settles O15: START refuses exactly the operands outside the valid domain, and nothing else is a START. -/
theorem writeToCtrlStarts : Obligations.WriteToCtrlStarts := by
  refine ⟨decode_writeWord .ctrl, fun s d hb hd hvalid => ?accepted, fun s d hb hd h => exec_start_refused hb hd h,
    fun s d h => ?ignored⟩
  case accepted => exact ⟨_, _, truncAddr_toNat _ s.src, truncAddr_toNat _ s.dst, exec_start hb hd hvalid⟩
  case ignored =>
    rcases h with hb | hd
    · exact exec_writeInstr_of_busy .ctrl d hb
    · exact exec_wrCtrl_of_even hd s

/-- Settles O14: the meaning of the write is the state it finds. -/
theorem statusIsReadOnly : Obligations.StatusIsReadOnly :=
  fun s d => ⟨decode_writeWord .status d, exec_wrStatus d s⟩

end Sys2Proof.Machine
end

section
/-! SUPPORT. The states a computation can be in, however long it runs, and what the block hands to the compression at every
entry to WLOAD (R109, R127, R129). -/

namespace Sys2Proof.Machine

section
variable {s u t : State}

/-- Every step of a valid computation, the turns after its end among them, keeps it one. -/
theorem Computing.of_step (hv : ValidCommand s) (h : Computing s u) (hstep : step u = .next t) : Computing s t := by
  by_cases hidle : u.phase = .idle
  · have hstay : step u = .next u := by rw [step_of_agenda_nil h.agenda, hidle]; exact exec_idle u
    exact Host.Outcome.next.inj (hstay.symm.trans hstep) ▸ h
  · obtain ⟨t', hstep', ht, _⟩ := h.step_computing hv hidle
    exact Host.Outcome.next.inj (hstep'.symm.trans hstep) ▸ ht

theorem Computing.of_runSteps (hv : ValidCommand s) {n : Nat} (h : Computing s u) (hrun : runSteps n u = .next t) :
    Computing s t := by
  induction n generalizing u with
  | zero => exact Host.Outcome.next.inj hrun ▸ h
  | succ n ih =>
    obtain ⟨u', hstep, hrest⟩ := runSteps_succ_next hrun
    exact ih (h.of_step hv hstep) hrest

/-- Every state a run from START reaches is, apart from counters that are not read, one of the computation. -/
theorem computing_of_runSteps (hv : ValidCommand s) (hagenda : s.agenda = []) {n : Nat}
    (hrun : runSteps n s.started = .next u) : ∃ t, Twins u t ∧ Computing s t := by
  have htwins : Twins s.started s.startedClear := ⟨rfl, rfl, rfl, rfl, rfl⟩
  obtain ⟨t, hrun', htwins'⟩ := htwins.runSteps_alike hrun
  exact ⟨t, htwins', (startedClear_computing hv hagenda).of_runSteps hv hrun'⟩

/-- A write to `CTRL` that leaves an idle block busy is an accepted START (R99, R100). -/
theorem eq_started_of_busy {d : Word} (hb : s.busy = false) (h : exec (.wrCtrl d) s = .next t) (ht : t.busy = true) :
    t = s.started := by
  rcases exec_host_next rfl h with ⟨_, rfl⟩ | ⟨_, _, _, _, rfl⟩ | ⟨_, _, rfl⟩
  · exact absurd (hb.symm.trans ht) (by decide)
  · exact absurd (hb.symm.trans ht) (by decide)
  · rfl

/-- A chunk in the compression is the last exactly when `final` is set (R125, R126). -/
theorem CompressingChunk.final_iff {k : Nat} (h : CompressingChunk s k u) :
    u.final = true ↔ k = (s.len.toNat + 8) / 64 := by
  refine ⟨h.last, fun hk => ?_⟩
  by_contra hfinal
  rw [Bool.not_eq_true] at hfinal
  cases hpadded : u.padded with
  | true => have := (h.lengthToCome hfinal hpadded).1; omega
  | false => have := h.bytesToCome hpadded; omega

/-- At WLOAD the buffer holds a chunk of the padded message and the hash state that of the chunks before it (R129). -/
theorem Computing.chunk_at_wload (h : Computing s u) (hp : u.phase = .wload) :
    ∃ k, u.buf = padChunk (message s) k ∧ u.hash = hashAfter (message s) k ∧ CompressingChunk s k u := by
  obtain ⟨⟨_, hfill⟩, _⟩ : LegalAt u .wload := h.phaseInv.legalAt hp
  obtain ⟨k, hk⟩ := h.onCourse.computed
  rw [hp] at hk
  obtain ⟨habs, hchunk, _⟩ := hk
  have hbuf := habs.buf
  rw [hfill] at hbuf
  exact ⟨k, hbuf.eq, habs.hash, hchunk⟩

end

/-- Settles O54: the run from START is a computation apart from counters that WLOAD does not read, and a computation has the
next chunk in its buffer there. -/
theorem chunksAreThoseOfPad : Obligations.ChunksAreThoseOfPad := by
  intro s t u d n hagenda hb hv hexec ht hrun hp _
  obtain rfl := eq_started_of_busy hb hexec ht
  obtain ⟨u', htwins, hu'⟩ := computing_of_runSteps hv hagenda hrun
  have hlive := htwins.live
  rw [hp] at hlive
  obtain ⟨hregs, hbuf', _⟩ := hlive
  obtain ⟨k, hbuf, hhash, hchunk⟩ := hu'.chunk_at_wload (htwins.same.phase_eq.trans hp)
  have hlength : (pad (message s)).length = (s.len.toNat + 8) / 64 + 1 := by rw [pad_length, message_length]
  refine ⟨k, hlength ▸ hchunk.index_lt, hbuf'.symm.trans hbuf, hregs.hash.symm.trans hhash, ?_⟩
  rw [← hregs.final, hchunk.final_iff, hlength, Nat.add_right_cancel_iff]

end Sys2Proof.Machine
end

section
/-! SUPPORT. The meanings of IDLE, INIT, FETCH, PAD80, PADZ, PADLEN and NEXT, register by register (R120 to R126). -/

namespace Sys2Proof.Machine

/-! ### IDLE and INIT -/

/-- Settles O19: an idle block steps to the state it is in. -/
theorem idleStaysIdle : Obligations.IdleStaysIdle :=
  fun s => ⟨exec_idle s, fun hp hagenda => runSteps_of_step_eq_self (by
    rw [step_of_agenda_nil hagenda, hp]
    exact exec_idle s)⟩

/-- Settles O20. -/
theorem initLoadsTheVector : Obligations.InitLoadsTheVector :=
  fun s => ⟨ivTable, exec_init s, rfl⟩

/-! ### Bytes appended to the buffer -/

/-- The buffer with a byte written at `fill`, byte by byte (R122, R123). -/
theorem appended_getElem (buf : Vector Byte 64) (n : Nat) (v : Byte) (j : Fin 64) :
    (buf.setIfInBounds n v)[j] = if j.val = n then v else buf[j] := by
  rw [Fin.getElem_fin, Vector.getElem_setIfInBounds j.isLt]
  exact if_congr eq_comm rfl rfl

section
variable {s : State}

theorem fill_ne_full (h : s.fill.toNat < 64) : s.fill ≠ 64 := by bv_omega

/-- FETCH hands over to PAD80 what is left of the message after whole chunks (R122, R123). -/
theorem CommandInv.fill_at_handover (h : CommandInv s) (hb : s.busy = true) (hp : s.phase = .fetch)
    (hfill : s.fill.toNat < 64) (hrem : s.rem = 0) : s.fill.toNat = s.len.toNat % 64 := by
  obtain ⟨hle, hmod⟩ := h.at_fetch hb hp
  have hzero : s.rem.toNat = 0 := by rw [hrem, counter_zero]
  omega

end

/-- Settles O21: one equation of FETCH for each of its four cases. -/
theorem fetchReadsOneByteOrDispatches : Obligations.FetchReadsOneByteOrDispatches := by
  refine ⟨fun s hfull => exec_fetch_full (BitVec.eq_of_toNat_eq hfull),
    fun s hfill hrem => exec_fetch_exhausted (fill_ne_full hfill) hrem, fun s v hfill hrem hread => ?read,
    fun s hfill hrem hread => exec_fetch_stuck (fill_ne_full hfill) hrem hread,
    fun s h hb hp hfill hrem => h.fill_at_handover hb hp hfill hrem⟩
  case read =>
    obtain ⟨hpred, _⟩ := pred_toNat hrem
    exact ⟨_, _, _, _, exec_fetch_read (fill_ne_full hfill) hrem hread, appended_getElem s.buf _ v,
      fun haw => truncAddr_succ_toNat haw s.ptr, hpred, counter_succ hfill.le⟩

/-- Settles O22. -/
theorem pad80AppendsTheMarker : Obligations.Pad80AppendsTheMarker :=
  fun s hfill => ⟨_, _, exec_pad80 s, appended_getElem s.buf _ 0x80, counter_succ hfill⟩

/-! ### Zeros and the length field -/

/-- Settles O23: PADZ writes a run of zeros that ends at 56 or at 64. -/
theorem padzFillsTo56OrTo64 : Obligations.PadzFillsTo56OrTo64 := by
  refine ⟨fun s hshort => ⟨_, exec_padz_short hshort, fun j => ?_⟩,
    fun s hlong => ⟨_, exec_padz_long (Nat.not_le.mpr hlong), fun j => ?_⟩⟩
  · rw [Fin.getElem_fin, zeroRun_getElem _ _ _ _ j.isLt]
    exact if_congr (and_congr_right fun _ => Nat.lt_succ_iff) rfl rfl
  · rw [Fin.getElem_fin, zeroRun_getElem _ _ _ _ j.isLt]
    exact if_congr (and_iff_left j.isLt) rfl rfl

/-- A byte of the length field as a number, the first most significant (R54). -/
theorem byteOfDword_toNat (x : Dword) {k : Nat} (hk : k < 8) :
    (byteOfDword x k).toNat = x.toNat / 256 ^ (7 - k) % 256 := by
  have hshift : 56 - 8 * k = 8 * (7 - k) := by omega
  rw [byteOfDword, BitVec.extractLsb'_toNat, Nat.shiftRight_eq_div_pow, hshift, Nat.pow_mul]

/-- Settles O24: the last eight bytes are those of `total << 3`. -/
theorem padlenWritesTheBitLength : Obligations.PadlenWritesTheBitLength := by
  refine fun s => ⟨_, exec_padlen s, fun j hlo => ?_, fun j hhi => ?_⟩ <;>
    rw [Fin.getElem_fin, lengthField_getElem _ _ _ j.isLt]
  · exact if_neg (Nat.not_le.mpr hlo)
  · have hindex : 7 - (j.val - 56) = 63 - j.val := by omega
    rw [if_pos hhi, byteOfDword_toNat _ (by omega), bitLength_eq, BitVec.toNat_ofNat, hindex, Nat.mul_comm]

/-! ### NEXT -/

/-- Settles O25: one equation of NEXT for each of its three cases. -/
theorem nextChoosesWhatFollows : Obligations.NextChoosesWhatFollows := by
  refine ⟨fun s hfinal => exec_next_final hfinal,
    fun s hfinal hpadded => ⟨_, exec_next_padded hfinal hpadded, fun j => ?cleared⟩,
    fun s hfinal hpadded => exec_next_more hfinal hpadded, fun s h hp => h.legalAt hp⟩
  case cleared =>
    rw [Fin.getElem_fin, zeroRun_getElem _ _ _ _ j.isLt]
    exact if_pos ⟨Nat.zero_le _, j.isLt⟩

end Sys2Proof.Machine
end

section
/-! SUPPORT. The control graph: the successor of each phase, with the loops' counters (R120). -/

namespace Sys2Proof.Machine

/-- What the table of R120 says of the state `t` after the turn of a phase in `s` (logs 3 and 4 where the state stays). -/
def Succeeds (s t : State) : Phase → Prop
  | .idle => t = s
  | .init => t.phase = .fetch
  | .fetch => (s.fill.toNat = 64 ∧ t.phase = .wload ∧ t.t = 0) ∨
      (s.fill.toNat < 64 ∧ s.rem = 0 ∧ t.phase = .pad80) ∨
      (s.fill.toNat < 64 ∧ s.rem ≠ 0 ∧ (s.readByte s.ptr.toNat).isSome = true ∧ t.phase = .fetch ∧
        t.fill.toNat = s.fill.toNat + 1) ∨
      (s.fill.toNat < 64 ∧ s.rem ≠ 0 ∧ s.readByte s.ptr.toNat = none ∧ t = s)
  | .pad80 => t.phase = .padz
  | .padz => (s.fill.toNat ≤ 56 ∧ t.phase = .padlen) ∨ (56 < s.fill.toNat ∧ t.phase = .wload ∧ t.t = 0)
  | .padlen => t.phase = .wload ∧ t.t = 0
  | .wload => (s.t.toNat < 15 ∧ t.phase = .wload ∧ t.t.toNat = s.t.toNat + 1) ∨
      (s.t.toNat = 15 ∧ t.phase = .wexp ∧ t.t.toNat = 16)
  | .wexp => (s.t.toNat < 63 ∧ t.phase = .wexp ∧ t.t.toNat = s.t.toNat + 1) ∨
      (s.t.toNat = 63 ∧ t.phase = .seed ∧ t.t.toNat = 64)
  | .seed => t.phase = .round ∧ t.t = 0
  | .round => (s.t.toNat < 63 ∧ t.phase = .round ∧ t.t.toNat = s.t.toNat + 1) ∨
      (s.t.toNat = 63 ∧ t.phase = .addbk ∧ t.t.toNat = 64)
  | .addbk => t.phase = .next
  | .next => (s.final = true ∧ t.phase = .ser ∧ t.sidx = 0) ∨
      (s.final = false ∧ s.padded = true ∧ t.phase = .padlen) ∨
      (s.final = false ∧ s.padded = false ∧ t.phase = .fetch)
  | .ser => (s.sidx.toNat < 31 ∧ writable s.platform s.serAddress = true ∧ t.phase = .ser ∧
        t.sidx.toNat = s.sidx.toNat + 1) ∨
      (s.sidx.toNat = 31 ∧ writable s.platform s.serAddress = true ∧ t.phase = .finish ∧ t.sidx.toNat = 32) ∨
      (writable s.platform s.serAddress = false ∧ t = s)
  | .finish => t.phase = .idle

/-- A loop's phase and counter: back with the counter advanced, or out at the last value (R120). -/
theorem loop_advances {n last : Nat} {x : BitVec n} (p q : Phase) (h : x.toNat ≤ last) (hlast : last + 1 < 2 ^ n) :
    (x.toNat < last ∧ (if x = BitVec.ofNat n last then q else p) = p ∧ (x + 1).toNat = x.toNat + 1) ∨
      (x.toNat = last ∧ (if x = BitVec.ofNat n last then q else p) = q ∧ (x + 1).toNat = last + 1) := by
  have hiff : x = BitVec.ofNat n last ↔ x.toNat = last := by
    rw [← BitVec.toNat_inj, BitVec.toNat_ofNat, Nat.mod_eq_of_lt (by omega)]
  have hone : (1 : BitVec n).toNat = 1 := Nat.mod_eq_of_lt (by omega : 1 < 2 ^ n)
  have hsucc : (x + 1).toNat = x.toNat + 1 := by rw [BitVec.toNat_add, hone, Nat.mod_eq_of_lt (by omega)]
  rcases Nat.lt_or_eq_of_le h with hlt | heq
  · exact .inl ⟨hlt, if_neg (mt hiff.mp hlt.ne), hsucc⟩
  · exact .inr ⟨heq, if_pos (hiff.mpr heq), heq ▸ hsucc⟩

section
variable {s : State}

theorem fetch_succeeds (hfill : s.fill.toNat ≤ 64) (hp : s.phase = .fetch) :
    ∃ t, exec .fetch s = .next t ∧ Succeeds s t .fetch := by
  have hlt : s.fill ≠ 64 → s.fill.toNat < 64 := by bv_omega
  rcases exec_fetch_cases s with ⟨hfull, he⟩ | ⟨hfull, hrem, he⟩ | ⟨hfull, hrem, v, hread, he⟩ |
    ⟨hfull, hrem, hread, he⟩
  · exact ⟨_, he, .inl ⟨congrArg BitVec.toNat hfull, rfl, rfl⟩⟩
  · exact ⟨_, he, .inr (.inl ⟨hlt hfull, hrem, rfl⟩)⟩
  · exact ⟨_, he, .inr (.inr (.inl ⟨hlt hfull, hrem, Option.isSome_of_eq_some hread, hp, counter_succ hfill⟩))⟩
  · exact ⟨_, he, .inr (.inr (.inr ⟨hlt hfull, hrem, hread, rfl⟩))⟩

theorem padz_succeeds (s : State) : ∃ t, exec .padz s = .next t ∧ Succeeds s t .padz := by
  rcases exec_padz_cases s with ⟨hshort, he⟩ | ⟨hlong, he⟩
  · exact ⟨_, he, .inl ⟨hshort, rfl⟩⟩
  · exact ⟨_, he, .inr ⟨hlong, rfl, rfl⟩⟩

theorem next_succeeds (s : State) : ∃ t, exec .next s = .next t ∧ Succeeds s t .next := by
  rcases exec_next_cases s with ⟨hfinal, he⟩ | ⟨hfinal, hpadded, he⟩ | ⟨hfinal, hpadded, he⟩
  · exact ⟨_, he, .inl ⟨hfinal, rfl, rfl⟩⟩
  · exact ⟨_, he, .inr (.inl ⟨hfinal, hpadded, rfl⟩)⟩
  · exact ⟨_, he, .inr (.inr ⟨hfinal, hpadded, rfl⟩)⟩

theorem ser_succeeds (hidx : s.sidx.toNat ≤ 31) : ∃ t, exec .ser s = .next t ∧ Succeeds s t .ser := by
  rcases exec_ser_cases s with ⟨hwrite, he⟩ | ⟨hwrite, he⟩
  · refine ⟨_, he, ?_⟩
    rcases loop_advances .ser .finish hidx (by decide) with ⟨hlt, hloop⟩ | ⟨hlast, hout⟩
    · exact .inl ⟨hlt, hwrite, hloop⟩
    · exact .inr (.inl ⟨hlast, hwrite, hout⟩)
  · exact ⟨_, he, .inr (.inr ⟨hwrite, rfl⟩)⟩

/-- The turn of every phase leads to its successor in the table (R120). -/
theorem turn_succeeds (h : PhaseInv s) : ∃ t, exec s.phase.instr s = .next t ∧ Succeeds s t s.phase := by
  have hl := h.legalAt rfl
  cases hp : s.phase <;> rw [hp] at hl
  case idle => exact ⟨s, exec_idle s, rfl⟩
  case init => exact ⟨_, exec_init s, rfl⟩
  case fetch => exact fetch_succeeds h.fill_le hp
  case pad80 => exact ⟨_, exec_pad80 s, rfl⟩
  case padz => exact padz_succeeds s
  case padlen => exact ⟨_, exec_padlen s, rfl, rfl⟩
  case wload =>
    obtain ⟨⟨ht, _⟩, _⟩ := hl
    exact ⟨_, exec_wload s, loop_advances .wload .wexp ht (by decide)⟩
  case wexp =>
    obtain ⟨⟨_, ht⟩, _⟩ := hl
    exact ⟨_, exec_wexp s, loop_advances .wexp .seed ht (by decide)⟩
  case seed => exact ⟨_, exec_seed s, rfl, rfl⟩
  case round =>
    obtain ⟨ht, _⟩ := hl
    exact ⟨_, exec_round s, loop_advances .round .addbk ht (by decide)⟩
  case addbk => exact ⟨_, exec_addbk s, rfl⟩
  case next => exact next_succeeds s
  case ser =>
    obtain ⟨⟨hidx, _⟩, _⟩ := hl
    exact ser_succeeds hidx
  case finish => exact ⟨_, exec_finish s, rfl⟩

/-! ### Host accesses -/

/-- With bit 0 set and the block idle, a write to `CTRL` is a START (R75, R100). -/
theorem exec_wrCtrl_of_odd {d : Word} (hb : s.busy = false) (hd : d.toNat % 2 = 1) : exec (.wrCtrl d) s = start s := by
  have hbit : startBit d = true := by rw [startBit_eq, decide_eq_true hd]
  simp only [exec_wrCtrl, hb, Bool.false_eq_true, if_false, hbit, if_true]

theorem PhaseInv.idle_of_not_busy (h : PhaseInv s) (hb : s.busy = false) : s.phase = .idle :=
  Classical.not_not.mp fun hidle => by simp [h.busy_iff.mpr hidle] at hb

/-- Of the host accesses only an accepted START moves `phase` (R90, R99, R100). -/
theorem exec_host_phase {t : State} {i : Instr} (hi : i.format = .host) (h : exec i s = .next t) :
    t.phase = s.phase ∨ (s.busy = false ∧ t.phase = .init ∧ ∃ d, i = .wrCtrl d ∧ d.toNat % 2 = 1) := by
  rcases exec_host_cases hi s with ⟨_, _, he⟩ | he | ⟨_, _, he⟩ | ⟨_, _, he⟩ | ⟨_, _, he⟩ | ⟨d, hwrite, hb, hbit, _, he⟩ |
    ⟨_, _, _, _, _, _, he⟩ <;> rw [he] at h
  case inr.inr.inr.inr.inr.inr => cases h
  all_goals obtain rfl := Host.Outcome.next.inj h
  case inr.inr.inr.inr.inr.inl =>
    rw [startBit_eq, decide_eq_true_eq] at hbit
    exact .inr ⟨hb, rfl, d, hwrite, hbit⟩
  all_goals exact .inl rfl

end

/-- Settles O34: the table phase by phase, and START as the one host access that moves `phase`. -/
theorem controlGraphIsTheTable : Obligations.ControlGraphIsTheTable := by
  refine ⟨fun s h => ?turns, fun s t i h hi hexec => ?host, fun s t d h hp hd hexec => ?start⟩
  case turns =>
    obtain ⟨t, he, hsucc⟩ := turn_succeeds h
    refine ⟨t, he, ?_⟩
    cases hp : s.phase <;> rw [hp] at hsucc <;> simpa [Succeeds] using hsucc
  case host =>
    exact (exec_host_phase hi hexec).imp_right fun ⟨hb, hmoved⟩ => ⟨h.idle_of_not_busy hb, hmoved⟩
  case start =>
    have hb : s.busy = false := Bool.eq_false_of_not_eq_true fun hb => h.busy_iff.mp hb hp
    rw [exec_wrCtrl_of_odd hb hd] at hexec
    rcases start_cases s with ⟨_, _, he⟩ | ⟨_, he⟩
    · exact absurd (he.symm.trans hexec) (by simp)
    · obtain rfl := Host.Outcome.next.inj (he.symm.trans hexec)
      rfl

end Sys2Proof.Machine
end

section
/-! SUPPORT. The chunks of `pad(M)` as one list of bytes (R127, R128). -/

namespace Sys2Proof.Machine

@[simp] theorem zeros_length (n : Nat) : (zeros n).length = n := List.length_replicate

theorem zeros_append_zeros (n k : Nat) : zeros n ++ zeros k = zeros (n + k) := by
  rw [zeros, zeros, List.replicate_append_replicate, zeros]

@[simp] theorem be64_length (x : Dword) : (be64 x).length = 8 := by rw [be64, List.length_map, List.length_range]

theorem fullChunks_succ (m : List Byte) (q : Nat) :
    fullChunks m (q + 1) = fullChunks m q ++ [(m.drop (64 * q)).take 64] := by
  rw [fullChunks, List.range_succ, List.map_append, fullChunks, List.map_singleton]

/-- The full chunks together are the bytes of the message they cover. -/
theorem fullChunks_flatten (m : List Byte) (q : Nat) : (fullChunks m q).flatten = m.take (64 * q) := by
  induction q with
  | zero => rfl
  | succ q ih => rw [fullChunks_succ, List.flatten_append, ih, List.flatten_singleton, Nat.mul_succ, List.take_add]

theorem length_of_mem_fullChunks {m c : List Byte} {q : Nat} (hq : 64 * q ≤ m.length) (hc : c ∈ fullChunks m q) :
    c.length = 64 := by
  simp only [fullChunks, List.mem_map, List.mem_range] at hc
  obtain ⟨k, hk, rfl⟩ := hc
  rw [List.length_take, List.length_drop]
  omega

section
variable {tail : List Byte} {len : Nat}

theorem length_of_mem_lastChunks {c : List Byte} (htail : tail.length < 64) (hc : c ∈ lastChunks tail len) :
    c.length = 64 := by
  rw [lastChunks] at hc
  split_ifs at hc with hshort <;> simp only [List.mem_cons, List.not_mem_nil, or_false] at hc
  · subst hc
    simp only [List.length_append, List.length_singleton, zeros_length, be64_length]
    omega
  · rcases hc with rfl | rfl <;>
      simp only [List.length_append, List.length_singleton, zeros_length, be64_length]
    omega

/-- The last chunks together are the trailing bytes, the marker, zeros and the bit length (R127). -/
theorem lastChunks_flatten (tail : List Byte) (len : Nat) :
    ∃ z, (lastChunks tail len).flatten = tail ++ [0x80] ++ zeros z ++ be64 (BitVec.ofNat 64 (8 * len)) := by
  rw [lastChunks]
  split_ifs
  · exact ⟨55 - tail.length, List.flatten_singleton⟩
  · refine ⟨63 - tail.length + 56, ?_⟩
    rw [List.flatten_cons, List.flatten_singleton, ← zeros_append_zeros]
    simp only [List.append_assoc]

end

/-- Settles O50: whole chunks of the message, then its trailing bytes padded to one chunk or two. -/
theorem padMakesWholeChunks : Obligations.PadMakesWholeChunks := by
  refine fun m _ => ⟨pad_length m, fun c hc => ?size, ?flat⟩
  case size =>
    rcases List.mem_append.mp hc with hfull | hlast
    · exact length_of_mem_fullChunks (Nat.mul_div_le _ _) hfull
    · exact length_of_mem_lastChunks (by rw [List.length_drop]; omega) hlast
  case flat =>
    obtain ⟨z, hz⟩ := lastChunks_flatten (m.drop (64 * (m.length / 64))) m.length
    refine ⟨z, ?_⟩
    rw [pad, List.flatten_append, fullChunks_flatten, hz]
    simp only [← List.append_assoc, List.take_append_drop]

end Sys2Proof.Machine
end

section
/-! SUPPORT. The 16 WLOAD and 48 WEXP steps of a chunk as one loop over the words of its reference schedule (R152 to
R154). -/

namespace Sys2Proof.Machine

/-- The register file that holds a chunk's schedule lists the reference's words in order. -/
theorem scheduleFile_toList (c : Chunk) : (scheduleFile c).toList = schedule c := by
  apply List.ext_getElem
  · rw [Vector.length_toList, schedule_length]
  · intro i hfile hwords
    rw [Vector.getElem_toList, scheduleFile_getElem, List.getD_eq_getElem _ _ hwords]

/-- The phase in which the word `n` of a schedule is formed, and SEED when all 64 are there (R120). -/
def schedulePhase (n : Nat) : Phase :=
  if n < 16 then .wload else if n < 64 then .wexp else .seed

theorem schedulePhase_of_first {n : Nat} (h : n < 16) : schedulePhase n = .wload := if_pos h

theorem schedulePhase_of_later {n : Nat} (hlo : 16 ≤ n) (hhi : n < 64) : schedulePhase n = .wexp := by
  rw [schedulePhase, if_neg (Nat.not_lt.mpr hlo), if_pos hhi]

theorem schedulePhase_full : schedulePhase 64 = .seed := rfl

/-- WLOAD leads to the phase of the next word (R152). -/
theorem wload_phase_eq {x : BitVec 7} (h : x.toNat < 16) :
    (if x = 15 then Phase.wexp else .wload) = schedulePhase (x.toNat + 1) := by
  rcases loop_advances .wload .wexp (Nat.le_of_lt_succ h) (by decide) with ⟨hlt, hphase, _⟩ | ⟨hlast, hphase, _⟩
  · exact hphase.trans (schedulePhase_of_first (Nat.succ_lt_succ hlt)).symm
  · rw [hlast]
    exact hphase

/-- WEXP leads to the phase of the next word (R153). -/
theorem wexp_phase_eq {x : BitVec 7} (hlo : 16 ≤ x.toNat) (hhi : x.toNat < 64) :
    (if x = 63 then Phase.seed else .wexp) = schedulePhase (x.toNat + 1) := by
  rcases loop_advances .wexp .seed (Nat.le_of_lt_succ hhi) (by decide) with ⟨hlt, hphase, _⟩ |
    ⟨hlast, hphase, _⟩
  · exact hphase.trans (schedulePhase_of_later (Nat.le_succ_of_le hlo) (Nat.succ_lt_succ hlt)).symm
  · rw [hlast]
    exact hphase

/-- The words below `t` are those of the reference schedule of `BUF`, and the phase is that of the word `t`. -/
structure ScheduledSoFar (s : State) : Prop where
  agenda : s.agenda = []
  phase : s.phase = schedulePhase s.t.toNat
  words : AgreeBelow s.t.toNat (scheduleFile s.buf) s.w

/-- The state with the next word of the schedule of `BUF` in its place. -/
def State.withNextWord (s : State) : State :=
  { s with
    w := s.w.setIfInBounds s.t.toNat ((schedule s.buf).getD s.t.toNat 0)
    t := s.t + 1
    phase := schedulePhase (s.t.toNat + 1) }

section
variable {s : State}

/-- At the entry to WLOAD no word is formed yet (R120). -/
theorem scheduledSoFar_of_entry (hagenda : s.agenda = []) (hp : s.phase = .wload) (ht : s.t = 0) :
    ScheduledSoFar s where
  agenda := hagenda
  phase := by rw [hp, ht]; rfl
  words := by rw [ht]; exact agreeBelow_zero

/-- A WLOAD step forms the next of the first sixteen words (R152). -/
theorem ScheduledSoFar.step_wload (h : ScheduledSoFar s) (ht : s.t.toNat < 16) : step s = .next s.withNextWord := by
  rw [step_of_agenda_nil h.agenda, h.phase, schedulePhase_of_first ht, Phase.instr, exec_wload,
    loadedWord_eq_schedule rfl ht, wload_phase_eq ht, State.withNextWord]

/-- A WEXP step forms the next of the later words (R153). -/
theorem ScheduledSoFar.step_wexp (h : ScheduledSoFar s) (hlo : 16 ≤ s.t.toNat) (hhi : s.t.toNat < 64) :
    step s = .next s.withNextWord := by
  rw [step_of_agenda_nil h.agenda, h.phase, schedulePhase_of_later hlo hhi, Phase.instr, exec_wexp,
    expandedWord_eq_schedule h.words hlo (Nat.le_of_lt_succ hhi), wexp_phase_eq hlo hhi, State.withNextWord]

/-- Every step of the two loops forms the next word. -/
theorem ScheduledSoFar.step_eq (h : ScheduledSoFar s) (ht : s.t.toNat < 64) : step s = .next s.withNextWord := by
  rcases Nat.lt_or_ge s.t.toNat 16 with hfirst | hlater
  · exact h.step_wload hfirst
  · exact h.step_wexp hlater ht

theorem withNextWord_t_toNat (ht : s.t.toNat < 64) : s.withNextWord.t.toNat = s.t.toNat + 1 := counter_succ ht.le

/-- The loops' invariant is kept. -/
theorem ScheduledSoFar.withNextWord (h : ScheduledSoFar s) (ht : s.t.toNat < 64) : ScheduledSoFar s.withNextWord := by
  have hsucc := withNextWord_t_toNat ht
  refine ⟨h.agenda, congrArg schedulePhase hsucc.symm, ?_⟩
  rw [hsucc]
  exact h.words.push ht (scheduleFile_getElem _ ht)

/-- The steps that are left lead to SEED with the whole schedule in `W`. -/
theorem ScheduledSoFar.runs {n : Nat} (h : ScheduledSoFar s) (hn : s.t.toNat + n = 64) :
    runSteps n s = .next { s with w := scheduleFile s.buf, t := 64, phase := .seed } := by
  induction n generalizing s with
  | zero =>
    have hn : s.t.toNat = 64 := hn
    have ht : s.t = 64 := BitVec.eq_of_toNat_eq hn
    have hp : s.phase = .seed := by rw [h.phase, hn, schedulePhase_full]
    have hw : s.w = scheduleFile s.buf := (h.words.mono hn.ge).eq
    rw [← hw, ← ht, ← hp, runSteps]
  | succ n ih =>
    have hlt : s.t.toNat < 64 := by omega
    have hsucc := withNextWord_t_toNat hlt
    rw [runSteps_succ_of_step (h.step_eq hlt), ih (h.withNextWord hlt) (by omega)]
    rfl

end

/-- Settles O51, by the loop that forms one word of the reference schedule in each step. -/
theorem scheduleStepsComputeSchedule : Obligations.ScheduleStepsComputeSchedule := by
  intro s hagenda hp ht
  have h : ScheduledSoFar s := scheduledSoFar_of_entry hagenda hp ht
  exact ⟨scheduleFile s.buf, h.runs (by rw [ht, counter_zero]), scheduleFile_toList s.buf⟩

/-- Settles O49: the first words from their bytes, the later ones by the recurrence. -/
theorem scheduleMeetsItsRecurrence : Obligations.ScheduleMeetsItsRecurrence := by
  refine fun c => ⟨schedule_length c, fun i hi => schedule_getD_first c hi, fun i hlo hhi => ?later⟩
  case later =>
    obtain ⟨n, rfl⟩ := Nat.exists_eq_add_of_le hlo
    have h16 : 16 + n - 16 = n := by omega
    have h15 : 16 + n - 15 = n + 1 := by omega
    have h7 : 16 + n - 7 = n + 9 := by omega
    have h2 : 16 + n - 2 = n + 14 := by omega
    rw [h16, h15, h7, h2, schedule_getD_later c (by omega), scheduleWord]

end Sys2Proof.Machine
end

section
/-! SUPPORT. The two functions of the message schedule bit by bit (R150, R151). -/

namespace Sys2Proof.Machine

theorem xor3_getLsbD (p q r : Word) (i : Nat) :
    (xor3 p q r).getLsbD i = ((p.getLsbD i ^^ q.getLsbD i) ^^ r.getLsbD i) := by
  rw [xor3, BitVec.getLsbD_xor, BitVec.getLsbD_xor, Bool.xor_assoc]

/-- A shift moves bit `i + n` to bit `i` and brings zeros in at the top (R11). -/
theorem shr_getLsbD (x : Word) (n i : Nat) : (shr x n).getLsbD i = (decide (i < 32 - n) && x.getLsbD (i + n)) := by
  rw [shr, BitVec.getLsbD_ushiftRight, Nat.add_comm]
  by_cases htop : i < 32 - n
  · rw [decide_eq_true htop, Bool.true_and]
  · rw [decide_eq_false htop, Bool.false_and, BitVec.getLsbD_of_ge _ _ (by omega)]

section
variable (x : Word) {i : Nat}

theorem ssig0_getLsbD (hi : i < 32) : (ssig0 x).getLsbD i =
    ((x.getLsbD ((i + 7) % 32) ^^ x.getLsbD ((i + 18) % 32)) ^^ (decide (i < 29) && x.getLsbD (i + 3))) := by
  rw [ssig0, xor3_getLsbD, rotr_getLsbD x (by decide) hi, rotr_getLsbD x (by decide) hi, shr_getLsbD]

theorem ssig1_getLsbD (hi : i < 32) : (ssig1 x).getLsbD i =
    ((x.getLsbD ((i + 17) % 32) ^^ x.getLsbD ((i + 19) % 32)) ^^ (decide (i < 22) && x.getLsbD (i + 10))) := by
  rw [ssig1, xor3_getLsbD, rotr_getLsbD x (by decide) hi, rotr_getLsbD x (by decide) hi, shr_getLsbD]

end

/-- Settles O7: two rotations and a shift, bit by bit; the printed values by evaluation. -/
theorem scheduleSigmasBitByBit : Obligations.ScheduleSigmasBitByBit :=
  ⟨fun x _ hi => ⟨ssig0_getLsbD x hi, ssig1_getLsbD x hi⟩, by decide⟩

end Sys2Proof.Machine
end

section
/-! SUPPORT. WLOAD and WEXP register by register, and the words that WEXP and ROUND read (R152, R153, R155, R176). -/

namespace Sys2Proof.Machine

/-- A schedule word as a number (R153). -/
theorem scheduleWord_toNat (w16 w15 w7 w2 : Word) : (scheduleWord w16 w15 w7 w2).toNat =
    (w16.toNat + (ssig0 w15).toNat + w7.toNat + (ssig1 w2).toNat) % 2 ^ 32 := by
  simp only [scheduleWord, add32, BitVec.toNat_add, Nat.mod_add_mod]

section
variable {s : State}

/-- The word WLOAD forms, as a number, the first byte most significant (R53, R152). -/
theorem loadedWord_toNat (ht : s.t.toNat ≤ 15) : s.loadedWord.toNat =
    s.buf[4 * s.t.toNat].toNat * 2 ^ 24 + s.buf[4 * s.t.toNat + 1].toNat * 2 ^ 16 +
      s.buf[4 * s.t.toNat + 2].toNat * 2 ^ 8 + s.buf[4 * s.t.toNat + 3].toNat := by
  rw [State.loadedWord, wordOfBytes_toNat, bufAt_eq s, bufAt_eq s, bufAt_eq s, bufAt_eq s]

/-- Past the first sixteen words none of the four indices wraps (R153). -/
theorem expandedWord_eq_scheduleWord (hlo : 16 ≤ s.t.toNat) (hhi : s.t.toNat ≤ 63) : s.expandedWord =
    scheduleWord s.w[s.t.toNat - 16] s.w[s.t.toNat - 15] s.w[s.t.toNat - 7] s.w[s.t.toNat - 2] := by
  have hword : ∀ d (hd : d ≤ 16), s.wAt (s.tMinus d) = s.w[s.t.toNat - d] := fun d hd => by
    rw [tMinus_eq s (hd.trans hlo), wAt_eq s]
  rw [State.expandedWord, hword 16 (by decide), hword 15 (by decide), hword 7 (by decide), hword 2 (by decide)]

/-- Of another register file WEXP reads the sixteen newest words only (R155). -/
theorem expandedWord_withW {v : Vector Word 64} (hlo : 16 ≤ s.t.toNat) (hhi : s.t.toNat ≤ 63)
    (hv : ∀ j : Fin 64, s.t.toNat - 16 ≤ j.val → j.val < s.t.toNat → v[j] = s.w[j]) :
    { s with w := v }.expandedWord = s.expandedWord := by
  have hword : ∀ d, 0 < d → ∀ hd : d ≤ 16, v[s.t.toNat - d] = s.w[s.t.toNat - d] := fun d hpos hd =>
    hv ⟨s.t.toNat - d, by omega⟩ (Nat.sub_le_sub_left hd _) (Nat.sub_lt (by omega) hpos)
  rw [expandedWord_eq_scheduleWord hlo hhi, expandedWord_eq_scheduleWord (s := { s with w := v }) hlo hhi]
  simp only [hword 16 (by decide) (by decide), hword 15 (by decide) (by decide), hword 7 (by decide) (by decide),
    hword 2 (by decide) (by decide)]

end

/-- Settles O26: the word WLOAD forms is written at `t` and nowhere else. -/
theorem wloadPacksFourBytes : Obligations.WloadPacksFourBytes := by
  rintro s _ hn rfl
  refine ⟨s.w.setIfInBounds s.t.toNat s.loadedWord, s.t + 1, ?exec, fun j hj => ?frame, ?word, counter_succ hn⟩
  case exec => simp only [exec_wload, ← BitVec.toNat_inj, BitVec.reduceToNat]
  case frame => exact Vector.getElem_setIfInBounds_ne j.isLt hj.symm
  case word => rw [Vector.getElem_setIfInBounds_self, loadedWord_toNat hn]

/-- Settles O27: the word WEXP computes is written at `t` and nowhere else. -/
theorem wexpAddsFourEarlierWords : Obligations.WexpAddsFourEarlierWords := by
  rintro s _ hlo hhi rfl
  refine ⟨s.w.setIfInBounds s.t.toNat s.expandedWord, s.t + 1, ?exec, fun j hj => ?frame, ?word, counter_succ hhi⟩
  case exec => simp only [exec_wexp, ← BitVec.toNat_inj, BitVec.reduceToNat]
  case frame => exact Vector.getElem_setIfInBounds_ne j.isLt hj.symm
  case word => rw [Vector.getElem_setIfInBounds_self, expandedWord_eq_scheduleWord hlo hhi, scheduleWord_toNat]

/-- Settles O28: the words that the two meanings read are the same in both register files. -/
theorem sixteenWordWindowSuffices : Obligations.SixteenWordWindowSuffices := by
  constructor
  case left =>
    rintro s v _ hlo hhi rfl hv
    have hword := expandedWord_withW hlo hhi hv
    refine ⟨_, _, exec_wexp s, exec_wexp _, rfl, ?_⟩
    rw [Vector.getElem_setIfInBounds_self, Vector.getElem_setIfInBounds_self, hword]
  case right =>
    rintro s v _ hn rfl hv
    have hlt : s.t.toNat < 64 := Nat.lt_succ_of_le hn
    have hword : { s with w := v }.wAt s.t.toNat = s.wAt s.t.toNat := by
      rw [wAt_eq _ hlt, wAt_eq _ hlt]
      exact hv
    refine ⟨_, exec_round s, ?_⟩
    simp only [exec_round, hword, State.kAt]

end Sys2Proof.Machine
end

section
/-! SUPPORT. The functions of a round bit by bit, and SEED, ROUND and ADDBK register by register (R171 to R177). -/

namespace Sys2Proof.Machine

/-! ### The two functions made of rotations (R171, R172) -/

section
variable (x : Word) {i : Nat}

theorem bsig0_getLsbD (hi : i < 32) : (bsig0 x).getLsbD i =
    ((x.getLsbD ((i + 2) % 32) ^^ x.getLsbD ((i + 13) % 32)) ^^ x.getLsbD ((i + 22) % 32)) := by
  rw [bsig0, xor3_getLsbD, rotr_getLsbD x (by decide) hi, rotr_getLsbD x (by decide) hi, rotr_getLsbD x (by decide) hi]

theorem bsig1_getLsbD (hi : i < 32) : (bsig1 x).getLsbD i =
    ((x.getLsbD ((i + 6) % 32) ^^ x.getLsbD ((i + 11) % 32)) ^^ x.getLsbD ((i + 25) % 32)) := by
  rw [bsig1, xor3_getLsbD, rotr_getLsbD x (by decide) hi, rotr_getLsbD x (by decide) hi, rotr_getLsbD x (by decide) hi]

end

/-- Settles O8: three rotations, bit by bit; the printed values by evaluation. -/
theorem roundSigmasBitByBit : Obligations.RoundSigmasBitByBit :=
  ⟨fun x _ hi => ⟨bsig0_getLsbD x hi, bsig1_getLsbD x hi⟩, by decide⟩

/-! ### Choice and majority (R173, R174) -/

theorem ones_getLsbD {i : Nat} (hi : i < 32) : (0xffffffff : Word).getLsbD i = true := by
  rw [show (0xffffffff : Word) = BitVec.allOnes 32 from rfl, BitVec.getLsbD_allOnes, decide_eq_true hi]

/-- The exclusive or of the pairwise conjunctions is the majority. -/
theorem majority_eq_true_iff : ∀ p q r : Bool,
    ((p && q ^^ p && r) ^^ q && r) = true ↔ 2 ≤ p.toNat + q.toNat + r.toNat := by decide

section
variable (x y z : Word) {i : Nat}

theorem ch_getLsbD (hi : i < 32) : (ch x y z).getLsbD i = if x.getLsbD i then y.getLsbD i else z.getLsbD i := by
  rw [ch, BitVec.getLsbD_xor, BitVec.getLsbD_and, BitVec.getLsbD_and, BitVec.getLsbD_not, decide_eq_true hi]
  cases x.getLsbD i <;> simp

theorem maj_getLsbD (i : Nat) : (maj x y z).getLsbD i =
    ((x.getLsbD i && y.getLsbD i ^^ x.getLsbD i && z.getLsbD i) ^^ y.getLsbD i && z.getLsbD i) := by
  rw [maj, xor3_getLsbD, BitVec.getLsbD_and, BitVec.getLsbD_and, BitVec.getLsbD_and]

theorem ch_zeros : ch 0 y z = z :=
  BitVec.eq_of_getLsbD_eq fun i hi => by rw [ch_getLsbD 0 y z hi]; simp

theorem ch_ones : ch 0xffffffff y z = y :=
  BitVec.eq_of_getLsbD_eq fun i hi => by rw [ch_getLsbD _ y z hi, ones_getLsbD hi, if_pos rfl]

theorem maj_zeros : maj 0 y z = y &&& z := by simp [maj, xor3]

theorem maj_ones : maj 0xffffffff y z = y ||| z :=
  BitVec.eq_of_getLsbD_eq fun i hi => by
    rw [maj_getLsbD, ones_getLsbD hi, BitVec.getLsbD_or]
    cases y.getLsbD i <;> cases z.getLsbD i <;> rfl

theorem maj_self : maj y y z = y := by simp [maj, xor3]

end

/-- Settles O9: choice and majority on the bits; the printed words by evaluation. -/
theorem choiceAndMajorityBitByBit : Obligations.ChoiceAndMajorityBitByBit := by
  refine ⟨fun x y z i hi => ⟨ch_getLsbD x y z hi, ?majority⟩, fun y z => ⟨ch_zeros y z, ch_ones y z⟩, by decide,
    by decide, fun y z => ⟨maj_zeros y z, maj_ones y z, maj_self y z⟩, by decide⟩
  case majority => rw [maj_getLsbD, majority_eq_true_iff]

/-! ### The sums modulo `2^32` (R9, R176) -/

theorem add32_toNat (x y : Word) : (add32 x y).toNat = (x.toNat + y.toNat) % 2 ^ 32 := BitVec.toNat_add x y

theorem roundT1_toNat (v : Work) (k w : Word) : (roundT1 v k w).toNat =
    (v.h.toNat + (bsig1 v.e).toNat + (ch v.e v.f v.g).toNat + k.toNat + w.toNat) % 2 ^ 32 := by
  simp only [roundT1, add32_toNat, Nat.mod_add_mod]

theorem roundT2_toNat (v : Work) :
    (roundT2 v).toNat = ((bsig0 v.a).toNat + (maj v.a v.b v.c).toNat) % 2 ^ 32 := add32_toNat _ _

/-! ### SEED, ROUND and ADDBK -/

/-- Settles O29: the equation of SEED. -/
theorem seedCopiesTheHashState : Obligations.SeedCopiesTheHashState := exec_seed

/-- Settles O30: within the 64 rounds both indices are inside their tables, and the two sums are `T1` and `T2`. -/
theorem roundMixesTheWorkingVariables : Obligations.RoundMixesTheWorkingVariables := by
  rintro s _ hn rfl
  have hlt : s.t.toNat < 64 := Nat.lt_succ_of_le hn
  have hexec := exec_round s
  rw [kAt_eq s hlt, wAt_eq s hlt] at hexec
  refine ⟨roundWork s.work (kTable.getD s.t.toNat 0) s.w[s.t.toNat], s.t + 1, _, _, ?exec, roundT1_toNat _ _ _,
    roundT2_toNat _, rfl, rfl, rfl, add32_toNat _ _, rfl, rfl, rfl, add32_toNat _ _, counter_succ hn⟩
  case exec => simp only [hexec, ← BitVec.toNat_inj, BitVec.reduceToNat]

/-- Settles O31: every word of the new hash state is a sum. -/
theorem addbkAddsIntoTheHashState : Obligations.AddbkAddsIntoTheHashState := fun s =>
  ⟨addWork s.hash s.work, exec_addbk s, add32_toNat _ _, add32_toNat _ _, add32_toNat _ _, add32_toNat _ _,
    add32_toNat _ _, add32_toNat _ _, add32_toNat _ _, add32_toNat _ _⟩

end Sys2Proof.Machine
end

section
/-! SUPPORT. The 64 ROUND steps of a chunk as a loop over the rounds of the reference, and the whole compression from the
entry to WLOAD to NEXT (R120, R175 to R178). -/

namespace Sys2Proof.Machine

/-! ### Runs one after the other -/

theorem runSteps_add_of_run {m : Nat} {s t : State} (h : runSteps m s = .next t) (n : Nat) :
    runSteps (m + n) s = runSteps n t := by
  induction m generalizing s with
  | zero =>
    obtain rfl : s = t := Host.Outcome.next.inj h
    rw [Nat.zero_add]
  | succ m ih =>
    obtain ⟨u, hstep, hrest⟩ := runSteps_succ_next h
    rw [Nat.add_right_comm, runSteps_succ_of_step hstep, ih hrest]

/-- A run with one more turn of the sequencer (R120). -/
theorem runSteps_turn {n : Nat} {s t u : State} {p : Phase} (hrun : runSteps n s = .next t) (hagenda : t.agenda = [])
    (hp : t.phase = p) (he : exec p.instr t = .next u) : runSteps (n + 1) s = .next u := by
  have hstep : step t = .next u := by rw [step_of_agenda_nil hagenda, hp, he]
  rw [runSteps_add_of_run hrun 1, runSteps_succ_of_step hstep, runSteps]

/-! ### The rounds -/

/-- The working variables of `compress(X, C)` after `n` rounds (R178). -/
def workAfter (x : Vector Word 8) (c : Chunk) (n : Nat) : Work := roundsOf (workOfHash x) (schedule c) n

/-- The phase after `n` rounds (R120). -/
def roundPhase (n : Nat) : Phase := if n < 64 then .round else .addbk

theorem roundPhase_of_lt {n : Nat} (h : n < 64) : roundPhase n = .round := if_pos h

theorem roundPhase_full : roundPhase 64 = .addbk := rfl

/-- ROUND leads to the phase of the next round (R176). -/
theorem round_phase_eq {x : BitVec 7} (h : x.toNat < 64) :
    (if x = 63 then Phase.addbk else .round) = roundPhase (x.toNat + 1) := by
  rcases loop_advances .round .addbk (Nat.le_of_lt_succ h) (by decide) with ⟨hlt, hphase, _⟩ | ⟨hlast, hphase, _⟩
  · exact hphase.trans (roundPhase_of_lt (Nat.succ_lt_succ hlt)).symm
  · rw [hlast]
    exact hphase

/-- With the schedule of `BUF` in `W`, the working variables are those of `t` rounds of `compress(H, BUF)`. -/
structure RoundedSoFar (s : State) : Prop where
  agenda : s.agenda = []
  phase : s.phase = roundPhase s.t.toNat
  words : s.w = scheduleFile s.buf
  work : s.work = workAfter s.hash s.buf s.t.toNat

/-- The state with the working variables of one round more. -/
def State.withNextRound (s : State) : State :=
  { s with work := workAfter s.hash s.buf (s.t.toNat + 1), t := s.t + 1, phase := roundPhase (s.t.toNat + 1) }

section
variable {s : State}

theorem withNextRound_t_toNat (ht : s.t.toNat < 64) : s.withNextRound.t.toNat = s.t.toNat + 1 := counter_succ ht.le

/-- Every step of the loop is a round of the reference (R176, R178). -/
theorem RoundedSoFar.step_eq (h : RoundedSoFar s) (ht : s.t.toNat < 64) : step s = .next s.withNextRound := by
  rw [step_of_agenda_nil h.agenda, h.phase, roundPhase_of_lt ht, Phase.instr, exec_round,
    round_eq_roundsOf h.words h.work (Nat.le_of_lt_succ ht), round_phase_eq ht]
  rfl

/-- The loop's invariant is kept. -/
theorem RoundedSoFar.withNextRound (h : RoundedSoFar s) (ht : s.t.toNat < 64) : RoundedSoFar s.withNextRound := by
  have hsucc := withNextRound_t_toNat ht
  exact ⟨h.agenda, congrArg roundPhase hsucc.symm, h.words, congrArg (workAfter s.hash s.buf) hsucc.symm⟩

/-! ### From the entry to WLOAD to NEXT

What the two loops leave is a variable here: the kernel would evaluate a literal `workAfter … 64` in a field wherever it
compares two states. -/

section
variable {w : Vector Word 64} {v : Work}

/-- The rounds that are left lead to ADDBK with the working variables of all 64. -/
theorem RoundedSoFar.runs {n : Nat} (h : RoundedSoFar s) (hn : s.t.toNat + n = 64)
    (hv : workAfter s.hash s.buf 64 = v) : runSteps n s = .next { s with work := v, t := 64, phase := .addbk } := by
  induction n generalizing s with
  | zero =>
    have hn : s.t.toNat = 64 := hn
    have ht : s.t = 64 := BitVec.eq_of_toNat_eq hn
    have hp : s.phase = .addbk := by rw [h.phase, hn, roundPhase_full]
    have hwork : s.work = v := by rw [h.work, hn, hv]
    rw [← hwork, ← ht, ← hp, runSteps]
  | succ n ih =>
    have hlt : s.t.toNat < 64 := by omega
    have hsucc := withNextRound_t_toNat hlt
    rw [runSteps_succ_of_step (h.step_eq hlt), ih (h.withNextRound hlt) (by omega) hv]
    rfl

/-- The 64 steps of the schedule, SEED, the 64 rounds and ADDBK (R120, R178). -/
theorem runs_to_next (hagenda : s.agenda = []) (hp : s.phase = .wload) (ht : s.t = 0) (hw : scheduleFile s.buf = w)
    (hv : workAfter s.hash s.buf 64 = v) : runSteps 130 s =
      .next { s with w := w, hash := addWork s.hash v, work := v, t := 64, phase := .next } := by
  have hschedule : runSteps 64 s = .next { s with w := w, t := 64, phase := .seed } := by
    rw [← hw, (scheduledSoFar_of_entry hagenda hp ht).runs (by rw [ht, counter_zero])]
  have hseed : runSteps 65 s = .next { s with w := w, work := workOfHash s.hash, t := 0, phase := .round } :=
    runSteps_turn hschedule hagenda rfl (exec_seed _)
  have hstart : RoundedSoFar { s with w := w, work := workOfHash s.hash, t := 0, phase := .round } :=
    ⟨hagenda, rfl, hw.symm, rfl⟩
  have hrounds : runSteps 129 s = .next { s with w := w, work := v, t := 64, phase := .addbk } :=
    (runSteps_add_of_run hseed 64).trans (hstart.runs (congrArg (· + 64) (counter_zero 7)) hv)
  exact runSteps_turn hrounds hagenda rfl (exec_addbk _)

end

/-- NEXT leaves the hash state, `Mem` and what the ports have shown (R126). -/
theorem next_keepsHashAndPort (s : State) :
    ∃ u, exec .next s = .next u ∧ u.hash = s.hash ∧ u.mem = s.mem ∧ u.trace = s.trace := by
  rcases exec_next_cases s with ⟨_, he⟩ | ⟨_, _, he⟩ | ⟨_, _, he⟩ <;> exact ⟨_, he, rfl, rfl, rfl⟩

end

/-- Settles O52: the loop of the schedule, then that of the rounds, between them SEED and after them ADDBK; NEXT leaves
the sums. -/
theorem compressionStepsComputeCompress : Obligations.CompressionStepsComputeCompress := by
  intro s hagenda hp ht
  obtain ⟨v, hv⟩ : ∃ v, workAfter s.hash s.buf 64 = v := ⟨_, rfl⟩
  have hcompress : compress s.hash s.buf = addWork s.hash v := congrArg (addWork s.hash) hv
  have hrun := runs_to_next hagenda hp ht rfl hv
  obtain ⟨u, he, hkept⟩ := next_keepsHashAndPort
    { s with w := scheduleFile s.buf, hash := addWork s.hash v, work := v, t := 64, phase := .next }
  rw [hcompress]
  exact ⟨⟨_, _, hrun⟩, u, runSteps_turn hrun hagenda rfl he, hkept⟩

end Sys2Proof.Machine
end

section
/-! SUPPORT. The constant tables as numbers: the primes below 312 by trial division, and each word as the fraction of an
integer root (R42, R170). -/

namespace Sys2Proof.Machine

/-- Trial division by 2 to 17 finds no proper divisor. -/
abbrev NoSmallDivisor (p : Nat) : Prop := 2 ≤ p ∧ ∀ m < 18, 2 ≤ m → m < p → ¬ m ∣ p

/-- Below `18 ^ 2` trial division up to 17 decides whether a number is prime. -/
theorem noSmallDivisor_iff_prime {p : Nat} (hp : p < 18 ^ 2) : NoSmallDivisor p ↔ Nat.Prime p := by
  constructor
  case mp =>
    rintro ⟨htwo, hdvd⟩
    refine Nat.prime_def_le_sqrt.mpr ⟨htwo, fun m hm hle => ?_⟩
    exact hdvd m (hle.trans_lt (Nat.sqrt_lt'.mpr hp)) hm (hle.trans_lt (Nat.sqrt_lt_self htwo))
  case mpr =>
    intro hprime
    obtain ⟨htwo, hdvd⟩ := Nat.prime_def_lt'.mp hprime
    exact ⟨htwo, fun m _ => hdvd m⟩

theorem filter_noSmallDivisor : (List.range 312).filter (NoSmallDivisor ·) = firstPrimes := by decide

/-- The list holds the primes below 312 (R42, R170). -/
theorem mem_firstPrimes_iff (p : Nat) : p ∈ firstPrimes ↔ p < 312 ∧ Nat.Prime p := by
  rw [← filter_noSmallDivisor, List.mem_filter, List.mem_range, decide_eq_true_iff]
  exact and_congr_right fun hp => noSmallDivisor_iff_prime (hp.trans (by decide))

/-- The list is in ascending order. -/
theorem firstPrimes_pairwise : firstPrimes.Pairwise (· < ·) := by
  rw [← filter_noSmallDivisor]
  exact List.pairwise_lt_range.filter _

/-- The `n`-th root of `p`, times `2 ^ 32` and rounded down, is `q * 2 ^ 32 + x`: the root is `q` and the fraction whose
first 32 bits are `x`. -/
abbrev IsRootFraction (n p q : Nat) (x : Word) : Prop :=
  (q * 2 ^ 32 + x.toNat) ^ n ≤ p * 2 ^ (32 * n) ∧ p * 2 ^ (32 * n) < (q * 2 ^ 32 + x.toNat + 1) ^ n

theorem IsRootFraction.exists_root {n p q : Nat} {x : Word} (h : IsRootFraction n p q x) :
    ∃ r, r ^ n ≤ p * 2 ^ (32 * n) ∧ p * 2 ^ (32 * n) < (r + 1) ^ n ∧ x.toNat = r % 2 ^ 32 := by
  obtain ⟨hle, hlt⟩ := h
  exact ⟨_, hle, hlt, by rw [Nat.mul_add_mod_self_right, Nat.mod_eq_of_lt x.isLt]⟩

/-- The cube roots of the first 64 primes are below 7. -/
theorem kTable_isRootFraction :
    ∀ t < 64, ∃ q < 7, IsRootFraction 3 (firstPrimes.getD t 0) q (kTable.getD t 0) := by decide

/-- The square roots of the first 8 primes are below 5. -/
theorem ivTable_isRootFraction :
    ∀ i : Fin 8, ∃ q < 5, IsRootFraction 2 (firstPrimes.getD i.val 0) q ivTable[i] := by decide

/-- Settles O10: the list by trial division, each table word with the whole part of its root. -/
theorem tablesAreFractionsOfRootsOfPrimes : Obligations.TablesAreFractionsOfRootsOfPrimes := by
  refine ⟨rfl, rfl, firstPrimes_pairwise, fun p hp => ((mem_firstPrimes_iff p).mp hp).2,
    fun p hlt hp => (mem_firstPrimes_iff p).mpr ⟨hlt, hp⟩, fun t ht => ?k, fun i => ?iv⟩
  case k =>
    obtain ⟨_, _, hroot⟩ := kTable_isRootFraction t ht
    exact hroot.exists_root
  case iv =>
    obtain ⟨_, _, hroot⟩ := ivTable_isRootFraction i
    exact hroot.exists_root

end Sys2Proof.Machine
end

section
/-! SUPPORT. SER byte by byte, FINISH, and the 32 SER steps and FINISH as a loop over the bytes of the digest (R200 to
R202). -/

namespace Sys2Proof.Machine

/-! ### FINISH -/

/-- Settles O33: FINISH is one equation, and an idle block stays as it is. -/
theorem finishSetsDone : Obligations.FinishSetsDone :=
  fun s => ⟨exec_finish s, fun hagenda => (idleStaysIdle _).2 rfl hagenda⟩

/-! ### One digest byte -/

/-- A byte of a word as a number, the first most significant (R55). -/
theorem byteOfWord_toNat (x : Word) {k : Nat} (hk : k < 4) :
    (byteOfWord x k).toNat = x.toNat / 256 ^ (3 - k) % 256 := by
  have hshift : 24 - 8 * k = 8 * (3 - k) := by omega
  rw [byteOfWord, BitVec.extractLsb'_toNat, Nat.shiftRight_eq_div_pow, hshift, Nat.pow_mul]

/-- The digest byte of an index in range as a number (R200). -/
theorem serByte_toNat {s : State} {n : Nat} (hn : n < 32) (hidx : s.sidx.toNat = n) :
    s.serByte.toNat = s.hash[n / 4].toNat / 256 ^ (3 - n % 4) % 256 := by
  rw [State.serByte, hidx, hashAt_eq s (by omega), byteOfWord_toNat _ (Nat.mod_lt n (by decide))]

/-- The phase after `n` digest bytes (R120). -/
def serPhase (n : Nat) : Phase := if n = 32 then .finish else .ser

theorem serPhase_of_lt {n : Nat} (h : n < 32) : serPhase n = .ser := if_neg h.ne

/-- SER leads to the phase of the next byte, and `sidx` counts it (R200). -/
theorem ser_advances {x : BitVec 6} {n : Nat} (hn : n < 32) (hx : x.toNat = n) :
    (if x = 31 then Phase.finish else .ser) = serPhase (n + 1) ∧ (x + 1).toNat = n + 1 := by
  subst hx
  rcases loop_advances .ser .finish (Nat.le_of_lt_succ hn) (by decide) with ⟨hlt, hphase, hsucc⟩ |
    ⟨hlast, hphase, hsucc⟩
  · exact ⟨hphase.trans (serPhase_of_lt (Nat.succ_lt_succ hlt)).symm, hsucc⟩
  · rw [hlast]
    exact ⟨hphase, hsucc⟩

/-- The SER step of an index in range, with the address and the phase it leads to as numbers give them (R200). -/
theorem exec_ser_at {s : State} {n a : Nat} (hn : n < 32) (hidx : s.sidx.toNat = n) (ha : s.serAddress = a)
    (hadmitted : writable s.platform a = true) : exec .ser s = .next { s with
      mem := s.mem.store a s.serByte, sidx := s.sidx + 1, phase := serPhase (n + 1),
      trace := .memWrite a s.serByte :: s.trace } := by
  subst ha
  rw [exec_ser_write hadmitted, State.serialized, (ser_advances hn hidx).1, State.writeByte]

/-- Settles O32: an admitted SER stores its byte and counts it, any other changes nothing. -/
theorem serWritesOneDigestByte : Obligations.SerWritesOneDigestByte := by
  refine ⟨fun s n a hle hidx ha hadmitted => ?admitted, fun | s, _, rfl, hwrite => exec_ser_stuck hwrite⟩
  case admitted =>
    have hn : n < 32 := Nat.lt_succ_of_le hle
    have haddr : s.serAddress = a := by rw [State.serAddress, hidx, ha]
    have hphase : serPhase (n + 1) = if n = 31 then .finish else .ser := by
      simp only [serPhase, Nat.succ_inj]
    refine ⟨_, _, _, hphase ▸ exec_ser_at hn hidx haddr hadmitted, serByte_toNat hn hidx, ?_, fun b hb => ?_,
      (ser_advances hn hidx).2⟩
    · rw [Memory.lookup_store, if_pos rfl]
    · rw [Memory.lookup_store, if_neg hb]

/-! ### The loop over the digest -/

/-- Since the entry to SER in `s` the first `n` digest bytes have been written and shown, and `Mem` is as it was but for
these. -/
structure DigestWritten (s : State) (n : Nat) (m : Memory) (trace : List Observation) : Prop where
  written : ∀ j, j < n → m.lookup (s.dptr.toNat + j) = (serialize s.hash)[j]?
  frame : ∀ a, a < s.dptr.toNat ∨ s.dptr.toNat + n ≤ a → m.lookup a = s.mem.lookup a
  shown : trace = ((List.range n).map fun j =>
    Observation.memWrite (s.dptr.toNat + j) ((serialize s.hash).getD j 0)).reverse ++ s.trace

/-- The state after `n` of the 32 SER steps, with the memory and the trace they left. -/
def State.inDigest (s : State) (n : Nat) (m : Memory) (trace : List Observation) : State :=
  { s with mem := m, sidx := BitVec.ofNat 6 n, phase := serPhase n, trace := trace }

section
variable {s : State} {n : Nat} {m : Memory} {trace : List Observation}

theorem inDigest_sidx_toNat (hn : n ≤ 32) : (s.inDigest n m trace).sidx.toNat = n :=
  Nat.mod_eq_of_lt (by omega)

theorem digestWritten_zero (s : State) : DigestWritten s 0 s.mem s.trace where
  written _ hj := absurd hj (Nat.not_lt_zero _)
  frame _ _ := rfl
  shown := rfl

/-- The next byte stored and shown. -/
theorem DigestWritten.push {v : Byte} (h : DigestWritten s n m trace) (hv : (serialize s.hash)[n]? = some v) :
    DigestWritten s (n + 1) (m.store (s.dptr.toNat + n) v) (.memWrite (s.dptr.toNat + n) v :: trace) where
  written j hj := by
    rw [Memory.lookup_store]
    rcases Nat.lt_succ_iff_lt_or_eq.mp hj with hlt | rfl
    · rw [if_neg (by omega), h.written j hlt]
    · rw [if_pos rfl, hv]
  frame a hout := by rw [Memory.lookup_store, if_neg (by omega), h.frame a (by omega)]
  shown := by
    have hget : (serialize s.hash).getD n 0 = v := by rw [List.getD_eq_getElem?_getD, hv, Option.getD_some]
    rw [h.shown, List.range_succ, List.map_append, List.reverse_append, ← hget]
    rfl

/-- A SER step writes the next byte of the digest (R200, R202). -/
theorem DigestWritten.step_ser (h : DigestWritten s n m trace) (hn : n < 32)
    (hfits : s.dptr.toNat + n < 2 ^ s.platform.aw) (hadmitted : writable s.platform (s.dptr.toNat + n) = true) :
    ∃ m' trace', exec .ser (s.inDigest n m trace) = .next (s.inDigest (n + 1) m' trace') ∧
      DigestWritten s (n + 1) m' trace' := by
  have hidx : (s.inDigest n m trace).sidx.toNat = n := inDigest_sidx_toNat hn.le
  have haddr : (s.inDigest n m trace).serAddress = s.dptr.toNat + n := by
    rw [State.serAddress, hidx]
    exact Nat.mod_eq_of_lt hfits
  have hbyte : (serialize s.hash)[n]? = some (s.inDigest n m trace).serByte := by
    rw [← serByte_eq_serialize (hidx.trans_lt hn), hidx]
    rfl
  have hsucc : (s.inDigest n m trace).sidx + 1 = BitVec.ofNat 6 (n + 1) := BitVec.ofNat_add_ofNat n 1
  refine ⟨_, _, ?_, h.push hbyte⟩
  rw [exec_ser_at hn hidx haddr hadmitted, hsucc]
  rfl

/-- The first `n` SER steps from the entry to SER write the first `n` bytes of the digest. -/
theorem runs_digest (hagenda : s.agenda = []) (hp : s.phase = .ser) (hidx : s.sidx = 0)
    (hfits : s.dptr.toNat + 32 ≤ 2 ^ s.platform.aw)
    (hadmitted : ∀ j, j < 32 → writable s.platform (s.dptr.toNat + j) = true) (hn : n ≤ 32) :
    ∃ m trace, runSteps n s = .next (s.inDigest n m trace) ∧ DigestWritten s n m trace := by
  induction n with
  | zero =>
    have hzero : s.sidx = BitVec.ofNat 6 0 := hidx
    have hentry : s.inDigest 0 s.mem s.trace = s := by
      rw [State.inDigest, serPhase_of_lt (by decide), ← hp, ← hzero]
    exact ⟨s.mem, s.trace, congrArg _ hentry.symm, digestWritten_zero s⟩
  | succ n ih =>
    obtain ⟨m, trace, hrun, hwritten⟩ := ih (by omega)
    obtain ⟨m', trace', he, hwritten'⟩ := hwritten.step_ser hn (by omega) (hadmitted n hn)
    exact ⟨m', trace', runSteps_turn hrun hagenda (serPhase_of_lt hn) he, hwritten'⟩

end

/-- Settles O53, by the loop that writes one byte of the digest in each step, and FINISH after it. -/
theorem serStepsWriteTheDigest : Obligations.SerStepsWriteTheDigest := by
  intro s hagenda hp hidx hfits hadmitted
  obtain ⟨m, trace, hrun, hwritten⟩ := runs_digest hagenda hp hidx hfits hadmitted le_rfl
  exact ⟨m, trace, runSteps_turn hrun hagenda rfl (exec_finish _), hwritten.written, hwritten.frame, hwritten.shown⟩

end Sys2Proof.Machine
end

section
/-! SUPPORT. What each name a START is refused under says of the operands (R60, R62, R221). -/

namespace Sys2Proof.Machine

section
variable {s : State} {r : Refusal}

/-- The check for a wrap of the message range, in the addresses of R108. -/
theorem messageWraps_iff : s.messageWraps = true ↔ 2 ^ s.platform.aw < srcAddr s + s.len.toNat := by
  have hsrc : s.startSrc = srcAddr s := truncAddr_toNat _ _
  rw [State.messageWraps, decide_eq_true_iff, hsrc]

/-- The check for a wrap of the digest range, in the addresses of R108. -/
theorem digestWraps_iff : s.digestWraps = true ↔ 2 ^ s.platform.aw < dstAddr s + 32 := by
  have hdst : s.startDst = dstAddr s := truncAddr_toNat _ _
  rw [State.digestWraps, decide_eq_true_iff, hdst]

/-- The comparison of the ends of the ranges holds exactly when they share an address; the later start is one (R62). -/
theorem rangesOverlap_iff : s.rangesOverlap = true ↔
    ∃ a, srcAddr s ≤ a ∧ a < srcAddr s + s.len.toNat ∧ dstAddr s ≤ a ∧ a < dstAddr s + 32 := by
  have hsrc : s.startSrc = srcAddr s := truncAddr_toNat _ _
  have hdst : s.startDst = dstAddr s := truncAddr_toNat _ _
  simp only [State.rangesOverlap, hsrc, hdst, Bool.and_eq_true, decide_eq_true_iff]
  constructor
  case mp => exact fun _ => ⟨max (srcAddr s) (dstAddr s), by omega⟩
  case mpr => exact fun ⟨a, _⟩ => by omega

/-- Each name START is refused under comes with the check that failed (R221). -/
theorem startRefusal_some_cases (h : s.startRefusal = some r) :
    (r = .startLengthTooLarge ∧ s.lengthTooLarge = true) ∨ (r = .startMessageWraps ∧ s.messageWraps = true) ∨
      (r = .startDigestWraps ∧ s.digestWraps = true) ∨ (r = .startRangesOverlap ∧ s.rangesOverlap = true) := by
  unfold State.startRefusal at h
  split_ifs at h with hlength hmessage hdigest hoverlap <;> obtain rfl := Option.some.inj h
  · exact .inl ⟨rfl, hlength⟩
  · exact .inr (.inl ⟨rfl, hmessage⟩)
  · exact .inr (.inr (.inl ⟨rfl, hdigest⟩))
  · exact .inr (.inr (.inr ⟨rfl, hoverlap⟩))

/-- Only a START on an idle block is refused, and for the reason `startRefusal` gives (R99, R100). -/
theorem wrCtrl_refused_iff {d : Word} :
    exec (.wrCtrl d) s = .refused r ↔ (s.busy = false ∧ d.toNat % 2 = 1) ∧ s.startRefusal = some r := by
  constructor
  case mp =>
    intro h
    have hb : s.busy = false := Bool.eq_false_of_not_eq_true fun hb =>
      absurd ((exec_writeInstr_of_busy .ctrl d hb).symm.trans h) (by simp)
    have hd : d.toNat % 2 = 1 := Nat.mod_two_ne_zero.mp fun hd =>
      absurd ((exec_wrCtrl_of_even hd s).symm.trans h) (by simp)
    rw [exec_wrCtrl_of_odd hb hd] at h
    rcases start_cases s with ⟨_, hr, he⟩ | ⟨_, he⟩
    · obtain rfl := Host.Outcome.refused.inj (he.symm.trans h)
      exact ⟨⟨hb, hd⟩, hr⟩
    · exact absurd (he.symm.trans h) (by simp)
  case mpr =>
    rintro ⟨⟨hb, hd⟩, hr⟩
    rw [exec_wrCtrl_of_odd hb hd, start, hr]

end

/-- Settles O16: a refusal is START's own, and the check behind each name says what is outside the valid domain. -/
theorem startRefusalNamesTheViolation : Obligations.StartRefusalNamesTheViolation := by
  intro s d r h
  obtain ⟨hstart, hrefusal⟩ := wrCtrl_refused_iff.mp h
  refine ⟨hstart, ?_⟩
  rcases startRefusal_some_cases hrefusal with ⟨hr, hlength⟩ | ⟨hr, hmessage⟩ | ⟨hr, hdigest⟩ | ⟨hr, hoverlap⟩
  · exact .inl ⟨hr, of_decide_eq_true hlength⟩
  · exact .inr (.inl ⟨hr, messageWraps_iff.mp hmessage⟩)
  · exact .inr (.inr (.inl ⟨hr, digestWraps_iff.mp hdigest⟩))
  · exact .inr (.inr (.inr ⟨hr, rangesOverlap_iff.mp hoverlap⟩))

end Sys2Proof.Machine
end

section
/-! SUPPORT. Reset, and what writes DONE: an accepted START and reset clear it, FINISH sets it (R250, R252, R257). -/

namespace Sys2Proof.Machine

section
variable {s t : State}

/-! ### What writes DONE -/

/-- Of the host accesses only an accepted START writes DONE (R90, R99, R100). -/
theorem exec_host_done {i : Instr} (hi : i.format = .host) (h : exec i s = .next t) :
    t.done = s.done ∨ (s.busy = false ∧ t = s.started ∧ ∃ d, i = .wrCtrl d ∧ startBit d = true) := by
  rcases exec_host_cases hi s with ⟨_, _, he⟩ | he | ⟨_, _, he⟩ | ⟨_, _, he⟩ | ⟨_, _, he⟩ | ⟨d, hwrite, hb, hbit, _, he⟩ |
    ⟨_, _, _, _, _, _, he⟩ <;> rw [he] at h
  case inr.inr.inr.inr.inr.inr => cases h
  all_goals obtain rfl := Host.Outcome.next.inj h
  case inr.inr.inr.inr.inr.inl => exact .inr ⟨hb, rfl, d, hwrite, hbit⟩
  all_goals exact .inl rfl

/-- The sequencer's turn keeps DONE, and FINISH sets it (R35, R201). -/
theorem turn_done (h : exec s.phase.instr s.turned = .next t) :
    t.done = s.done ∨ (s.phase = .finish ∧ t.done = true) := by
  by_cases hp : s.phase = .finish
  · rw [hp] at h
    obtain rfl := Host.Outcome.next.inj ((exec_finish s.turned).symm.trans h)
    exact .inr ⟨hp, rfl⟩
  · obtain ⟨u, hu, _, hdone⟩ := turn_keepsFlags hp s.turned
    obtain rfl := Host.Outcome.next.inj (hu.symm.trans h)
    exact .inl hdone

/-- Everything a step can do to DONE: keep it, accept a START, run FINISH, or reset (R257). -/
theorem step_done_cases (h : step s = .next t) :
    t.done = s.done ∨ (s.startComing ∧ t = s.turned.started) ∨
    (s.sequencerTurn ∧ s.phase = .finish ∧ t.done = true) ∨
    ((∃ es, s.agenda = .reset :: es) ∧ t = s.turned.resetEvent) := by
  rcases step_cases s with ⟨x, es, ha, he⟩ | ⟨hturn, he⟩ | ⟨es, ha, he⟩ | ⟨a, v, _, _, he⟩ <;> rw [he] at h
  · refine (exec_host_done (decodeAccess_format x) h).imp_right fun ⟨hb, ht, d, hwrite, hbit⟩ => ?_
    exact .inl ⟨⟨hb, x, es, d, ha, hwrite, hbit⟩, ht⟩
  · exact (turn_done h).imp_right fun ⟨hp, hdone⟩ => .inr (.inl ⟨hturn, hp, hdone⟩)
  · exact .inr (.inr (.inr ⟨⟨es, ha⟩, (Host.Outcome.next.inj h).symm⟩))
  · rcases masterStore_cases s.turned a v with ⟨_, hm⟩ | ⟨_, hm⟩ <;> rw [hm] at h
    · obtain rfl := Host.Outcome.next.inj h
      exact .inl rfl
    · cases h

/-- A START that comes and is not refused leads to the state START gives (R100). -/
theorem step_of_startComing (hstart : s.startComing) (h : step s = .next t) : t = s.turned.started := by
  obtain ⟨hb, x, es, d, ha, hwrite, hbit⟩ := hstart
  have hexec : step s = start s.turned := by
    rw [step_of_access ha, hwrite, ← turned_of_agenda_cons ha, exec_wrCtrl, State.turned_busy, hb]
    exact if_pos hbit
  rcases start_cases s.turned with ⟨_, _, he⟩ | ⟨_, he⟩ <;> rw [hexec, he] at h
  · cases h
  · exact (Host.Outcome.next.inj h).symm

end

/-- Settles O47: of the four things a step can do to DONE, START and reset clear it and FINISH sets it. -/
theorem doneIsSticky : Obligations.DoneIsSticky := by
  refine ⟨fun s t h hs ht => ?cleared, fun s t h hstart => ?start, fun s t h hs ht => ?set⟩
  case cleared =>
    rcases step_done_cases h with hkept | ⟨hstart, rfl⟩ | ⟨_, _, hset⟩ | ⟨hreset, _⟩
    · simp [hs, ht] at hkept
    · exact .inr ⟨hstart, State.started_busy _⟩
    · simp [ht] at hset
    · exact .inl hreset
  case start =>
    obtain rfl := step_of_startComing hstart h
    exact ⟨State.started_busy _, State.started_done _⟩
  case set =>
    rcases step_done_cases h with hkept | ⟨_, rfl⟩ | ⟨hturn, hp, _⟩ | ⟨_, rfl⟩
    · simp [hs, ht] at hkept
    · simp at ht
    · exact ⟨hturn, hp⟩
    · simp at ht

/-- Settles O36: the step is the reset event, and the idle block it leaves stays as it is. -/
theorem resetClearsControlAndOperands : Obligations.ResetClearsControlAndOperands := by
  intro s es ha
  have hagenda : s.turned.resetEvent.agenda = es := by rw [turned_of_agenda_cons ha, State.resetEvent_agenda]
  refine ⟨s.turned.resetEvent, step_of_reset ha, rfl, rfl, rfl, rfl, rfl, rfl, rfl, rfl, rfl, hagenda, fun hnil => ?_⟩
  exact (idleStaysIdle _).2 (State.resetEvent_phase _) (hagenda.trans hnil)

end Sys2Proof.Machine
end
